-- ==== Sys2Proof/Word.lean ====
section
/-! DEFINITION. The word types of the block: the byte of every memory, and the registers that are wider or narrower
(spec 00_scope R6, 10_state R22, R23, R29, R32). Numbers that the spec treats as counts, lengths and positions
(CUR, LEN, ROM_SIZE, OUT_CAP) are `Nat`; IDX and ERRPOS are `Int` (00_scope R10). -/

namespace Sys2Proof

/-- "Byte width 8 bits everywhere" (R6). -/
abbrev Byte := BitVec 8

/-- OFFSET, VSTART and the self-copy start index: 16 bits (R22, R29, R76). -/
abbrev Half := BitVec 16

/-- POS: `POS_W` = 22 bits (R7, R23). -/
abbrev LinearPos := BitVec 22

end Sys2Proof
end

