-- ==== Sys2Proof/Syntax.lean ====
section
/-! DEFINITION. The instructions: one constructor per row of spec/opcode_table.json, in the table's order. A stream
instruction carries its operand bytes (30_encoding R70, R73); `c` is `count_minus_one` (R74), `x` the ignored bits of a
format X opcode byte (R72), `start` the self-copy index (R76). A host operation has no operand (R87). -/

namespace Sys2Proof

inductive Instr where
  /-- LIT, format S, `000ccccc` then `n` data bytes (R151). -/
  | lit (c : BitVec 5) (data : List Byte)
  /-- RPT, format S, `001ccccc` then `b` (R152). -/
  | rpt (c : BitVec 5) (b : Byte)
  /-- PAIR, format S, `010ccccc` then `b1`, `b2` (R153). -/
  | pair (c : BitVec 5) (b1 b2 : Byte)
  /-- INC, format S, `011ccccc` then the seed (R154). -/
  | inc (c : BitVec 5) (seed : Byte)
  /-- FWD, format S, `100ccccc` then `hi`, `lo` (R156). -/
  | fwd (c : BitVec 5) (start : Half)
  /-- TBL, format S, `101ccccc` then `hi`, `lo` (R157). -/
  | tbl (c : BitVec 5) (start : Half)
  /-- BWD, format S, `110ccccc` then `hi`, `lo` (R158). -/
  | bwd (c : BitVec 5) (start : Half)
  /-- LITX, format X, `111000xx`, count byte, `n` data bytes (R166). -/
  | litx (x : BitVec 2) (c : Byte) (data : List Byte)
  /-- RPTX, format X, `111001xx`, count byte, `b` (R167). -/
  | rptx (x : BitVec 2) (c : Byte) (b : Byte)
  /-- PAIRX, format X, `111010xx`, count byte, `b1`, `b2` (R168). -/
  | pairx (x : BitVec 2) (c : Byte) (b1 b2 : Byte)
  /-- INCX, format X, `111011xx`, count byte, the seed (R169). -/
  | incx (x : BitVec 2) (c : Byte) (seed : Byte)
  /-- FWDX, format X, `111100xx`, count byte, `hi`, `lo` (R170). -/
  | fwdx (x : BitVec 2) (c : Byte) (start : Half)
  /-- TBLX, format X, `111101xx`, count byte, `hi`, `lo` (R171). -/
  | tblx (x : BitVec 2) (c : Byte) (start : Half)
  /-- BWDX, format X, `111110xx`, count byte, `hi`, `lo` (R172). -/
  | bwdx (x : BitVec 2) (c : Byte) (start : Half)
  /-- LITX.D on its first row of the table, `1111110x` (bytes 0xFC, 0xFD), count byte, `n` data bytes (R173). -/
  | litxD (x : BitVec 1) (c : Byte) (data : List Byte)
  /-- LITX.D on its second row of the table, `11111110` (byte 0xFE), count byte, `n` data bytes (R173). -/
  | litxDFE (c : Byte) (data : List Byte)
  /-- END, format E, `11111111` (R134). -/
  | endStream
  /-- XLAT, `CMD` = 0x01 (R100). -/
  | xlat
  /-- GENTBL, `CMD` = 0x02 (R110). -/
  | gentbl
  /-- DECOMP, `CMD` = 0x03 (R130). -/
  | decomp
  /-- COMPOSE, `CMD` = 0x04 (R180). -/
  | compose
  /-- TSLOT, `CMD` = 0x05 (R192). -/
  | tslot
  deriving DecidableEq, Repr

/-- The two levels of the instruction set (R2): bytes of the stream, and codes written to `CMD`. -/
inductive Space where
  | stream
  | host
  deriving DecidableEq, Repr

/-- The level an instruction belongs to (R2, R88). -/
def Instr.space : Instr → Space
  | .xlat | .gentbl | .decomp | .compose | .tslot => .host
  | .lit _ _ | .rpt _ _ | .pair _ _ _ | .inc _ _ | .fwd _ _ | .tbl _ _ | .bwd _ _ => .stream
  | .litx _ _ _ | .rptx _ _ _ | .pairx _ _ _ _ | .incx _ _ _ | .fwdx _ _ _ | .tblx _ _ _ | .bwdx _ _ _ => .stream
  | .litxD _ _ _ | .litxDFE _ _ | .endStream => .stream

end Sys2Proof
end

