-- ==== Sys2Proof/WellFormed.lean ====
section
/-! DEFINITION. When a term of `Instr` is an instruction of the block. Every field but one is well formed by its type;
the literal copies carry exactly `n = count_minus_one + 1` data bytes (30_encoding R73, R74). -/

namespace Sys2Proof

/-- A literal of count `c` carries `c + 1` bytes (R73, R74). -/
def literalFits (c : Nat) (data : List Byte) : Bool := data.length == c + 1

/-- The instruction has the operand bytes its encoding gives it. -/
def Instr.wellFormed : Instr → Bool
  | .lit c data => literalFits c.toNat data
  | .litx _ c data => literalFits c.toNat data
  | .litxD _ c data => literalFits c.toNat data
  | .litxDFE c data => literalFits c.toNat data
  | .rpt _ _ | .pair _ _ _ | .inc _ _ | .fwd _ _ | .tbl _ _ | .bwd _ _ => true
  | .rptx _ _ _ | .pairx _ _ _ _ | .incx _ _ _ | .fwdx _ _ _ | .tblx _ _ _ | .bwdx _ _ _ => true
  | .endStream | .xlat | .gentbl | .decomp | .compose | .tslot => true

/-- `n`, the count of a stream instruction (R74); 0 for END and the host operations, which have none. -/
def Instr.count : Instr → Nat
  | .lit c _ | .rpt c _ | .pair c _ _ | .inc c _ | .fwd c _ | .tbl c _ | .bwd c _ => c.toNat + 1
  | .litx _ c _ | .rptx _ c _ | .pairx _ c _ _ | .incx _ c _ | .fwdx _ c _ | .tblx _ c _ | .bwdx _ c _ => c.toNat + 1
  | .litxD _ c _ | .litxDFE c _ => c.toNat + 1
  | .endStream | .xlat | .gentbl | .decomp | .compose | .tslot => 0

/-- The length in bytes of a stream instruction, the table of R77; a `CMD` code is one byte. -/
def Instr.length : Instr → Nat
  | .lit c _ => 1 + (c.toNat + 1)
  | .rpt _ _ | .inc _ _ => 2
  | .pair _ _ _ | .fwd _ _ | .tbl _ _ | .bwd _ _ => 3
  | .litx _ c _ | .litxD _ c _ | .litxDFE c _ => 2 + (c.toNat + 1)
  | .rptx _ _ _ | .incx _ _ _ => 3
  | .pairx _ _ _ _ | .fwdx _ _ _ | .tblx _ _ _ | .bwdx _ _ _ => 4
  | .endStream => 1
  | .xlat | .gentbl | .decomp | .compose | .tslot => 1

end Sys2Proof
end

