-- ==== Sys2Proof/Decode.lean ====
section
/-! DEFINITION. From bytes to instructions and back (spec 30_encoding). The stream decoder follows R70 to R78, the
command decoder R88; both are total and reject by name. The encoder is written from the same tables. At the foot, the
word numbering of spec/opcode_table.json, for the host. -/

namespace Sys2Proof

/-- Why bytes are not an instruction. The stream decoder rejects only where bytes are missing (R79: no opcode byte is
illegal); the command decoder rejects the reserved codes (R88). -/
inductive DecodeError where
  /-- No byte is there at all: the opcode byte, or the command code, is missing. -/
  | noOpcode
  /-- Format X, and the count byte is missing. -/
  | noCount
  /-- An operand byte of a behaviour other than the literal copy is missing. -/
  | noOperand
  /-- A literal copy with fewer than `n` data bytes left: the (ill-formed) term holds those that are there. -/
  | cutLiteral (i : Instr)
  /-- A `CMD` code that names no operation (R88, 93 U9). -/
  | reservedCommand (code : Byte)
  deriving DecidableEq, Repr

/-- What a decoder answers: an instruction and the bytes after it, or a rejection. -/
abbrev Decoded := Except DecodeError (Instr × List Byte)

/-! ### Fields -/

/-- Format S opcode byte: bits 7:5 `T`, bits 4:0 `C` (R71). -/
def opcodeS (T : BitVec 3) (c : BitVec 5) : Byte := T ++ c

/-- Format X opcode byte: bits 7:5 `111`, bits 4:2 `T`, bits 1:0 `x` (R72). -/
def opcodeX (T : BitVec 3) (x : BitVec 2) : Byte := 7#3 ++ T ++ x

/-- `tag = opcode & 0xE0` (R71, R75). -/
def tagS (op : Byte) : Byte := op &&& 0xE0#8

/-- `tag = (opcode << 3) & 0xE0` (R72, R75); the shift drops what leaves bit 7, as the mask does. -/
def tagX (op : Byte) : Byte := (op <<< 3) &&& 0xE0#8

/-- `count_minus_one = opcode & 0x1F` as the 5-bit field `C` (R71). -/
def countS (op : Byte) : BitVec 5 := op.extractLsb' 0 5

/-- `start = (hi << 8) | lo`, `hi` at the lower position (R56, R76). -/
def startOf (hi lo : Byte) : Half := (hi.zeroExtend 16 <<< 8) ||| lo.zeroExtend 16

/-- The byte `hi` of a start index (R76). -/
def startHi (start : Half) : Byte := start.extractLsb' 8 8

/-- The byte `lo` of a start index (R76). -/
def startLo (start : Half) : Byte := start.extractLsb' 0 8

/-! ### Operand bytes (R73) -/

/-- One operand byte. -/
def withOne (k : Byte → Instr) : List Byte → Decoded
  | b :: rest => .ok (k b, rest)
  | [] => .error .noOperand

/-- Two operand bytes, in ROM order. -/
def withTwo (k : Byte → Byte → Instr) : List Byte → Decoded
  | b1 :: b2 :: rest => .ok (k b1 b2, rest)
  | _ => .error .noOperand

/-- The two address bytes of a self-copy, `hi` then `lo`. -/
def withStart (k : Half → Instr) (bytes : List Byte) : Decoded :=
  withTwo (fun hi lo => k (startOf hi lo)) bytes

/-- `n` data bytes, in output order. -/
def withData (n : Nat) (k : List Byte → Instr) (bytes : List Byte) : Decoded :=
  if n ≤ bytes.length then .ok (k (bytes.take n), bytes.drop n) else .error (.cutLiteral (k bytes))

/-! ### The decoders -/

/-- Format S: the dispatch of R132, R136 on `tag`; `rest` stands after the opcode byte. -/
def decodeShort (op : Byte) (rest : List Byte) : Decoded :=
  if tagS op = 0x20#8 then withOne (.rpt (countS op)) rest
  else if tagS op = 0x40#8 then withTwo (.pair (countS op)) rest
  else if tagS op = 0x60#8 then withOne (.inc (countS op)) rest
  else if tagS op = 0x80#8 then withStart (.fwd (countS op)) rest
  else if tagS op = 0xA0#8 then withStart (.tbl (countS op)) rest
  else if tagS op = 0xC0#8 then withStart (.bwd (countS op)) rest
  else withData ((countS op).toNat + 1) (.lit (countS op)) rest

/-- Format X: the dispatch of R135, R136 on the recomputed tag; `rest` stands after the count byte. The default arm is
LITX for tag 0x00 and LITX.D for tag 0xE0, the latter split over its two rows (R89, R173). -/
def decodeExtended (op cnt : Byte) (rest : List Byte) : Decoded :=
  if tagX op = 0x20#8 then withOne (.rptx (op.extractLsb' 0 2) cnt) rest
  else if tagX op = 0x40#8 then withTwo (.pairx (op.extractLsb' 0 2) cnt) rest
  else if tagX op = 0x60#8 then withOne (.incx (op.extractLsb' 0 2) cnt) rest
  else if tagX op = 0x80#8 then withStart (.fwdx (op.extractLsb' 0 2) cnt) rest
  else if tagX op = 0xA0#8 then withStart (.tblx (op.extractLsb' 0 2) cnt) rest
  else if tagX op = 0xC0#8 then withStart (.bwdx (op.extractLsb' 0 2) cnt) rest
  else if tagX op = 0x00#8 then withData (cnt.toNat + 1) (.litx (op.extractLsb' 0 2) cnt) rest
  else if op = 0xFE#8 then withData (cnt.toNat + 1) (.litxDFE cnt) rest
  else withData (cnt.toNat + 1) (.litxD (op.extractLsb' 0 1) cnt) rest

/-- The stream decoder: the test for 0xFF first, then the extension marker, then the tag (R70, R132). -/
def decodeStream : List Byte → Decoded
  | [] => .error .noOpcode
  | op :: rest =>
    if op = 0xFF#8 then .ok (.endStream, rest)
    else if tagS op = 0xE0#8 then
      match rest with
      | [] => .error .noCount
      | cnt :: rest' => decodeExtended op cnt rest'
    else decodeShort op rest

/-- The command decoder: the codes of R88. -/
def decodeCommand : List Byte → Decoded
  | [] => .error .noOpcode
  | code :: rest =>
    if code = 0x01#8 then .ok (.xlat, rest)
    else if code = 0x02#8 then .ok (.gentbl, rest)
    else if code = 0x03#8 then .ok (.decomp, rest)
    else if code = 0x04#8 then .ok (.compose, rest)
    else if code = 0x05#8 then .ok (.tslot, rest)
    else .error (.reservedCommand code)

/-- The decoder of each level of the instruction set (R2). -/
def decode : Space → List Byte → Decoded
  | .stream, bytes => decodeStream bytes
  | .host, bytes => decodeCommand bytes

/-! ### The encoder -/

/-- The first byte of an instruction: the opcode byte (R71, R72, R78) or the command code (R88). -/
def Instr.opcode : Instr → Byte
  | .lit c _ => opcodeS 0#3 c
  | .rpt c _ => opcodeS 1#3 c
  | .pair c _ _ => opcodeS 2#3 c
  | .inc c _ => opcodeS 3#3 c
  | .fwd c _ => opcodeS 4#3 c
  | .tbl c _ => opcodeS 5#3 c
  | .bwd c _ => opcodeS 6#3 c
  | .litx x _ _ => opcodeX 0#3 x
  | .rptx x _ _ => opcodeX 1#3 x
  | .pairx x _ _ _ => opcodeX 2#3 x
  | .incx x _ _ => opcodeX 3#3 x
  | .fwdx x _ _ => opcodeX 4#3 x
  | .tblx x _ _ => opcodeX 5#3 x
  | .bwdx x _ _ => opcodeX 6#3 x
  | .litxD x _ _ => opcodeX 7#3 (x.zeroExtend 2)
  | .litxDFE _ _ => 0xFE#8
  | .endStream => 0xFF#8
  | .xlat => 0x01#8
  | .gentbl => 0x02#8
  | .decomp => 0x03#8
  | .compose => 0x04#8
  | .tslot => 0x05#8

/-- The bytes after the opcode byte: the count byte of format X (R72), then the operand bytes (R73). -/
def Instr.tail : Instr → List Byte
  | .lit _ data => data
  | .rpt _ b => [b]
  | .pair _ b1 b2 => [b1, b2]
  | .inc _ seed => [seed]
  | .fwd _ start | .tbl _ start | .bwd _ start => [startHi start, startLo start]
  | .litx _ c data | .litxD _ c data | .litxDFE c data => c :: data
  | .rptx _ c b => [c, b]
  | .pairx _ c b1 b2 => [c, b1, b2]
  | .incx _ c seed => [c, seed]
  | .fwdx _ c start | .tblx _ c start | .bwdx _ c start => [c, startHi start, startLo start]
  | .endStream | .xlat | .gentbl | .decomp | .compose | .tslot => []

/-- The bytes of an instruction (R70, R85, R88). -/
def encode (i : Instr) : List Byte := i.opcode :: i.tail

/-! ### The numbering of spec/opcode_table.json -/

/-- The longest stream instruction, LITX with `n` = 256 (R77). -/
def maxLength : Nat := 258

/-- The `n` bytes of a word, least significant byte first: with bytes, bit 0 of the table's word is bit 0 of the first
byte. -/
def bytesOfWord : Nat → Nat → List Byte
  | 0, _ => []
  | n + 1, w => BitVec.ofNat 8 w :: bytesOfWord n (w / 256)

/-- The bytes of a table word of `nbits` bits, and zeros up to the longest instruction. -/
def tableBytes (nbits w : Nat) : List Byte :=
  bytesOfWord ((nbits + 7) / 8) w ++ List.replicate maxLength 0#8

/-- Which level a table word is read at. The table's rows of format H match on `CMD`, the others on a stream byte, and
the two share the byte values 0x01 to 0x05: DESIGN CHOICE (log 11), a word of at most one byte whose value is a command
code is read as the command, everything else as stream bytes. -/
def tableSpace (nbits w : Nat) : Space :=
  if nbits ≤ 8 ∧ 1 ≤ w ∧ w ≤ 5 then .host else .stream

/-- The instruction the decoder reads from a word numbered as spec/opcode_table.json numbers it. -/
def decodeTableWord (nbits w : Nat) : Option Instr :=
  match tableSpace nbits w with
  | .host =>
    match decode .host [BitVec.ofNat 8 w] with
    | .ok (i, _) => some i
    | .error _ => none
  | .stream =>
    match decode .stream (tableBytes nbits w) with
    | .ok (i, _) => some i
    | .error _ => none

end Sys2Proof
end

