-- ==== Sys2Proof/Machine/Flags.lean ====
section
/-! DEFINITION. The flag computations of the block (spec 10_state R43): the generator's carry GC, set and read by the two
halves of an inner step (41 R112, R113), and BASESEL (44 R183). No stream instruction tests or writes a flag (43 R150). -/

namespace Sys2Proof.Machine

/-- First half of an inner step: `carry = r & 1; r = (carry << 7) | (r >> 1)`, a circular rotate (R112, 90 C2). The
second component is the new GC. -/
def rotateRight (r : Byte) : Byte × BitVec 1 :=
  let carry : Byte := r &&& 1#8
  ((carry <<< 7) ||| (r >>> 1), carry.extractLsb' 0 1)

/-- Second half of an inner step: `a = (a << 1) | carry; carry = (a >> 8) & 1; a &= 0xFF`, on 9 bits (R113). The second
component is the new GC. -/
def rotateLeftThrough (a : Byte) (carry : BitVec 1) : Byte × BitVec 1 :=
  let t : BitVec 9 := (a.zeroExtend 9 <<< 1) ||| carry.zeroExtend 9
  (t.extractLsb' 0 8, t.extractLsb' 8 1)

/-- BASESEL: 0 if `VSTART < 0x8800`, else 1; the comparison is unsigned and strict (R183). -/
def baseSelOf (vstart : Half) : BitVec 1 := if vstart.toNat < 0x8800 then 0#1 else 1#1

/-- The base BASESEL stands for: 0x8000 or 0x8800 (10_state R29). -/
def baseOf (baseSel : BitVec 1) : Nat := if baseSel = 0#1 then 0x8000 else 0x8800

end Sys2Proof.Machine
end

