-- ==== Sys2Proof/Machine/Generator.lean ====
section
/-! DEFINITION. The loop of the procedural table generator, over its own registers (spec 41 R110 to R115). -/

namespace Sys2Proof.Machine

/-- The generator's registers (10_state R35). -/
structure Gen where
  /-- GA, the accumulator `a`. -/
  ga : Byte
  /-- GR, the rotation register `r`, kept to 8 bits (92 D26). -/
  gr : Byte
  /-- GC, the carry. -/
  gc : BitVec 1
  /-- GI, the inner-step counter, 0 to 8. -/
  gi : BitVec 4
  /-- GN, the number of entries appended so far. -/
  gn : BitVec 9
  deriving DecidableEq, Repr

/-- The values at the start of every run: `GA <- 0x07`, `GR <- 0x00`, `GI = 0`, `GN = 0`; GC keeps whatever it held
(R111, 10_state R45, 93 U3). -/
def Gen.begin (g : Gen) : Gen := { g with ga := 0x07#8, gr := 0x00#8, gi := 0#4, gn := 0#9 }

/-- One inner step: rotate GR right, then GA left through the carry that left GR (R112, R113). -/
def Gen.inner (g : Gen) : Gen :=
  let r := rotateRight g.gr
  let a := rotateLeftThrough g.ga r.2
  { g with gr := r.1, ga := a.1, gc := a.2, gi := g.gi + 1#4 }

/-- `n` inner steps. -/
def Gen.inners : Nat → Gen → Gen
  | 0, g => g
  | n + 1, g => Gen.inners n g.inner

/-- The eight inner steps of one entry, GI counting from 0 (R110). -/
def Gen.eight (g : Gen) : Gen := Gen.inners 8 { g with gi := 0#4 }

/-- After the append: `GN`, `GR` and `GA` are incremented, the last two modulo 256 (R114). -/
def Gen.bump (g : Gen) : Gen := { g with gn := g.gn + 1#9, gr := g.gr + 1#8, ga := g.ga + 1#8 }

/-- `while GA != 0`: the appended bytes in order, and the registers at the end (R110, R115). The first argument bounds
the number of iterations; 256 are enough, since then GA is 0 (R115). -/
def Gen.loop : Nat → Gen → List Byte × Gen
  | 0, g => ([], g)
  | n + 1, g =>
    if g.ga = 0#8 then ([], g)
    else
      let rest := Gen.loop n g.eight.bump
      (g.eight.ga :: rest.1, rest.2)

/-- A whole run from what the registers hold: the bytes written to `TBL[0]`, `TBL[1]`, … and the registers it leaves. -/
def Gen.run (g : Gen) : List Byte × Gen := Gen.loop Config.tblLen g.begin

end Sys2Proof.Machine
end

