-- ==== Sys2Proof/Machine/Memory.lean ====
section
/-! DEFINITION. Byte memories in one canonical form (spec 20_memory R50: every space is byte-addressed). A memory is a
list of (address, byte) pairs, addresses strictly rising, and no pair holds the byte an unlisted address reads as. -/

namespace Sys2Proof.Machine

/-- A byte memory: the four spaces ROM, OUT, TBL and WIN (R50) each have one. -/
abbrev Memory := List Host.Cell

/-- What an unlisted address reads as: 0x00. DESIGN CHOICE (log 6): the spec gives OUT and WIN no contents at reset
(10_state R45). No rule reads a byte that nothing has written (70 R281). -/
def Memory.unlisted : Byte := 0#8

/-- The canonical form: addresses strictly rising, and no entry equal to what an unlisted address reads as. -/
abbrev Memory.wf (m : Memory) : Prop :=
  m.Pairwise (fun c d => c.1 < d.1) ∧ ∀ c ∈ m, c.2 ≠ Memory.unlisted

/-- Every listed address lies in a space of `size` bytes. -/
abbrev Memory.within (m : Memory) (size : Nat) : Prop := ∀ c ∈ m, c.1 < size

/-- The byte at an address. -/
def Memory.read : Memory → Nat → Byte
  | [], _ => Memory.unlisted
  | (b, w) :: m, a => if a = b then w else Memory.read m a

/-- A cell in front of a memory, left out where it would list the unlisted byte. -/
def Memory.cell (a : Nat) (v : Byte) (m : Memory) : Memory :=
  if v = Memory.unlisted then m else (a, v) :: m

/-- The memory with one byte written; the canonical form is kept. -/
def Memory.write : Memory → Nat → Byte → Memory
  | [], a, v => Memory.cell a v []
  | (b, w) :: m, a, v =>
    if a < b then Memory.cell a v ((b, w) :: m)
    else if a = b then Memory.cell a v m
    else (b, w) :: Memory.write m a v

/-- Bytes written one after another at rising addresses. -/
def Memory.writeList : Memory → Nat → List Byte → Memory
  | m, _, [] => m
  | m, a, v :: vs => Memory.writeList (Memory.write m a v) (a + 1) vs

/-- The memory that holds exactly these bytes from an address on. -/
def Memory.ofBytes : Nat → List Byte → Memory
  | _, [] => []
  | a, v :: vs => Memory.cell a v (Memory.ofBytes (a + 1) vs)

/-- The memory whose byte at `pad + i` is byte `i` of the first `len` bytes of `m`, everything else 0x00: the left pad,
the data and the right pad of COMPOSE (44 R187). -/
def Memory.padded (m : Memory) (len pad : Nat) : Memory :=
  (m.filter (fun c => c.1 < len)).map (fun c => (c.1 + pad, c.2))

end Sys2Proof.Machine
end

