-- ==== Sys2Proof/Machine/State.lean ====
section
/-! DEFINITION. The state of the block, as plain data (spec 10_state), its outcomes, and the state after reset
(10_state R45, 70 R280). INVENTORY.md lists every field with its rule. -/

namespace Sys2Proof.Machine

/-- What the host can read (10_state R47). The indices of OUT and WIN are numbers, that of TBL a byte (20_memory R54). -/
inductive Port where
  | offset | bank | tilein | pos | cmd
  | st | err | errPos
  | slot | vstart | baseSel | cur | len
  | out (i : Nat)
  | tbl (i : Byte)
  | win (i : Nat)
  deriving DecidableEq, Repr

/-- Why the machine stops with a fault. The block's own six error kinds are no stops: they are taken, into a next state
with ST = FAULT (60 R250, R253; log 12). -/
inductive Fault where
  /-- A host read of `OUT[i]` with `i >= OUT_CAP`, or of `WIN[i]` with `i >= 0x1800`: the space has no such byte
  (20_memory R50). Raised by `hostRead`. Safe: nothing goes on. -/
  | absentAddress (p : Port)
  deriving DecidableEq, Repr

/-- Why the machine gives no meaning. -/
inductive Refusal where
  /-- An instruction the model gives no meaning yet. Raised by `exec`'s own arms only. Safe. -/
  | notModelled (mnemonic : String)
  /-- A reserved code written to CMD: "refused" (10_state R24, 30 R88, 93 U9). Raised by `hostStep`. Safe. -/
  | reservedCommand (code : Byte)
  /-- A host read of a result that is not valid, "which a model treats as a fault or a refusal, never as a value" (10_state
  R42, R27, R47; 92 D25; 93 U5). Raised by `hostRead`. Safe. -/
  | invalidResult (p : Port)
  deriving DecidableEq, Repr

/-- The values ST holds: IDLE 0, DONE 1, FAULT 2 (10_state R25). Code 3, BUSY, is never held (90 C10; log 1). -/
inductive Status where
  | idle
  | done
  | fault
  deriving DecidableEq, Repr

/-- The error kinds ERR holds (60 R241). `unknownLevelIndex` is never raised by the block (R245); code 7 never arises. -/
inductive ErrKind where
  | none
  | outOfRange
  | truncatedStream
  | unknownLevelIndex
  | emptyInput
  | outputOverflow
  | windowOverflow
  deriving DecidableEq, Repr

/-- Which decode the engine is inside of, between two stream instructions (00_scope R9; log 1). -/
inductive Engine where
  | idle
  | decomp
  | compose
  deriving DecidableEq, Repr

/-- What the host does with the block (10_state R47, 70 R282, R283), one move at a time (log 2). -/
inductive HostMove where
  | writeOffset (v : Half)
  | writeBank (v : Byte)
  | writePos (v : LinearPos)
  | writeTilein (v : Byte)
  /-- A write of CMD starts an operation (R24). -/
  | writeCmd (code : Byte)
  /-- The ROM image is supplied, or another one takes its place (70 R282, R294). -/
  | supplyRom (image : List Byte)
  | read (p : Port)
  /-- Reset (70 R280). -/
  | reset
  deriving DecidableEq, Repr

/-- The engine's working registers (10_state R32 to R34; log 15). -/
structure Work where
  op  : Byte
  tag : Byte
  cnt : Byte
  n   : BitVec 9
  idx : Int
  b1  : Byte
  b2  : Byte
  k   : BitVec 9
  deriving DecidableEq, Repr

/-- Which of OFFSET, BANK, TILEIN, POS and CMD has been written since reset, so that the spec fixes its value (93 U6), and
which results are valid, so that the host may read them (10_state R42). The host reads the five whether written or not
(R47; log 24); the marks say what such a read is worth (`readIsSpecified`). -/
structure Valid where
  offset : Bool
  bank   : Bool
  tilein : Bool
  pos    : Bool
  cmd    : Bool
  slot   : Bool
  /-- OUT, LEN and CUR. -/
  out    : Bool
  /-- WIN, VSTART and BASESEL. -/
  win    : Bool
  deriving DecidableEq, Repr

/-- The whole machine. -/
structure State where
  offset   : Half
  bank     : Byte
  pos      : LinearPos
  cmd      : Byte
  st       : Status
  err      : ErrKind
  errPos   : Int
  tilein   : Byte
  slot     : Byte
  vstart   : Half
  baseSel  : BitVec 1
  /-- CUR, the stream cursor: the program counter of the stream instructions (R30). -/
  cur      : Nat
  /-- LEN, the length of the output (R31). -/
  len      : Nat
  work     : Work
  gen      : Gen
  rom      : Memory
  /-- `ROM_SIZE`. -/
  romSize  : Nat
  out      : Memory
  tbl      : Memory
  win      : Memory
  engine   : Engine
  valid    : Valid
  params   : Params
  /-- The moves the host is still to make, the next one first. -/
  host     : List HostMove
  /-- What the last host read returned. -/
  readData : Option Int
  deriving DecidableEq, Repr

/-- Working registers after reset: DESIGN CHOICE, zeros (log 5); they are dead between operations (R41). -/
def Work.reset : Work :=
  { op := 0#8, tag := 0#8, cnt := 0#8, n := 0#9, idx := 0, b1 := 0#8, b2 := 0#8, k := 0#9 }

/-- Generator registers after reset: what the GENTBL run of reset leaves (R280; DEDUCED, log 8). -/
def Gen.reset : Gen := { ga := 0#8, gr := 0#8, gc := 0#1, gi := 8#4, gn := 256#9 }

/-- Nothing is valid or written after reset (R42, R45). -/
def Valid.reset : Valid :=
  { offset := false, bank := false, tilein := false, pos := false, cmd := false, slot := false, out := false, win := false }

/-- The machine right after reset (R45, R280): ST = IDLE, ERR = 0, TBL generated, the engine idle. Every register the
rules leave unspecified is zero (DESIGN CHOICE, log 5); no ROM has been supplied (R282; log 7). -/
def State.reset : State :=
  { offset := 0#16, bank := 0#8, pos := 0#22, cmd := 0#8
    st := .idle, err := .none, errPos := 0
    tilein := 0#8, slot := 0#8, vstart := 0#16, baseSel := 0#1
    cur := 0, len := 0, work := Work.reset, gen := Gen.reset
    rom := [], romSize := 0, out := [], tbl := Memory.ofBytes 0 Config.tblListing, win := []
    engine := .idle, valid := Valid.reset, params := Config.params, host := [], readData := none }

end Sys2Proof.Machine
end

