-- ==== Sys2Proof/Machine/Ops.lean ====
section
/-! DEFINITION. The named operations over memories and registers that every meaning goes through (spec 00_scope R12, R13),
taking an error (60 R250) and ending an operation (60 R252, R253). -/

namespace Sys2Proof.Machine

/-! ### Codes of the status registers -/

/-- The 2-bit code of ST (10_state R25). -/
def Status.code : Status → BitVec 2
  | .idle => 0#2
  | .done => 1#2
  | .fault => 2#2

/-- The 3-bit code of ERR (60 R241). -/
def ErrKind.code : ErrKind → BitVec 3
  | .none => 0#3
  | .outOfRange => 1#3
  | .truncatedStream => 2#3
  | .unknownLevelIndex => 3#3
  | .emptyInput => 4#3
  | .outputOverflow => 5#3
  | .windowOverflow => 6#3

/-! ### Taking an error, and the ends of an operation -/

/-- Validity of results while and after an operation of this kind did not end DONE: OUT, LEN and CUR are not valid, and
for COMPOSE neither are WIN, VSTART, BASESEL (10_state R41, R42). -/
def Valid.withoutResults (v : Valid) : Engine → Valid
  | .compose => { v with out := false, win := false }
  | .decomp | .idle => { v with out := false }

/-- `raise E(info)` (60 R250): the operation stops, `ST <- FAULT`, `ERR <- E`, `ERRPOS <- info`, what the operation would
have produced is not valid; TBL and the registers the host wrote keep their values. -/
def raise (e : ErrKind) (info : Int) (s : State) : State :=
  { s with st := .fault, err := e, errPos := info, valid := s.valid.withoutResults s.engine, engine := .idle }

/-- The normal end of an operation: `ST <- DONE`, `ERR <- 0` (60 R252). There is no return from an error: the next
operation starts from scratch (60 R253). -/
def done (s : State) : State := { s with st := .done, err := .none, engine := .idle }

/-- What part of an instruction leads to: it goes on, or an access raised and nothing after it happens (60 R248). -/
inductive Flow where
  | ok (s : State)
  | trap (e : ErrKind) (info : Int) (s : State)
  deriving DecidableEq, Repr

/-- One part after another; a raise ends the sequence (60 R248). -/
def Flow.bind : Flow → (State → Flow) → Flow
  | .ok s, g => g s
  | .trap e info s, _ => .trap e info s

/-- The outcome of an instruction: an error is taken, so both ways lead to a next state (60 R250). -/
def Flow.outcome : Flow → Host.Outcome State Fault Refusal
  | .ok s => .next s
  | .trap e info s => .next (raise e info s)

/-! ### Starting a decode -/

/-- The start-position check: EmptyInput, then OutOfRange(POS) (00_scope R13). -/
def startCheck (s : State) : Flow :=
  if s.romSize = 0 then .trap .emptyInput 0 s
  else if s.romSize ≤ s.pos.toNat then .trap .outOfRange s.pos.toNat s
  else .ok s

/-- A DECOMP or COMPOSE starts: the results of its kind stop being valid (10_state R41). -/
def beginDecode (e : Engine) (s : State) : State :=
  { s with engine := e, valid := s.valid.withoutResults e }

/-- `CUR <- p ; LEN <- 0`: every decode starts with an empty buffer (42 R131, 44 R184). -/
def startAt (p : Nat) (s : State) : State := { s with cur := p, len := 0 }

/-! ### The accesses -/

/-- `OUT[LEN] <- v ; LEN <- LEN + 1` (00_scope R12). -/
def push (v : Byte) (s : State) : State := { s with out := s.out.write s.len v, len := s.len + 1 }

/-- `Emit(v)`: append one byte to OUT (00_scope R12). -/
def emit (v : Byte) (s : State) : Flow :=
  if s.params.outCap ≤ s.len then .trap .outputOverflow s.len s else .ok (push v s)

/-- `OutRead(i)`: the byte of OUT at an integer index, checked against the LEN of this moment (00_scope R12, R53). -/
def outRead (i : Int) (s : State) (k : Byte → Flow) : Flow :=
  if i < 0 ∨ (s.len : Int) ≤ i then .trap .outOfRange i s else k (s.out.read i.toNat)

/-- `TblRead(i)`: never faults (00_scope R12, R54). -/
def tblRead (i : Byte) (s : State) : Byte := s.tbl.read i.toNat

/-- `RomRead(POS)` of COMPOSE, after the start-position check (44 R181). -/
def romRead (p : Nat) (s : State) : Byte := s.rom.read p

/-- At most `n` bytes of ROM from position `p` on, ending where the ROM ends (20_memory R51): what `Fetch` can read. -/
def romBytes (s : State) : Nat → Nat → List Byte
  | _, 0 => []
  | p, n + 1 => if p < s.romSize then romRead p s :: romBytes s (p + 1) n else []

/-! ### Iterating -/

/-- Working registers set; no other register or memory. -/
def setWork (w : Work) (s : State) : State := { s with work := w }

/-- K at the start of an instruction's iterations: none done (10_state R34). -/
def startK (s : State) : State := setWork { s.work with k := 0#9 } s

/-- K counts the next iteration (10_state R34). -/
def tickK (s : State) : State := setWork { s.work with k := s.work.k + 1#9 } s

/-- The body runs `n` more times, K counting up. -/
def loopK (body : State → Flow) : Nat → State → Flow
  | 0, s => .ok s
  | n + 1, s => (body (tickK s)).bind (loopK body n)

/-- `for K in 1..N: body` (43 R151 to R158). -/
def iterate (body : State → Flow) (n : Nat) (s : State) : Flow := loopK body n (startK s)

/-- `IDX <- IDX + move` (10_state R33): no wrap at 16 bits, none below zero. -/
def moveIdx (move : Int) (s : State) : State := setWork { s.work with idx := s.work.idx + move } s

/-- `B1 <- (B1 + 1) mod 256` (43 R154). -/
def bumpB1 (s : State) : State := setWork { s.work with b1 := s.work.b1 + 1#8 } s

end Sys2Proof.Machine
end

