-- ==== Sys2Proof/Machine/Operands.lean ====
section
/-! DEFINITION. The operand forms of the stream instructions (spec 30_encoding R73 to R76, 43 R164): the opcode and count
bytes, the operand bytes taken at the cursor, and the self-copy index. Each byte taken advances CUR by one, as `Fetch`
does (00_scope R12); that the bytes are there is the decoder's finding. -/

namespace Sys2Proof.Machine

/-- `Fetch()` of a byte the decoder has found: CUR advances by 1 (00_scope R12). -/
def consume (s : State) : State := { s with cur := s.cur + 1 }

/-- OP, TAG, CNT and `N <- CNT + 1` (R74, R75). -/
def setHead (op tag cnt : Byte) (s : State) : State :=
  setWork { s.work with op := op, tag := tag, cnt := cnt, n := cnt.zeroExtend 9 + 1#9 } s

/-- Format S: `OP <- Fetch(); TAG <- OP & 0xE0; CNT <- OP & 0x1F; N <- CNT + 1` (42 R132). -/
def headS (op : Byte) (s : State) : State := setHead op (tagS op) (op &&& 0x1F#8) (consume s)

/-- Format X: as format S, then `TAG <- (OP << 3) & 0xE0; CNT <- Fetch(); N <- CNT + 1` (42 R132, R135). -/
def headX (op cnt : Byte) (s : State) : State := setHead op (tagX op) cnt (consume (consume s))

/-- Format E: `OP <- Fetch()` (42 R132). -/
def headE (s : State) : State := setWork { s.work with op := 0xFF#8 } (consume s)

/-- `B1 <- Fetch()`. -/
def takeB1 (b : Byte) (s : State) : State := setWork { s.work with b1 := b } (consume s)

/-- `B2 <- Fetch()`. -/
def takeB2 (b : Byte) (s : State) : State := setWork { s.work with b2 := b } (consume s)

/-- `IDX <- (B1 << 8) | B2` (43 R155). -/
def loadIdx (s : State) : State := setWork { s.work with idx := ((startOf s.work.b1 s.work.b2).toNat : Int) } s

/-- `ReadStart`: `B1 <- Fetch(); B2 <- Fetch(); IDX <- (B1 << 8) | B2` (43 R155). -/
def readStart (start : Half) (s : State) : State :=
  loadIdx (takeB2 (startLo start) (takeB1 (startHi start) s))

end Sys2Proof.Machine
end

