-- ==== Sys2Proof/Machine/Compose.lean ====
section
/-! DEFINITION. COMPOSE, the VRAM window composer, and TSLOT (spec 44). COMPOSE starts here, its inner decode runs one
stream instruction a step (log 1), and `finishCompose` is what happens when that decode meets END. -/

namespace Sys2Proof.Machine

/-- `VSTART <- (0x9630 - (cb << 4)) & 0xFFFF` (R182). -/
def vstartOf (cb : Byte) : Half := 0x9630#16 - (cb.zeroExtend 16 <<< 4)

/-- `pad = VSTART - base` (R185). -/
def padOf (s : State) : Nat := s.vstart.toNat - baseOf s.baseSel

/-- The window offset of a tile slot (20_memory R55). -/
def slotOffset (slot : Byte) : Nat := slot.toNat * Config.tileBytes

/-- The three fixed slots overwritten, in the order of R188: 0xFD, 0xFE, 0xFF. -/
def fixedSlots (p : Params) (win : Memory) : Memory :=
  ((win.writeList (slotOffset 0xFD#8) p.fixed7D.toList).writeList (slotOffset 0xFE#8) p.fixed7E.toList).writeList
    (slotOffset 0xFF#8) Config.fixed7F

/-- COMPOSE: the start-position check, the control byte, VSTART and BASESEL, and the start of the inner decode at
`POS + 1`, which has no check of its own (R180 to R184). -/
def execCompose (s : State) : Host.Outcome State Fault Refusal :=
  ((startCheck (beginDecode .compose s)).bind fun t =>
    let vstart := vstartOf (romRead t.pos.toNat t)
    .ok (startAt (t.pos.toNat + 1) { t with vstart := vstart, baseSel := baseSelOf vstart })).outcome

/-- The end of COMPOSE after a successful inner decode: WindowOverflow, else the fill, the fixed slots and DONE (R185 to
R189). -/
def finishCompose (s : State) : Flow :=
  if Config.winSize < padOf s + s.len then .trap .windowOverflow ((padOf s + s.len : Nat) : Int) s
  else .ok (done { s with
    win := fixedSlots s.params (s.out.padded s.len (padOf s))
    valid := { s.valid with out := true, win := true } })

/-- TSLOT: `t mod 0x80` above 0x7F, else `t + 0x80` (R192). -/
def slotOf (t : Byte) : Byte := if 0x7F < t.toNat then BitVec.ofNat 8 (t.toNat % 0x80) else t + 0x80#8

/-- TSLOT (R192); it does not read BASESEL (R193). -/
def execTslot (s : State) : Host.Outcome State Fault Refusal :=
  .next (done { s with slot := slotOf s.tilein, valid := { s.valid with slot := true } })

end Sys2Proof.Machine
end

