-- ==== Sys2Proof/Machine/Control.lean ====
section
/-! DEFINITION. DECOMP and END (spec 42), XLAT (spec 40) and GENTBL (spec 41). -/

namespace Sys2Proof.Machine

/-- `POS <- BANK * 0x4000 + (OFFSET & 0x3FFF)`, a 22-bit result (R100). -/
def linearOf (offset : Half) (bank : Byte) : LinearPos :=
  bank.zeroExtend 22 * 0x4000#22 + (offset &&& 0x3FFF#16).zeroExtend 22

/-- XLAT (R100): it does not look at `ROM_SIZE` and never faults. -/
def execXlat (s : State) : Host.Outcome State Fault Refusal :=
  .next (done { s with pos := linearOf s.offset s.bank, valid := { s.valid with pos := true } })

/-- GENTBL (R110): the loop of the generator, its bytes written to `TBL[0]` on. -/
def execGentbl (s : State) : Host.Outcome State Fault Refusal :=
  .next (done { s with tbl := s.tbl.writeList 0 s.gen.run.1, gen := s.gen.run.2 })

/-- DECOMP: the start-position check, `CUR <- POS ; LEN <- 0`, and the start of the decode loop (R130, R131). Each
stream instruction of the loop is a step of its own; END ends the operation (log 1). -/
def execDecomp (s : State) : Host.Outcome State Fault Refusal :=
  ((startCheck (beginDecode .decomp s)).bind fun t => .ok (startAt t.pos.toNat t)).outcome

/-- The end of DECOMP: the results are valid (R139). -/
def finishDecomp (s : State) : State := done { s with valid := { s.valid with out := true } }

/-- END: the return from `Decode()` (R134), into the operation whose decode this is. With no operation running there is
nothing to return to, and only the byte is consumed (log 16; no step does this). -/
def execEnd (s : State) : Host.Outcome State Fault Refusal :=
  match s.engine with
  | .idle => .next (headE s)
  | .decomp => .next (finishDecomp (headE s))
  | .compose => (finishCompose (headE s)).outcome

end Sys2Proof.Machine
end

