-- ==== Sys2Proof/Machine/Copy.lean ====
section
/-! DEFINITION. The three self-copies (spec 43 R155 to R161, R165) and their extended forms (R170 to R172). -/

namespace Sys2Proof.Machine

/-- One iteration of a self-copy: `OutRead(IDX)`, the byte mapped, `Emit`, then IDX moved (42 R133). The index is checked
at the read and nowhere else (R160). -/
def copyBody (map : State → Byte → Byte) (move : Int) (s : State) : Flow :=
  outRead s.work.idx s fun v => (emit (map s v) s).bind fun t => .ok (moveIdx move t)

/-- `ReadStart; for K in 1..N: Emit(OutRead(IDX)); IDX <- IDX + 1` (R156). -/
def copyForward (n : Nat) (start : Half) (s : State) : Flow :=
  iterate (copyBody (fun _ v => v) 1) n (readStart start s)

/-- `ReadStart; for K in 1..N: Emit(TBL[OutRead(IDX)]); IDX <- IDX + 1` (R157). -/
def copyTable (n : Nat) (start : Half) (s : State) : Flow :=
  iterate (copyBody (fun t v => tblRead v t) 1) n (readStart start s)

/-- `ReadStart; for K in 1..N: Emit(OutRead(IDX)); IDX <- IDX - 1` (R158). -/
def copyBackward (n : Nat) (start : Half) (s : State) : Flow :=
  iterate (copyBody (fun _ v => v) (-1)) n (readStart start s)

/-- FWD (R156). -/
def execFwd (c : BitVec 5) (start : Half) (s : State) : Host.Outcome State Fault Refusal :=
  (copyForward (c.toNat + 1) start (headS (Instr.fwd c start).opcode s)).outcome

/-- TBL (R157). -/
def execTbl (c : BitVec 5) (start : Half) (s : State) : Host.Outcome State Fault Refusal :=
  (copyTable (c.toNat + 1) start (headS (Instr.tbl c start).opcode s)).outcome

/-- BWD (R158). -/
def execBwd (c : BitVec 5) (start : Half) (s : State) : Host.Outcome State Fault Refusal :=
  (copyBackward (c.toNat + 1) start (headS (Instr.bwd c start).opcode s)).outcome

/-- FWDX (R170). -/
def execFwdx (x : BitVec 2) (c : Byte) (start : Half) (s : State) : Host.Outcome State Fault Refusal :=
  (copyForward (c.toNat + 1) start (headX (Instr.fwdx x c start).opcode c s)).outcome

/-- TBLX (R171). -/
def execTblx (x : BitVec 2) (c : Byte) (start : Half) (s : State) : Host.Outcome State Fault Refusal :=
  (copyTable (c.toNat + 1) start (headX (Instr.tblx x c start).opcode c s)).outcome

/-- BWDX (R172). -/
def execBwdx (x : BitVec 2) (c : Byte) (start : Half) (s : State) : Host.Outcome State Fault Refusal :=
  (copyBackward (c.toNat + 1) start (headX (Instr.bwdx x c start).opcode c s)).outcome

end Sys2Proof.Machine
end

