-- ==== Sys2Proof/Machine/Run.lean ====
section
/-! DEFINITION. The behaviours that read only ROM (spec 43 R151 to R154) and their extended forms (R166 to R169, R173). -/

namespace Sys2Proof.Machine

/-- `ExecLIT: for K in 1..N: Emit(Fetch())` (R151): each data byte is fetched and then appended, before the next is
fetched (42 R133). Where the bytes run out the `Fetch` raises TruncatedStream at CUR (00_scope R12). -/
def literalLoop : Nat → List Byte → State → Flow
  | 0, _, s => .ok s
  | _ + 1, [], s => .trap .truncatedStream s.cur s
  | n + 1, b :: data, s =>
    (emit b (consume (tickK s))).bind (literalLoop n data)

/-- `ExecLIT` with K from 0. -/
def literal (n : Nat) (data : List Byte) (s : State) : Flow :=
  literalLoop n data (startK s)

/-- `ExecRPT: B1 <- Fetch(); for K in 1..N: Emit(B1)` (R152). -/
def repeatByte (n : Nat) (b : Byte) (s : State) : Flow :=
  iterate (fun t => emit t.work.b1 t) n (takeB1 b s)

/-- `ExecPAIR: B1 <- Fetch(); B2 <- Fetch(); for K in 1..N: Emit(B1); Emit(B2)` (R153). -/
def repeatPair (n : Nat) (b1 b2 : Byte) (s : State) : Flow :=
  iterate (fun t => (emit t.work.b1 t).bind (fun u => emit u.work.b2 u)) n (takeB2 b2 (takeB1 b1 s))

/-- `ExecINC: B1 <- Fetch(); for K in 1..N: Emit(B1); B1 <- (B1 + 1) mod 256` (R154). -/
def countUp (n : Nat) (seed : Byte) (s : State) : Flow :=
  iterate (fun t => (emit t.work.b1 t).bind (fun u => .ok (bumpB1 u))) n (takeB1 seed s)

/-- LIT (R151). -/
def execLit (c : BitVec 5) (data : List Byte) (s : State) : Host.Outcome State Fault Refusal :=
  (literal (c.toNat + 1) data (headS (Instr.lit c data).opcode s)).outcome

/-- RPT (R152). -/
def execRpt (c : BitVec 5) (b : Byte) (s : State) : Host.Outcome State Fault Refusal :=
  (repeatByte (c.toNat + 1) b (headS (Instr.rpt c b).opcode s)).outcome

/-- PAIR (R153). -/
def execPair (c : BitVec 5) (b1 b2 : Byte) (s : State) : Host.Outcome State Fault Refusal :=
  (repeatPair (c.toNat + 1) b1 b2 (headS (Instr.pair c b1 b2).opcode s)).outcome

/-- INC (R154). -/
def execInc (c : BitVec 5) (seed : Byte) (s : State) : Host.Outcome State Fault Refusal :=
  (countUp (c.toNat + 1) seed (headS (Instr.inc c seed).opcode s)).outcome

/-- LITX (R166). -/
def execLitx (x : BitVec 2) (c : Byte) (data : List Byte) (s : State) : Host.Outcome State Fault Refusal :=
  (literal (c.toNat + 1) data (headX (Instr.litx x c data).opcode c s)).outcome

/-- RPTX (R167). -/
def execRptx (x : BitVec 2) (c : Byte) (b : Byte) (s : State) : Host.Outcome State Fault Refusal :=
  (repeatByte (c.toNat + 1) b (headX (Instr.rptx x c b).opcode c s)).outcome

/-- PAIRX (R168). -/
def execPairx (x : BitVec 2) (c : Byte) (b1 b2 : Byte) (s : State) : Host.Outcome State Fault Refusal :=
  (repeatPair (c.toNat + 1) b1 b2 (headX (Instr.pairx x c b1 b2).opcode c s)).outcome

/-- INCX (R169). -/
def execIncx (x : BitVec 2) (c : Byte) (seed : Byte) (s : State) : Host.Outcome State Fault Refusal :=
  (countUp (c.toNat + 1) seed (headX (Instr.incx x c seed).opcode c s)).outcome

/-- LITX.D, bytes 0xFC and 0xFD (R173). -/
def execLitxD (x : BitVec 1) (c : Byte) (data : List Byte) (s : State) : Host.Outcome State Fault Refusal :=
  (literal (c.toNat + 1) data (headX (Instr.litxD x c data).opcode c s)).outcome

/-- LITX.D, byte 0xFE (R173). -/
def execLitxDFE (c : Byte) (data : List Byte) (s : State) : Host.Outcome State Fault Refusal :=
  (literal (c.toNat + 1) data (headX (Instr.litxDFE c data).opcode c s)).outcome

end Sys2Proof.Machine
end

