-- ==== Sys2Proof/Machine/Dispatch.lean ====
section
/-! DEFINITION. The meaning of every instruction: one arm per constructor of `Instr`, each one call. -/

namespace Sys2Proof.Machine

def exec (i : Instr) (s : State) : Host.Outcome State Fault Refusal :=
  match i with
  | .lit c data => Sys2Proof.Machine.execLit c data s
  | .rpt c b => Sys2Proof.Machine.execRpt c b s
  | .pair c b1 b2 => Sys2Proof.Machine.execPair c b1 b2 s
  | .inc c seed => Sys2Proof.Machine.execInc c seed s
  | .fwd c start => Sys2Proof.Machine.execFwd c start s
  | .tbl c start => Sys2Proof.Machine.execTbl c start s
  | .bwd c start => Sys2Proof.Machine.execBwd c start s
  | .litx x c data => Sys2Proof.Machine.execLitx x c data s
  | .rptx x c b => Sys2Proof.Machine.execRptx x c b s
  | .pairx x c b1 b2 => Sys2Proof.Machine.execPairx x c b1 b2 s
  | .incx x c seed => Sys2Proof.Machine.execIncx x c seed s
  | .fwdx x c start => Sys2Proof.Machine.execFwdx x c start s
  | .tblx x c start => Sys2Proof.Machine.execTblx x c start s
  | .bwdx x c start => Sys2Proof.Machine.execBwdx x c start s
  | .litxD x c data => Sys2Proof.Machine.execLitxD x c data s
  | .litxDFE c data => Sys2Proof.Machine.execLitxDFE c data s
  | .endStream => Sys2Proof.Machine.execEnd s
  | .xlat => Sys2Proof.Machine.execXlat s
  | .gentbl => Sys2Proof.Machine.execGentbl s
  | .decomp => Sys2Proof.Machine.execDecomp s
  | .compose => Sys2Proof.Machine.execCompose s
  | .tslot => Sys2Proof.Machine.execTslot s

end Sys2Proof.Machine
end

