-- ==== Sys2Proof/Machine/Fetch.lean ====
section
/-! DEFINITION. Fetching: one turn of the decode loop (spec 42 R132), and the moves of the host with its reads (spec
10_state R24, R42, R47; 70 R280, R282). -/

namespace Sys2Proof.Machine

/-! ### The decode loop -/

/-- The bytes `Fetch` can still read, up to the longest instruction. -/
def streamWindow (s : State) : List Byte := romBytes s s.cur maxLength

/-- A `Fetch` that finds no byte (00_scope R12): CUR stands past the bytes that were there, and TruncatedStream(CUR) is
raised. -/
def truncated (s : State) : Host.Outcome State Fault Refusal :=
  let t := { s with cur := s.cur + (streamWindow s).length }
  .next (raise .truncatedStream (t.cur : Int) t)

/-- One stream instruction: fetch and decode at CUR, then its meaning (42 R132). A literal copy whose data bytes run out
is executed as far as they go, since its appends come between its fetches (42 R133); every other instruction fetches all
its bytes before it does anything. -/
def streamStep (s : State) : Host.Outcome State Fault Refusal :=
  match decode .stream (streamWindow s) with
  | .ok (i, _) => exec i s
  | .error (.cutLiteral i) => exec i s
  | .error .noOpcode => truncated s
  | .error .noCount => truncated s
  | .error .noOperand => truncated s
  | .error (.reservedCommand code) => .refused (.reservedCommand code)

/-! ### What the host reads -/

/-- The answer of a host read. -/
inductive ReadResult where
  | value (v : Int)
  | fault (r : Fault)
  | refused (r : Refusal)
  deriving DecidableEq, Repr

/-- A result, readable while it is valid. The stop is the spec's: "a host read of an invalid result returns an unspecified
value, which a model treats as a fault or a refusal, never as a value" (10_state R42; 92 D25; 93 U5). -/
def readValid (valid : Bool) (p : Port) (v : Nat) : ReadResult :=
  if valid then .value v else .refused (.invalidResult p)

/-- A host read (10_state R47). It has no side effect on the block (20_memory R58). OFFSET, BANK, TILEIN, POS and CMD are
read at any time, "yes" without a condition; before anything has written one, what is read is the value State.reset gives
it (log 5, log 24: DESIGN CHOICE, unsafe). SLOT, VSTART, BASESEL, CUR and LEN are read "yes, valid per rule R42", OUT below
LEN "after a DECOMP or COMPOSE ended `DONE`" and WIN "after a COMPOSE ended `DONE`"; ERRPOS is "Valid only when `ST =
FAULT`" (R27), else "not valid, rule R42" (R45). -/
def hostRead (p : Port) (s : State) : ReadResult :=
  match p with
  | .offset => .value s.offset.toNat
  | .bank => .value s.bank.toNat
  | .tilein => .value s.tilein.toNat
  | .pos => .value s.pos.toNat
  | .cmd => .value s.cmd.toNat
  | .st => .value s.st.code.toNat
  | .err => .value s.err.code.toNat
  | .errPos => if s.st = .fault then .value s.errPos else .refused (.invalidResult p)
  | .slot => readValid s.valid.slot p s.slot.toNat
  | .vstart => readValid s.valid.win p s.vstart.toNat
  | .baseSel => readValid s.valid.win p s.baseSel.toNat
  | .cur => readValid s.valid.out p s.cur
  | .len => readValid s.valid.out p s.len
  | .out i =>
    if s.params.outCap ≤ i then .fault (.absentAddress p)
    else readValid (s.valid.out && decide (i < s.len)) p (s.out.read i).toNat
  | .tbl i => .value (tblRead i s).toNat
  | .win i =>
    if Config.winSize ≤ i then .fault (.absentAddress p)
    else readValid s.valid.win p (s.win.read i).toNat

/-- The answers of several reads, in order; the first that gives no value is the answer of all. -/
def hostReads (s : State) : List Port → Except ReadResult (List Int)
  | [] => .ok []
  | p :: ps =>
    match hostRead p s with
    | .value v =>
      match hostReads s ps with
      | .ok vs => .ok (v :: vs)
      | .error r => .error r
    | .fault r => .error (.fault r)
    | .refused r => .error (.refused r)

/-- The tile read: the 16 bytes `WIN[16 * SLOT .. 16 * SLOT + 15]` through the read port (44 R195). Of a SLOT that no TSLOT
has written since reset it uses the value State.reset gives, without asking whether it is valid: R195 asks only for a
COMPOSE that ended DONE (log 23, DESIGN CHOICE, unsafe). -/
def tileRead (s : State) : Except ReadResult (List Int) :=
  hostReads s ((List.range Config.tileBytes).map (fun j => Port.win (slotOffset s.slot + j)))

/-! ### The moves of the host -/

/-- Reset (70 R280): a running operation stops, and the machine is as after reset; the parameters, the ROM image and the
moves still to come belong to the host and stay (log 4). -/
def resetBlock (s : State) : State :=
  { State.reset with params := s.params, rom := s.rom, romSize := s.romSize, host := s.host }

/-- One move of the host, made between operations (10_state R47). A write of CMD runs the operation of its code, or is
refused where the code is reserved (R24). -/
def hostStep (m : HostMove) (s : State) : Host.Outcome State Fault Refusal :=
  match m with
  | .writeOffset v => .next { s with offset := v, valid := { s.valid with offset := true } }
  | .writeBank v => .next { s with bank := v, valid := { s.valid with bank := true } }
  | .writePos v => .next { s with pos := v, valid := { s.valid with pos := true } }
  | .writeTilein v => .next { s with tilein := v, valid := { s.valid with tilein := true } }
  | .writeCmd code =>
    match decode .host [code] with
    | .ok (i, _) => exec i { s with cmd := code, valid := { s.valid with cmd := true } }
    | .error _ => .refused (.reservedCommand code)
  | .supplyRom image => .next { s with rom := Memory.ofBytes 0 image, romSize := image.length }
  | .read p =>
    match hostRead p s with
    | .value v => .next { s with readData := some v }
    | .fault r => .fault r
    | .refused r => .refused r
  | .reset => .next (resetBlock s)

/-- Whether the host's next move is a reset. -/
def resetNext (s : State) : Bool :=
  match s.host with
  | .reset :: _ => true
  | _ => false

/-- The host's next move is made; with no move to make the idle block stays as it is (10_state R45: "the engine is
idle after reset and runs only on a `CMD` write"; log 2). -/
def hostTurn (s : State) : Host.Outcome State Fault Refusal :=
  match s.host with
  | [] => .next s
  | m :: rest => hostStep m { s with host := rest }

/-- One step: a reset at any time (70 R280); else, inside a decode, the next stream instruction; else the host's next
move (00_scope R9). -/
def stepBody (s : State) : Host.Outcome State Fault Refusal :=
  if resetNext s then hostTurn s
  else
    match s.engine with
    | .idle => hostTurn s
    | .decomp => streamStep s
    | .compose => streamStep s

/-! ### Placing one instruction, for the host's questions -/

/-- A stream instruction's bytes in ROM at CUR, and the engine inside a decode (log 3). -/
def placeStream (bytes : List Byte) (s : State) : State :=
  { s with
    rom := s.rom.writeList s.cur bytes
    romSize := max s.romSize (s.cur + bytes.length)
    engine := match s.engine with
      | .compose => .compose
      | .decomp | .idle => .decomp
    valid := { s.valid with out := false }
    host := s.host.dropWhile (fun m => decide (m = .reset)) }

/-- A command code as the host's next move, and the engine idle (log 3). -/
def placeCommand (code : Byte) (s : State) : State :=
  { s with engine := .idle, host := .writeCmd code :: s.host }

end Sys2Proof.Machine
end

