-- ==== Sys2Proof/Machine/Step.lean ====
section
/-! DEFINITION. The step function, and the state in which the next step runs a given instruction. -/

namespace Sys2Proof.Machine

/-- One step of the machine (spec 00_scope R9, 42 R132, 10_state R24). -/
def step (s : State) : Host.Outcome State Fault Refusal := stepBody s

/-- `s` with the instruction of a table word placed where the next step takes its instruction from: a stream
instruction in ROM at CUR inside a decode, a host operation as the host's next write of CMD (log 3, log 11). -/
def State.withFetchWord (s : State) (nbits w : Nat) : State :=
  match tableSpace nbits w with
  | .host => placeCommand (BitVec.ofNat 8 w) s
  | .stream => placeStream (tableBytes nbits w) s

end Sys2Proof.Machine
end

