-- ==== Sys2Proof/Safety.lean ====
section
/-! DEFINITION. The terms the claims use: what an instruction appends and leaves alone, the invariant of the machine, what
a run may depend on, the opcode map as spec 30 R78 lists it, and the decoder as the software of the source has it, over a
growable buffer and one byte at a time (00_scope R12; 42 R132, R133; 43 R151 to R158), to compare the machine with. -/

namespace Sys2Proof.Machine

/-! ### Frames -/

/-- The bytes `bs` were appended to OUT at LEN, and every other byte of OUT reads as before (20_memory R53). -/
def Appended (s t : State) (bs : List Byte) : Prop :=
  t.len = s.len + bs.length ∧
  (∀ (j : Nat) (h : j < bs.length), t.out.read (s.len + j) = bs[j]) ∧
  (∀ a, a < s.len ∨ s.len + bs.length ≤ a → t.out.read a = s.out.read a)

/-- Nothing but CUR, LEN, OUT and the working registers differs (20_memory R66, 43 R150). -/
def OnlyStreamFields (s t : State) : Prop :=
  t = { s with cur := t.cur, len := t.len, out := t.out, work := t.work }

/-- OP, TAG, CNT and N as the fetch of an instruction leaves them: `N = CNT + 1` (10_state R32, 30 R74). -/
def headWork (w : Work) (op tag cnt : Nat) : Work :=
  { w with op := BitVec.ofNat 8 op, tag := BitVec.ofNat 8 tag, cnt := BitVec.ofNat 8 cnt, n := BitVec.ofNat 9 (cnt + 1) }

/-- The machine stands in this error: ST, ERR, ERRPOS; no operation runs and no OUT, LEN or CUR is valid (60 R250). -/
def InError (t : State) (e : ErrKind) (info : Int) : Prop :=
  t.st = .fault ∧ t.err = e ∧ t.errPos = info ∧ t.engine = .idle ∧ t.valid.out = false

/-- After an error of an instruction: CUR, LEN, OUT and the working registers hold whatever they hold, and else only ST,
ERR, ERRPOS, the validity of results and the engine differ; the registers the host wrote, TBL, WIN and ROM do not
(60 R250). -/
def OnlyErrorFields (s t : State) : Prop :=
  t = { s with cur := t.cur, len := t.len, out := t.out, work := t.work, st := t.st, err := t.err, errPos := t.errPos,
               engine := t.engine, valid := { s.valid with out := t.valid.out, win := t.valid.win } }

/-- How many bytes a stream instruction appends: `n`, for a pair `2n`, for END none (43 R163). -/
def produced : Instr → Nat
  | .pair c _ _ => 2 * (c.toNat + 1)
  | .pairx _ c _ _ => 2 * (c.toNat + 1)
  | i => i.count

/-- The data bytes of a literal copy (43 R151, R166, R173). -/
def literalData : Instr → Option (List Byte)
  | .lit _ data | .litx _ _ data | .litxD _ _ data | .litxDFE _ data => some data
  | _ => none

/-- A self-copy's reads stay inside OUT until OUT is full: a forward start lies below LEN (43 R159), a backward copy has
enough bytes below it to fill the rest of OUT (43 R158). Nothing is asked of the other instructions. -/
def ReadsStayInside (s : State) : Instr → Prop
  | .fwd _ start | .tbl _ start | .fwdx _ _ start | .tblx _ _ start => start.toNat < s.len
  | .bwd _ start | .bwdx _ _ start => start.toNat < s.len ∧ s.params.outCap - s.len ≤ start.toNat
  | _ => True

/-! ### What a host read is worth -/

/-- The spec fixes what a host read of this port gives, where it gives a value at all: OFFSET, BANK, TILEIN, POS and CMD
must have been written since reset, before that "any value" stands there (93 U6) and the model reads its own reset value
(log 5, log 24). A claim about the value of an unspecified read rests on the model's choice. -/
def readIsSpecified (p : Port) (s : State) : Bool :=
  match p with
  | .offset => s.valid.offset
  | .bank => s.valid.bank
  | .tilein => s.valid.tilein
  | .pos => s.valid.pos
  | .cmd => s.valid.cmd
  | .st | .err | .errPos | .slot | .vstart | .baseSel | .cur | .len | .out _ | .tbl _ | .win _ => true

/-! ### The invariant -/

/-- What every step keeps: memories canonical and inside their spaces, TBL the constant of R118, LEN within OUT_CAP, ERR
set exactly when ST is FAULT and never UnknownLevelIndex, a running decode with its cursor in the ROM and no valid
result, and BASESEL the one of VSTART from the start of a COMPOSE on. -/
structure Inv (s : State) : Prop where
  rom_wf : s.rom.wf
  rom_in : s.rom.within s.romSize
  out_wf : s.out.wf
  out_in : s.out.within s.params.outCap
  tbl_eq : s.tbl = Memory.ofBytes 0 Config.tblListing
  win_wf : s.win.wf
  win_in : s.win.within Config.winSize
  len_le : s.len ≤ s.params.outCap
  err_st : s.err = .none ↔ s.st ≠ .fault
  err_ok : s.err ≠ .unknownLevelIndex
  cur_le : s.engine ≠ .idle → s.cur ≤ s.romSize
  no_out : s.engine ≠ .idle → s.valid.out = false
  no_win : s.engine = .compose → s.valid.win = false
  window : s.engine = .compose ∨ s.valid.win = true →
    s.baseSel = baseSelOf s.vstart ∧ 0x8640 ≤ s.vstart.toNat ∧ s.vstart.toNat ≤ 0x9630 ∧ s.vstart.toNat % 16 = 0

/-- A running decode goes on, or has ended DONE, or has ended in an error (70 R284). -/
def DecodeEnded (t : State) : Prop := t.engine = .idle ∧ (t.st = .done ∨ t.st = .fault)

/-! ### What a decode depends on -/

/-- Two machines inside a decode that agree on everything the decode may depend on: the ROM and the parameters, TBL,
where the decode stands, and what it has appended; nothing is said of the rest (42 R142, 10_state R41). -/
def SameDecode (s t : State) : Prop :=
  s.engine = t.engine ∧ s.cur = t.cur ∧ s.len = t.len ∧ s.rom = t.rom ∧ s.romSize = t.romSize ∧ s.tbl = t.tbl ∧
  s.params = t.params ∧ (s.engine = .compose → s.vstart = t.vstart ∧ s.baseSel = t.baseSel) ∧
  ∀ a, a < s.len → s.out.read a = t.out.read a

/-- Two machines whose decode has ended with the same outcome: the same error with the same position, or DONE with the
same results, the window included where one was composed. -/
def SameResult (wasCompose : Bool) (s t : State) : Prop :=
  s.engine = .idle ∧ t.engine = .idle ∧ s.st = t.st ∧ s.err = t.err ∧ (s.st = .fault → s.errPos = t.errPos) ∧
  (s.st = .done → s.cur = t.cur ∧ s.len = t.len ∧ (∀ a, a < s.len → s.out.read a = t.out.read a) ∧
    (wasCompose = true → s.vstart = t.vstart ∧ s.baseSel = t.baseSel ∧ ∀ a, a < Config.winSize → s.win.read a = t.win.read a))

/-! ### The opcode map -/

/-- The mnemonic of an instruction's row in spec/opcode_table.json. -/
def mnemonic : Instr → String
  | .lit _ _ => "LIT" | .rpt _ _ => "RPT" | .pair _ _ _ => "PAIR" | .inc _ _ => "INC"
  | .fwd _ _ => "FWD" | .tbl _ _ => "TBL" | .bwd _ _ => "BWD"
  | .litx _ _ _ => "LITX" | .rptx _ _ _ => "RPTX" | .pairx _ _ _ _ => "PAIRX" | .incx _ _ _ => "INCX"
  | .fwdx _ _ _ => "FWDX" | .tblx _ _ _ => "TBLX" | .bwdx _ _ _ => "BWDX"
  | .litxD _ _ _ => "LITX.D" | .litxDFE _ _ => "LITX.D" | .endStream => "END"
  | .xlat => "XLAT" | .gentbl => "GENTBL" | .decomp => "DECOMP" | .compose => "COMPOSE" | .tslot => "TSLOT"

/-- The row an opcode byte selects, by the ranges of R78 (LITX on bytes 0xFC to 0xFE is the table's LITX.D, R89). -/
def rowOf (op : Byte) : String :=
  let b := op.toNat
  if b ≤ 0x1F then "LIT" else if b ≤ 0x3F then "RPT" else if b ≤ 0x5F then "PAIR" else if b ≤ 0x7F then "INC"
  else if b ≤ 0x9F then "FWD" else if b ≤ 0xBF then "TBL" else if b ≤ 0xDF then "BWD"
  else if b ≤ 0xE3 then "LITX" else if b ≤ 0xE7 then "RPTX" else if b ≤ 0xEB then "PAIRX" else if b ≤ 0xEF then "INCX"
  else if b ≤ 0xF3 then "FWDX" else if b ≤ 0xF7 then "TBLX" else if b ≤ 0xFB then "BWDX"
  else if b ≤ 0xFE then "LITX.D" else "END"

/-! ### The decoder of the source's software -/

/-- The cursor and the DecompressedBuffer of one decode: "a growable ordered sequence of bytes" (00_scope R14). -/
structure Soft where
  cur : Nat
  buf : List Byte
  deriving DecidableEq, Repr

/-- A raised error: its kind and its position. -/
abbrev SoftError := ErrKind × Int

/-- `Fetch()` (R12). -/
def Soft.fetch (rom : List Byte) (s : Soft) : Except SoftError (Byte × Soft) :=
  match rom[s.cur]? with
  | some b => .ok (b, { s with cur := s.cur + 1 })
  | none => .error (.truncatedStream, s.cur)

/-- `Emit(v)` (R12) with the capacity `cap`. -/
def Soft.emit (cap : Nat) (v : Byte) (s : Soft) : Except SoftError Soft :=
  if s.buf.length < cap then .ok { s with buf := s.buf ++ [v] } else .error (.outputOverflow, s.buf.length)

/-- `OutRead(i)` (R12). -/
def Soft.read (i : Int) (s : Soft) : Except SoftError Byte :=
  if i < 0 then .error (.outOfRange, i)
  else
    match s.buf[i.toNat]? with
    | some b => .ok b
    | none => .error (.outOfRange, i)

/-- `ExecLIT` (R151). -/
def Soft.lit (rom : List Byte) (cap : Nat) : Nat → Soft → Except SoftError Soft
  | 0, s => .ok s
  | n + 1, s => do
    let (b, s) ← s.fetch rom
    let s ← s.emit cap b
    Soft.lit rom cap n s

/-- The iterations of `ExecRPT` (R152). -/
def Soft.rpt (cap : Nat) (b : Byte) : Nat → Soft → Except SoftError Soft
  | 0, s => .ok s
  | n + 1, s => do
    let s ← s.emit cap b
    Soft.rpt cap b n s

/-- The iterations of `ExecPAIR` (R153). -/
def Soft.pair (cap : Nat) (b1 b2 : Byte) : Nat → Soft → Except SoftError Soft
  | 0, s => .ok s
  | n + 1, s => do
    let s ← s.emit cap b1
    let s ← s.emit cap b2
    Soft.pair cap b1 b2 n s

/-- The iterations of `ExecINC` (R154). -/
def Soft.inc (cap : Nat) : Byte → Nat → Soft → Except SoftError Soft
  | _, 0, s => .ok s
  | b, n + 1, s => do
    let s ← s.emit cap b
    Soft.inc cap (b + 1#8) n s

/-- The iterations of `ExecFWD`, `ExecTBL` and `ExecBWD` (R156 to R158): the byte read is mapped, the index moved. -/
def Soft.copy (cap : Nat) (map : Byte → Byte) (move : Int) : Int → Nat → Soft → Except SoftError Soft
  | _, 0, s => .ok s
  | i, n + 1, s => do
    let b ← s.read i
    let s ← s.emit cap (map b)
    Soft.copy cap map move (i + move) n s

/-- `ReadStart` (R155). -/
def Soft.readStart (rom : List Byte) (s : Soft) : Except SoftError (Int × Soft) := do
  let (hi, s) ← s.fetch rom
  let (lo, s) ← s.fetch rom
  .ok (((hi.toNat * 256 + lo.toNat : Nat) : Int), s)

/-- The behaviour a tag selects, with count `n` (R132, R136); the table of TBL is bit reversal (41 R117). -/
def Soft.behave (rom : List Byte) (cap : Nat) (tag n : Nat) (s : Soft) : Except SoftError Soft :=
  if tag = 0x20 then do
    let (b, s) ← s.fetch rom
    Soft.rpt cap b n s
  else if tag = 0x40 then do
    let (b1, s) ← s.fetch rom
    let (b2, s) ← s.fetch rom
    Soft.pair cap b1 b2 n s
  else if tag = 0x60 then do
    let (b, s) ← s.fetch rom
    Soft.inc cap b n s
  else if tag = 0x80 then do
    let (i, s) ← s.readStart rom
    Soft.copy cap (fun b => b) 1 i n s
  else if tag = 0xA0 then do
    let (i, s) ← s.readStart rom
    Soft.copy cap (fun b => b.reverse) 1 i n s
  else if tag = 0xC0 then do
    let (i, s) ← s.readStart rom
    Soft.copy cap (fun b => b) (-1) i n s
  else Soft.lit rom cap n s

/-- One turn of the loop of R132; the Boolean says that it was END. -/
def Soft.turn (rom : List Byte) (cap : Nat) (s : Soft) : Except SoftError (Bool × Soft) := do
  let (op, s) ← s.fetch rom
  if op.toNat = 0xFF then .ok (true, s)
  else if op.toNat / 32 = 7 then do
    let (cnt, s) ← s.fetch rom
    let s ← s.behave rom cap (op.toNat / 4 % 8 * 32) (cnt.toNat + 1)
    .ok (false, s)
  else do
    let s ← s.behave rom cap (op.toNat / 32 * 32) (op.toNat % 32 + 1)
    .ok (false, s)

/-- The loop of R132 with a bound on its turns (R138); past the bound it answers an error no turn raises. -/
def Soft.loop (rom : List Byte) (cap : Nat) : Nat → Soft → Except SoftError Soft
  | 0, _ => .error (.unknownLevelIndex, 0)
  | fuel + 1, s => do
    let (fin, s) ← s.turn rom cap
    if fin then .ok s else Soft.loop rom cap fuel s

/-- The start-position check (R13), then `body`. -/
def Soft.checked {α : Type} (rom : List Byte) (pos : Nat) (body : Except SoftError α) : Except SoftError α :=
  if rom.length = 0 then .error (.emptyInput, 0)
  else if rom.length ≤ pos then .error (.outOfRange, pos)
  else body

/-- DECOMP of the source's software (R130). -/
def Soft.decomp (rom : List Byte) (cap pos : Nat) : Except SoftError Soft :=
  Soft.checked rom pos (Soft.loop rom cap (rom.length + 1) { cur := pos, buf := [] })

/-- The window of R187, R188 as a list of 0x1800 bytes. -/
def Soft.window (fixed7D fixed7E : List Byte) (pad : Nat) (buf : List Byte) : List Byte :=
  let fill := List.replicate pad 0#8 ++ buf ++ List.replicate (Config.winSize - (pad + buf.length)) 0#8
  fill.take 0xFD0 ++ fixed7D ++ fixed7E ++ List.replicate 16 0#8 ++ fill.drop 0x1000

/-- What COMPOSE delivers: the end of its decode, VSTART, the base, the window. -/
structure SoftWindow where
  soft : Soft
  vstart : Nat
  base : Nat
  win : List Byte
  deriving DecidableEq, Repr

/-- COMPOSE of the source's software (R180). -/
def Soft.compose (rom fixed7D fixed7E : List Byte) (cap pos : Nat) : Except SoftError SoftWindow :=
  Soft.checked rom pos do
    let cb := (rom[pos]?.getD 0#8).toNat
    let vstart := 0x9630 - cb * 16
    let base := if vstart < 0x8800 then 0x8000 else 0x8800
    let pad := vstart - base
    let s ← Soft.loop rom cap (rom.length + 1) { cur := pos + 1, buf := [] }
    if Config.winSize < pad + s.buf.length then .error (.windowOverflow, ((pad + s.buf.length : Nat) : Int))
    else .ok { soft := s, vstart := vstart, base := base, win := Soft.window fixed7D fixed7E pad s.buf }

end Sys2Proof.Machine
end

