-- ==== Sys2Proof/Certificates/Slice0/Obligations.lean ====
section
/-! DEFINITION. The statements for the provers, each a rule of spec/ or what follows from several. In the statements of
stream instructions `n` is `count_minus_one + 1` (30 R74), the opcode bytes are written as the numbers of R78, and
addresses stored to are `s.len + j`, the LEN at entry and up (00_scope R12 `Emit`). A statement that reads OUT after it
was written assumes the canonical form of OUT, which `InvariantKeptByEveryStep` shows every step keeps. -/

open Sys2Proof Sys2Proof.Machine

/-! ### Encoding -/

/-- Decoding the bytes of a well-formed instruction, whatever follows them, gives it back with the rest (30 R70 to R77,
R88): no bit of an encoding is dropped. -/
def Obligations.EncodeThenDecode : Prop :=
  ∀ (i : Instr) (rest : List Byte), i.wellFormed = true → decode i.space (encode i ++ rest) = .ok (i, rest)

/-- What the decoder reads is well formed, of the level read, and encodes to the very bytes read (30 R70 to R77, R88). That
bytes of format X come back whole is the model's choice: it keeps the ignored bits 1:0 of the opcode byte in the
instruction (log 18). -/
def Obligations.DecodeThenEncode : Prop :=
  ∀ (sp : Space) (bytes : List Byte) (i : Instr) (rest : List Byte), decode sp bytes = .ok (i, rest) →
    i.wellFormed = true ∧ i.space = sp ∧ encode i ++ rest = bytes

/-- The opcode map of 30 R78: with enough bytes after it, every opcode byte is the opcode of one instruction, and that is
the one whose row the byte selects; no opcode byte is illegal (R79). That the instruction gives its very opcode byte back,
for 0xE0 to 0xFB, is the model's choice: it keeps the ignored bits 1:0 in the instruction (log 18). -/
def Obligations.EveryOpcodeByteSelectsItsRow : Prop :=
  ∀ (op : Byte) (tail : List Byte), 257 ≤ tail.length →
    ∃ i rest, decode .stream (op :: tail) = .ok (i, rest) ∧ i.opcode = op ∧ mnemonic i = rowOf op

/-- The length table of 30 R77, with `n = C + 1` (R74), and one byte for a host command (R88): the decoder takes exactly the
bytes the table gives the instruction it reads. -/
def Obligations.DecoderTakesTheTableLength : Prop :=
  ∀ (sp : Space) (bytes : List Byte) (i : Instr) (rest : List Byte), decode sp bytes = .ok (i, rest) →
    bytes.length = i.length + rest.length

/-- A few words written out from the spec's encodings (95 S3 to S8, 2.4, 2.8). -/
def Obligations.SampleWordsDecode : Prop :=
  decode .stream [0x03#8, 0x11#8, 0x22#8, 0x33#8, 0x44#8, 0xFF#8] = .ok (.lit 3#5 [0x11#8, 0x22#8, 0x33#8, 0x44#8], [0xFF#8]) ∧
  decode .stream [0x83#8, 0x01#8, 0x02#8] = .ok (.fwd 3#5 0x0102#16, []) ∧
  decode .stream [0xE5#8, 0x01#8, 0x77#8, 0xFF#8] = .ok (.rptx 1#2 0x01#8 0x77#8, [0xFF#8]) ∧
  decode .stream [0xFE#8, 0x00#8, 0x99#8] = .ok (.litxDFE 0x00#8 [0x99#8], []) ∧
  decode .stream [0xFF#8, 0x00#8] = .ok (.endStream, [0x00#8]) ∧
  decode .host [0x04#8] = .ok (.compose, []) ∧
  decode .host [0x06#8] = .error (.reservedCommand 0x06#8)

/-! ### The step -/

/-- Inside a decode, with no reset due, a step is the meaning of the instruction the bytes at CUR decode to: `exec`
moves CUR past the instruction's bytes itself, and the step adds nothing around it (42 R132). One stream instruction
to a step (00_scope R9 allows it) and reset as a move of the host are the model's choices (log 1, log 4). -/
def Obligations.StepRunsTheDecodedStreamInstruction : Prop :=
  ∀ (s : State) (i : Instr) (rest : List Byte), s.engine ≠ .idle → resetNext s = false →
    decode .stream (romBytes s s.cur maxLength) = .ok (i, rest) → step s = exec i s

/-- With no operation running, a write of CMD as the host's next move leaves the code in CMD and runs the operation of
that code, by the table of 30 R88; a reserved code is refused (10_state R24, 93 U9). The list of the host's moves is
the model's (log 2). -/
def Obligations.StepRunsTheCommandOrRefusesIt : Prop :=
  ∀ (s : State) (code : Byte) (moves : List HostMove), s.engine = .idle → s.host = .writeCmd code :: moves →
    let t := { s with host := moves, cmd := code, valid := { s.valid with cmd := true } }
    step s = if code = 0x01#8 then exec .xlat t
      else if code = 0x02#8 then exec .gentbl t
      else if code = 0x03#8 then exec .decomp t
      else if code = 0x04#8 then exec .compose t
      else if code = 0x05#8 then exec .tslot t
      else .refused (.reservedCommand code)

/-- Host writes of OFFSET, BANK, POS and TILEIN between operations store the value written, and the supply of a ROM
image fixes ROM and ROM_SIZE; nothing else of the block changes but what is marked as written (10_state R47, 70 R282).
With no move to make, the idle block stays as it is (10_state R24 "the write is the only way an operation starts", R45).
The list of moves, the step that makes none, and the marks are the model's (log 2, log 9). -/
def Obligations.HostWritesStoreTheirValue : Prop :=
  ∀ (s : State) (moves : List HostMove), s.engine = .idle →
    (∀ v, s.host = .writeOffset v :: moves →
      step s = .next { s with offset := v, valid := { s.valid with offset := true }, host := moves }) ∧
    (∀ v, s.host = .writeBank v :: moves →
      step s = .next { s with bank := v, valid := { s.valid with bank := true }, host := moves }) ∧
    (∀ v, s.host = .writePos v :: moves →
      step s = .next { s with pos := v, valid := { s.valid with pos := true }, host := moves }) ∧
    (∀ v, s.host = .writeTilein v :: moves →
      step s = .next { s with tilein := v, valid := { s.valid with tilein := true }, host := moves }) ∧
    (∀ image, s.host = .supplyRom image :: moves →
      ∃ t, step s = .next t ∧ t.romSize = image.length ∧
        (∀ (p : Nat) (h : p < image.length), t.rom.read p = image[p]) ∧
        t = { s with rom := t.rom, romSize := t.romSize, host := moves }) ∧
    (s.host = [] → step s = .next s)

/-- Reset at any time, also inside an operation (70 R280): ST = IDLE, ERR = 0, TBL generated, the engine idle, no result
valid. That ROM, the parameters and the moves still to come stay is the model's choice (log 4). -/
def Obligations.ResetStopsAnyOperation : Prop :=
  ∀ (s : State) (moves : List HostMove), s.host = .reset :: moves →
    ∃ t, step s = .next t ∧ t.st = .idle ∧ t.err = .none ∧ t.engine = .idle ∧
      (∀ k, k < 256 → t.tbl.read k = Config.tblListing.getD k 0#8) ∧
      t.valid = Valid.reset ∧ t.rom = s.rom ∧ t.romSize = s.romSize ∧ t.params = s.params ∧ t.host = moves

/-! ### The behaviours that read only ROM

That K ends at N, and that the other working registers keep what the last update gave them, is the model's reading of the
rules' pseudocode (log 15); no rule reads them after the instruction. -/

/-- LIT, LITX and both rows of LITX.D append their data bytes (43 R151, R166, R173), CUR moves past them, and nothing else
changes but the working registers OP, TAG, CNT, N and K. What the working registers hold afterwards is log 15. -/
def Obligations.LiteralCopiesAppendTheirData : Prop :=
  ∀ (s : State) (data : List Byte), s.out.wf → s.len + data.length ≤ s.params.outCap →
    (∀ c : BitVec 5, data.length = c.toNat + 1 → ∃ t, exec (.lit c data) s = .next t ∧
      Appended s t data ∧ OnlyStreamFields s t ∧ t.cur = s.cur + 1 + data.length ∧
      t.work = { headWork s.work c.toNat 0x00 c.toNat with k := BitVec.ofNat 9 data.length }) ∧
    (∀ (x : BitVec 2) (c : Byte), data.length = c.toNat + 1 → ∃ t, exec (.litx x c data) s = .next t ∧
      Appended s t data ∧ OnlyStreamFields s t ∧ t.cur = s.cur + 2 + data.length ∧
      t.work = { headWork s.work (0xE0 + x.toNat) 0x00 c.toNat with k := BitVec.ofNat 9 data.length }) ∧
    (∀ (x : BitVec 1) (c : Byte), data.length = c.toNat + 1 → ∃ t, exec (.litxD x c data) s = .next t ∧
      Appended s t data ∧ OnlyStreamFields s t ∧ t.cur = s.cur + 2 + data.length ∧
      t.work = { headWork s.work (0xFC + x.toNat) 0xE0 c.toNat with k := BitVec.ofNat 9 data.length }) ∧
    (∀ c : Byte, data.length = c.toNat + 1 → ∃ t, exec (.litxDFE c data) s = .next t ∧
      Appended s t data ∧ OnlyStreamFields s t ∧ t.cur = s.cur + 2 + data.length ∧
      t.work = { headWork s.work 0xFE 0xE0 c.toNat with k := BitVec.ofNat 9 data.length })

/-- RPT and RPTX append `n` times the byte they fetched once (43 R152, R167). What the working registers hold afterwards is
log 15. -/
def Obligations.RepeatedByteAppendsItNTimes : Prop :=
  ∀ (s : State) (b : Byte), s.out.wf →
    (∀ c : BitVec 5, s.len + (c.toNat + 1) ≤ s.params.outCap → ∃ t, exec (.rpt c b) s = .next t ∧
      Appended s t (List.replicate (c.toNat + 1) b) ∧ OnlyStreamFields s t ∧ t.cur = s.cur + 2 ∧
      t.work = { headWork s.work (0x20 + c.toNat) 0x20 c.toNat with b1 := b, k := BitVec.ofNat 9 (c.toNat + 1) }) ∧
    (∀ (x : BitVec 2) (c : Byte), s.len + (c.toNat + 1) ≤ s.params.outCap → ∃ t, exec (.rptx x c b) s = .next t ∧
      Appended s t (List.replicate (c.toNat + 1) b) ∧ OnlyStreamFields s t ∧ t.cur = s.cur + 3 ∧
      t.work = { headWork s.work (0xE4 + x.toNat) 0x20 c.toNat with b1 := b, k := BitVec.ofNat 9 (c.toNat + 1) })

/-- PAIR and PAIRX append `b1 b2 b1 b2 …`, `2n` bytes (43 R153, R168). What the working registers hold afterwards is
log 15. -/
def Obligations.RepeatedPairAppendsItNTimes : Prop :=
  ∀ (s : State) (b1 b2 : Byte), s.out.wf →
    (∀ c : BitVec 5, s.len + 2 * (c.toNat + 1) ≤ s.params.outCap → ∃ t, exec (.pair c b1 b2) s = .next t ∧
      Appended s t ((List.range (2 * (c.toNat + 1))).map (fun j => if j % 2 = 0 then b1 else b2)) ∧
      OnlyStreamFields s t ∧ t.cur = s.cur + 3 ∧
      t.work = { headWork s.work (0x40 + c.toNat) 0x40 c.toNat with b1 := b1, b2 := b2, k := BitVec.ofNat 9 (c.toNat + 1) }) ∧
    (∀ (x : BitVec 2) (c : Byte), s.len + 2 * (c.toNat + 1) ≤ s.params.outCap → ∃ t, exec (.pairx x c b1 b2) s = .next t ∧
      Appended s t ((List.range (2 * (c.toNat + 1))).map (fun j => if j % 2 = 0 then b1 else b2)) ∧
      OnlyStreamFields s t ∧ t.cur = s.cur + 4 ∧
      t.work = { headWork s.work (0xE8 + x.toNat) 0x40 c.toNat with b1 := b1, b2 := b2, k := BitVec.ofNat 9 (c.toNat + 1) })

/-- INC and INCX append `(seed + j) mod 256` for `j` from 0 to `n - 1` (43 R154, R169). What the working
registers hold afterwards is log 15. -/
def Obligations.IncrementingRunCountsModulo256 : Prop :=
  ∀ (s : State) (seed : Byte), s.out.wf →
    (∀ c : BitVec 5, s.len + (c.toNat + 1) ≤ s.params.outCap → ∃ t, exec (.inc c seed) s = .next t ∧
      Appended s t ((List.range (c.toNat + 1)).map (fun j => BitVec.ofNat 8 ((seed.toNat + j) % 256))) ∧
      OnlyStreamFields s t ∧ t.cur = s.cur + 2 ∧
      t.work = { headWork s.work (0x60 + c.toNat) 0x60 c.toNat with
        b1 := BitVec.ofNat 8 (seed.toNat + (c.toNat + 1)), k := BitVec.ofNat 9 (c.toNat + 1) }) ∧
    (∀ (x : BitVec 2) (c : Byte), s.len + (c.toNat + 1) ≤ s.params.outCap → ∃ t, exec (.incx x c seed) s = .next t ∧
      Appended s t ((List.range (c.toNat + 1)).map (fun j => BitVec.ofNat 8 ((seed.toNat + j) % 256))) ∧
      OnlyStreamFields s t ∧ t.cur = s.cur + 3 ∧
      t.work = { headWork s.work (0xEC + x.toNat) 0x60 c.toNat with
        b1 := BitVec.ofNat 8 (seed.toNat + (c.toNat + 1)), k := BitVec.ofNat 9 (c.toNat + 1) })

/-! ### The self-copies

What K, IDX and the other working registers hold at the end is the model's reading of the pseudocode (log 15) here too. -/

/-- FWD and FWDX with `start < LEN`: iteration `j` appends `OUT[start + j]` as it reads when that iteration comes, bytes
appended by earlier iterations included, for every `n` that fits (43 R156, R159, R170; 20_memory R67). That K ends at N and
IDX one past its last use (the clause on `t.work`) is the model's reading (log 15, DEDUCED). -/
def Obligations.ForwardCopyReadsItsOwnOutput : Prop :=
  ∀ (s : State) (start : Half), s.out.wf → start.toNat < s.len →
    (∀ c : BitVec 5, s.len + (c.toNat + 1) ≤ s.params.outCap → ∃ t, exec (.fwd c start) s = .next t ∧
      t.len = s.len + (c.toNat + 1) ∧
      (∀ j, j < c.toNat + 1 → t.out.read (s.len + j) = t.out.read (start.toNat + j)) ∧
      (∀ a, a < s.len ∨ s.len + (c.toNat + 1) ≤ a → t.out.read a = s.out.read a) ∧
      OnlyStreamFields s t ∧ t.cur = s.cur + 3 ∧
      t.work = { headWork s.work (0x80 + c.toNat) 0x80 c.toNat with
        idx := start.toNat + (c.toNat + 1), b1 := BitVec.ofNat 8 (start.toNat / 256), b2 := BitVec.ofNat 8 start.toNat,
        k := BitVec.ofNat 9 (c.toNat + 1) }) ∧
    (∀ (x : BitVec 2) (c : Byte), s.len + (c.toNat + 1) ≤ s.params.outCap → ∃ t, exec (.fwdx x c start) s = .next t ∧
      t.len = s.len + (c.toNat + 1) ∧
      (∀ j, j < c.toNat + 1 → t.out.read (s.len + j) = t.out.read (start.toNat + j)) ∧
      (∀ a, a < s.len ∨ s.len + (c.toNat + 1) ≤ a → t.out.read a = s.out.read a) ∧
      OnlyStreamFields s t ∧ t.cur = s.cur + 4 ∧
      t.work = { headWork s.work (0xF0 + x.toNat) 0x80 c.toNat with
        idx := start.toNat + (c.toNat + 1), b1 := BitVec.ofNat 8 (start.toNat / 256), b2 := BitVec.ofNat 8 start.toNat,
        k := BitVec.ofNat 9 (c.toNat + 1) })

/-- The overlap law of FWD (43 R159): the output repeats with period `d = LEN - start`; appended byte `j` equals old byte
`start + (j mod d)`. -/
def Obligations.ForwardCopyRepeatsWithPeriod : Prop :=
  ∀ (s : State) (c : BitVec 5) (x : BitVec 2) (cx : Byte) (start : Half), s.out.wf → start.toNat < s.len →
    (s.len + (c.toNat + 1) ≤ s.params.outCap → ∃ t, exec (.fwd c start) s = .next t ∧
      ∀ j, j < c.toNat + 1 → t.out.read (s.len + j) = s.out.read (start.toNat + j % (s.len - start.toNat))) ∧
    (s.len + (cx.toNat + 1) ≤ s.params.outCap → ∃ t, exec (.fwdx x cx start) s = .next t ∧
      ∀ j, j < cx.toNat + 1 → t.out.read (s.len + j) = s.out.read (start.toNat + j % (s.len - start.toNat)))

/-- TBL and TBLX with `start < LEN`: as the forward copy, each byte read mapped through the table; a byte of this very
instruction that is read again is mapped again (43 R157, R171). The cursor passes the two address bytes (R165). The final K
and IDX (the clause on `t.work`) are the model's reading (log 15, DEDUCED). -/
def Obligations.TableCopyMapsEachByteRead : Prop :=
  ∀ (s : State) (start : Half), s.out.wf → start.toNat < s.len →
    (∀ c : BitVec 5, s.len + (c.toNat + 1) ≤ s.params.outCap → ∃ t, exec (.tbl c start) s = .next t ∧
      t.len = s.len + (c.toNat + 1) ∧
      (∀ j, j < c.toNat + 1 → t.out.read (s.len + j) = s.tbl.read (t.out.read (start.toNat + j)).toNat) ∧
      (∀ a, a < s.len ∨ s.len + (c.toNat + 1) ≤ a → t.out.read a = s.out.read a) ∧
      OnlyStreamFields s t ∧ t.cur = s.cur + 3 ∧
      t.work = { headWork s.work (0xA0 + c.toNat) 0xA0 c.toNat with
        idx := start.toNat + (c.toNat + 1), b1 := BitVec.ofNat 8 (start.toNat / 256), b2 := BitVec.ofNat 8 start.toNat,
        k := BitVec.ofNat 9 (c.toNat + 1) }) ∧
    (∀ (x : BitVec 2) (c : Byte), s.len + (c.toNat + 1) ≤ s.params.outCap → ∃ t, exec (.tblx x c start) s = .next t ∧
      t.len = s.len + (c.toNat + 1) ∧
      (∀ j, j < c.toNat + 1 → t.out.read (s.len + j) = s.tbl.read (t.out.read (start.toNat + j)).toNat) ∧
      (∀ a, a < s.len ∨ s.len + (c.toNat + 1) ≤ a → t.out.read a = s.out.read a) ∧
      OnlyStreamFields s t ∧ t.cur = s.cur + 4 ∧
      t.work = { headWork s.work (0xF4 + x.toNat) 0xA0 c.toNat with
        idx := start.toNat + (c.toNat + 1), b1 := BitVec.ofNat 8 (start.toNat / 256), b2 := BitVec.ofNat 8 start.toNat,
        k := BitVec.ofNat 9 (c.toNat + 1) })

/-- BWD and BWDX with `start < LEN` and `n <= start + 1`: the bytes from `start` down, `n = start + 1` reading down to
index 0; IDX may end at -1, which is not read and no error (43 R158, R160, R172). What K and the other working registers
hold at the end (the clause on `t.work`) is the model's reading (log 15, DEDUCED). -/
def Obligations.BackwardCopyReversesTheBytes : Prop :=
  ∀ (s : State) (start : Half), s.out.wf → start.toNat < s.len →
    (∀ c : BitVec 5, c.toNat + 1 ≤ start.toNat + 1 → s.len + (c.toNat + 1) ≤ s.params.outCap →
      ∃ t, exec (.bwd c start) s = .next t ∧
      Appended s t ((List.range (c.toNat + 1)).map (fun j => s.out.read (start.toNat - j))) ∧
      OnlyStreamFields s t ∧ t.cur = s.cur + 3 ∧
      t.work = { headWork s.work (0xC0 + c.toNat) 0xC0 c.toNat with
        idx := start.toNat - (c.toNat + 1), b1 := BitVec.ofNat 8 (start.toNat / 256), b2 := BitVec.ofNat 8 start.toNat,
        k := BitVec.ofNat 9 (c.toNat + 1) }) ∧
    (∀ (x : BitVec 2) (c : Byte), c.toNat + 1 ≤ start.toNat + 1 → s.len + (c.toNat + 1) ≤ s.params.outCap →
      ∃ t, exec (.bwdx x c start) s = .next t ∧
      Appended s t ((List.range (c.toNat + 1)).map (fun j => s.out.read (start.toNat - j))) ∧
      OnlyStreamFields s t ∧ t.cur = s.cur + 4 ∧
      t.work = { headWork s.work (0xF8 + x.toNat) 0xC0 c.toNat with
        idx := start.toNat - (c.toNat + 1), b1 := BitVec.ofNat 8 (start.toNat / 256), b2 := BitVec.ofNat 8 start.toNat,
        k := BitVec.ofNat 9 (c.toNat + 1) })

/-! ### Where stream instructions trap -/

/-- A self-copy whose start index is at or past LEN raises OutOfRange(start) at its first read, whatever room is left
in OUT: the read comes before the append, and nothing is appended (43 R156 to R158, R161; 60 R243, R248). What LEN and
OUT hold after the error is the model's choice (log 13). -/
def Obligations.SelfCopyStartOutsideRaisesOutOfRange : Prop :=
  ∀ (s : State) (c : BitVec 5) (x : BitVec 2) (cx : Byte) (start : Half), s.len ≤ start.toNat →
    ∀ i, i ∈ [Instr.fwd c start, Instr.tbl c start, Instr.bwd c start,
              Instr.fwdx x cx start, Instr.tblx x cx start, Instr.bwdx x cx start] →
      ∃ t, exec i s = .next t ∧ InError t .outOfRange start.toNat ∧ OnlyErrorFields s t ∧ t.len = s.len ∧ t.out = s.out

/-- BWD and BWDX that run below index 0 raise OutOfRange(-1) after `start + 1` appended bytes; the index does not wrap
(43 R158; 60 R243, R251; 92 D6). What LEN holds after the error is the model's choice (log 13). -/
def Obligations.BackwardCopyBelowZeroRaisesOutOfRange : Prop :=
  ∀ (s : State) (start : Half), s.out.wf → start.toNat < s.len → s.len + (start.toNat + 1) ≤ s.params.outCap →
    (∀ c : BitVec 5, start.toNat + 1 < c.toNat + 1 → ∃ t, exec (.bwd c start) s = .next t ∧
      InError t .outOfRange (-1) ∧ OnlyErrorFields s t ∧ t.len = s.len + (start.toNat + 1)) ∧
    (∀ (x : BitVec 2) (c : Byte), start.toNat + 1 < c.toNat + 1 → ∃ t, exec (.bwdx x c start) s = .next t ∧
      InError t .outOfRange (-1) ∧ OnlyErrorFields s t ∧ t.len = s.len + (start.toNat + 1))

/-- A stream instruction that would cross the capacity appends up to index `OUT_CAP - 1` and raises
OutputOverflow(OUT_CAP), a pair also between its two bytes; a self-copy as long as its reads stay inside OUT (43 R150,
R174; 60 R246, R251). What LEN holds after the error is the model's choice (log 13). -/
def Obligations.CrossingTheCapacityRaisesOutputOverflow : Prop :=
  ∀ (s : State) (i : Instr), i.space = .stream → i.wellFormed = true → ReadsStayInside s i →
    s.len ≤ s.params.outCap → s.params.outCap < s.len + produced i →
    ∃ t, exec i s = .next t ∧ InError t .outputOverflow s.params.outCap ∧ OnlyErrorFields s t ∧ t.len = s.params.outCap

/-- Inside a decode whose next instruction's bytes are not all in the ROM (60 R244): with no opcode byte left, or with a
count or operand byte of a non-literal missing, the step raises TruncatedStream(ROM_SIZE) and appends nothing; a literal
copy comes to its missing byte only after appending the data bytes that are there, so it raises TruncatedStream(ROM_SIZE)
if they fit and OutputOverflow(OUT_CAP) if they do not (42 R133, 43 R151, 60 R248). How a cut instruction is treated is
log 14 (DEDUCED), and that LEN, OUT, VSTART, BASESEL and WIN hold after the error what they held is the model's choice
(log 13): the spec leaves them unspecified (10_state R42). -/
def Obligations.MissingBytesRaiseTruncatedStream : Prop :=
  ∀ (s : State) (e : DecodeError), s.engine ≠ .idle → resetNext s = false → s.cur ≤ s.romSize →
    s.len ≤ s.params.outCap → decode .stream (romBytes s s.cur maxLength) = .error e →
    ∃ t, step s = .next t ∧ OnlyErrorFields s t ∧
      match e with
      | .cutLiteral i => ∃ data, literalData i = some data ∧ encode i = romBytes s s.cur maxLength ∧
          (s.len + data.length ≤ s.params.outCap → InError t .truncatedStream s.romSize) ∧
          (s.params.outCap < s.len + data.length → InError t .outputOverflow s.params.outCap)
      | _ => InError t .truncatedStream s.romSize ∧ t.len = s.len ∧ t.out = s.out

/-! ### END -/

/-- END inside a DECOMP: CUR moves past the byte, ST is DONE, ERR is 0, OUT, LEN and CUR are valid, nothing else
changes but OP (42 R134, R139). That END's step also ends the operation is the model's choice of steps (log 1), and that ERRPOS keeps its
value, which nothing can read then, is log 20 (60 R252 says only that it becomes invalid). -/
def Obligations.EndOfDecompIsDone : Prop :=
  ∀ s : State, s.engine = .decomp →
    exec .endStream s = .next { s with
      cur := s.cur + 1, work := { s.work with op := 0xFF#8 }, st := .done, err := .none, engine := .idle
      valid := { s.valid with out := true } }

/-- END inside a COMPOSE whose data fits: the window is the left pad, the data, the right pad, then the three fixed slots
over it; ST is DONE, the results are valid, and nothing else changes but CUR and OP (44 R185 to R189). The assignment of
the fixed patterns to the slots is the spec's decision (92 D13). That END's own step fills the window and ends the
operation is the model's choice (log 1), and that ERRPOS keeps its value is log 20. -/
def Obligations.EndOfComposeFillsTheWindow : Prop :=
  ∀ s : State, s.engine = .compose → s.out.wf →
    let pad := s.vstart.toNat - (if s.baseSel = 0#1 then 0x8000 else 0x8800)
    pad + s.len ≤ 0x1800 →
    ∃ t, exec .endStream s = .next t ∧
      (∀ a, a < 0x1800 → t.win.read a =
        if h : 0xFD0 ≤ a ∧ a < 0xFE0 then s.params.fixed7D[a - 0xFD0]
        else if h : 0xFE0 ≤ a ∧ a < 0xFF0 then s.params.fixed7E[a - 0xFE0]
        else if 0xFF0 ≤ a ∧ a < 0x1000 then 0#8
        else if a < pad then 0#8
        else if a < pad + s.len then s.out.read (a - pad)
        else 0#8) ∧
      t = { s with
        cur := s.cur + 1, work := { s.work with op := 0xFF#8 }, st := .done, err := .none, engine := .idle
        win := t.win, valid := { s.valid with out := true, win := true } }

/-- END inside a COMPOSE whose pad and data exceed 0x1800 bytes: WindowOverflow(pad + LEN), and no window is written;
exactly 0x1800 bytes are legal, with no right pad (44 R186, 60 R247). That END's own step raises it is the model's choice
(log 1), and so is that LEN, OUT, VSTART, BASESEL and the old WIN stay after the error (log 13), where the spec leaves them
unspecified (10_state R42). -/
def Obligations.EndOfComposeRaisesWindowOverflow : Prop :=
  ∀ s : State, s.engine = .compose →
    let pad := s.vstart.toNat - (if s.baseSel = 0#1 then 0x8000 else 0x8800)
    (0x1800 < pad + s.len →
      ∃ t, exec .endStream s = .next t ∧ InError t .windowOverflow ((pad + s.len : Nat) : Int) ∧ OnlyErrorFields s t ∧
        t.valid.win = false ∧ t.win = s.win) ∧
    (pad + s.len = 0x1800 → ∃ t, exec .endStream s = .next t ∧ t.st = .done ∧ t.err = .none ∧ t.valid.win = true)

/-! ### The host operations -/

/-- XLAT (40 R100): by `CMD` = 0x01, `POS = BANK * 0x4000 + (OFFSET & 0x3FFF)`, that is BANK over the low 14 bits of
OFFSET; ST DONE, ERR 0, in every state, whatever ROM_SIZE is; it never raises, and writes nothing else (R101). That POS
counts as written in every state, also where OFFSET or BANK never were, is the model's choice (log 9), and that ERRPOS
keeps its value is log 20. -/
def Obligations.XlatTranslatesTheAddress : Prop :=
  decode .host [0x01#8] = .ok (.xlat, []) ∧
  (∀ s : State, ∃ t, exec .xlat s = .next t ∧
    t.pos.toNat = s.bank.toNat * 0x4000 + s.offset.toNat % 0x4000 ∧
    t.pos.extractLsb' 14 8 = s.bank ∧ t.pos.extractLsb' 0 14 = s.offset.extractLsb' 0 14 ∧
    t = { s with pos := t.pos, st := .done, err := .none, engine := .idle, valid := { s.valid with pos := true } }) ∧
  linearOf 0x511F#16 8#8 = 0x2111F#22

/-- TSLOT (44 R192): by `CMD` = 0x05, SLOT is `t mod 0x80` for `t > 0x7F` and `t + 0x80` otherwise, ST DONE, ERR 0, in
every state; it never raises, and writes nothing else; the map is its own inverse. That SLOT is valid after it in every
state, also where TILEIN was never written, is the model's choice (log 9), and that ERRPOS keeps its value is log 20. -/
def Obligations.TslotMapsTheTileIndex : Prop :=
  decode .host [0x05#8] = .ok (.tslot, []) ∧
  (∀ s : State, ∃ t, exec .tslot s = .next t ∧
    t.slot.toNat = (if 0x7F < s.tilein.toNat then s.tilein.toNat % 0x80 else s.tilein.toNat + 0x80) ∧
    t.slot = s.tilein ^^^ 0x80#8 ∧
    t = { s with slot := t.slot, st := .done, err := .none, engine := .idle, valid := { s.valid with slot := true } }) ∧
  (∀ b : Byte, slotOf (slotOf b) = b) ∧ slotOf 0x7F#8 = 0xFF#8 ∧ slotOf 0x80#8 = 0x00#8 ∧
  slotOf 0x05#8 = 0x85#8 ∧ slotOf 0x90#8 = 0x10#8

/-- GENTBL (41 R110, R117): whatever TBL and the generator's registers held, entry `k` becomes `k` with its bits
reversed, GA ends at 0 and GN at 256; ST DONE, ERR 0; nothing else changes but the other registers of the generator. That ERRPOS
keeps its value is log 20. -/
def Obligations.GentblWritesBitReversal : Prop :=
  ∀ s : State, s.tbl.wf → ∃ t, exec .gentbl s = .next t ∧
    (∀ k : Byte, ∀ i, i < 8 → (t.tbl.read k.toNat).getLsbD i = k.getLsbD (7 - i)) ∧
    (∀ a, 256 ≤ a → t.tbl.read a = s.tbl.read a) ∧
    t.gen.ga = 0#8 ∧ t.gen.gn = 256#9 ∧
    t = { s with tbl := t.tbl, gen := t.gen, st := .done, err := .none, engine := .idle }

/-- DECOMP with a valid start position: `CUR <- POS ; LEN <- 0`, the decode runs, and OUT, LEN and CUR of an earlier
decode are no longer valid (42 R130, R131; 10_state R41). That the start is a step of its own is the model's choice
(log 1). -/
def Obligations.DecompStartsTheDecode : Prop :=
  ∀ s : State, s.pos.toNat < s.romSize →
    exec .decomp s = .next { s with
      cur := s.pos.toNat, len := 0, engine := .decomp, valid := { s.valid with out := false } }

/-- COMPOSE with a valid start position: the control byte at POS gives VSTART and BASESEL, the inner decode starts at
`POS + 1` with an empty buffer and no check of its own, and no result of an earlier COMPOSE or DECOMP is valid (44
R180 to R184). That the start is a step of its own is the model's choice (log 1). -/
def Obligations.ComposeReadsTheControlByte : Prop :=
  ∀ s : State, s.pos.toNat < s.romSize →
    let cb := (s.rom.read s.pos.toNat).toNat
    exec .compose s = .next { s with
      vstart := BitVec.ofNat 16 (0x9630 - cb * 16), baseSel := if 0x9630 - cb * 16 < 0x8800 then 0#1 else 1#1
      cur := s.pos.toNat + 1, len := 0, engine := .compose, valid := { s.valid with out := false, win := false } }

/-- The start-position check of DECOMP and COMPOSE (00_scope R13): EmptyInput(0) for an absent ROM, then OutOfRange(POS).
Nothing changes but ST, ERR, ERRPOS, the engine and the validity of results. That CUR, LEN, OUT, WIN, VSTART, BASESEL and
the working registers stay after the error is the model's choice (log 13): the spec leaves them unspecified (10_state
R42). -/
def Obligations.StartPositionIsChecked : Prop :=
  ∀ (s : State) (i : Instr), i = .decomp ∨ i = .compose → s.romSize ≤ s.pos.toNat →
    ∃ t, exec i s = .next t ∧ OnlyErrorFields s t ∧ (i = .compose → t.valid.win = false) ∧
      t.cur = s.cur ∧ t.len = s.len ∧ t.out = s.out ∧ t.work = s.work ∧
      (s.romSize = 0 → InError t .emptyInput 0) ∧ (0 < s.romSize → InError t .outOfRange s.pos.toNat)

/-- The arithmetic of the control byte (44 R182, R183, R185, R191 d): VSTART lies in 0x8640 .. 0x9630 and is a multiple
of 16; the base is 0x8800 for `cb <= 0xE3` and 0x8000 above; the pad is `0xE30 - 16 cb`, or `0x1630 - 16 cb`. -/
def Obligations.ControlByteFixesThePad : Prop :=
  ∀ cb : Byte, (vstartOf cb).toNat = 0x9630 - 16 * cb.toNat ∧ 0x8640 ≤ (vstartOf cb).toNat ∧ (vstartOf cb).toNat ≤ 0x9630 ∧
    (vstartOf cb).toNat % 16 = 0 ∧
    (cb.toNat ≤ 0xE3 → baseSelOf (vstartOf cb) = 1#1 ∧ (vstartOf cb).toNat - 0x8800 = 0xE30 - 16 * cb.toNat) ∧
    (0xE4 ≤ cb.toNat → baseSelOf (vstartOf cb) = 0#1 ∧ (vstartOf cb).toNat - 0x8000 = 0x1630 - 16 * cb.toNat)

/-! ### The table generator -/

/-- First half of an inner step (41 R112): GR rotates right by one bit, circularly, and GC is the bit that left. -/
def Obligations.InnerStepRotatesRightCircularly : Prop :=
  ∀ r : Byte, (rotateRight r).1.toNat = r.toNat % 2 * 128 + r.toNat / 2 ∧ (rotateRight r).2.toNat = r.toNat % 2 ∧
    (∀ g : Gen, g.gr = r → g.inner.gr = (rotateRight r).1)

/-- Second half of an inner step (41 R113): GA rotates left through the carry that GC got in the first half of the same
step, and GC takes the bit that leaves GA. -/
def Obligations.InnerStepRotatesLeftThroughCarry : Prop :=
  ∀ g : Gen, g.inner.ga.toNat = (2 * g.ga.toNat + g.gr.toNat % 2) % 256 ∧ g.inner.gc.toNat = g.ga.toNat / 128

/-- The loop of the generator ends by itself after exactly 256 appends, from any register contents (41 R115): more
iterations allowed change nothing, GA is 0 and GN is 256 at the end. -/
def Obligations.GeneratorStopsAfter256Appends : Prop :=
  ∀ (g : Gen) (n : Nat), 256 ≤ n → Gen.loop n g.begin = g.run ∧ g.run.1.length = 256 ∧ g.run.2.ga = 0#8 ∧ g.run.2.gn = 256#9

/-- The eight inner steps give back GR, and leave in GA the bits of GR reversed and nothing of GA (41 R116). -/
def Obligations.EightInnerStepsReverseTheBits : Prop :=
  ∀ g : Gen, g.eight.gr = g.gr ∧ ∀ i, i < 8 → g.eight.ga.getLsbD i = g.gr.getLsbD (7 - i)

/-- The table is its own inverse, and so a permutation (41 R119), in every state that meets the invariant. -/
def Obligations.TableIsItsOwnInverse : Prop :=
  ∀ s : State, Inv s → ∀ i : Byte, tblRead (tblRead i s) s = i

/-! ### Errors -/

/-- Whatever raises: a stream instruction, DECOMP or COMPOSE that leaves ST = FAULT with no operation running has raised,
also where ST still held the FAULT of an earlier operation (log 1 keeps ST while one runs). TBL, ROM, the parameters and
the registers the host wrote are then as they were, ERR is a kind, and no OUT, LEN and CUR is valid, nor WIN, VSTART and
BASESEL where a COMPOSE raised (10_state R42; 60 R250, R254). That WIN, VSTART and BASESEL hold after a faulted COMPOSE
what they held is the model's choice (log 13): the spec leaves them unspecified. A stream instruction of an idle block,
which no step runs (log 16), is meant only where ST was not FAULT before it. -/
def Obligations.ErrorsKeepTableAndHostRegisters : Prop :=
  ∀ (s t : State) (i : Instr),
    (i.space = .stream ∧ (s.engine ≠ .idle ∨ s.st ≠ .fault)) ∨ i = .decomp ∨ i = .compose → exec i s = .next t →
    (s.st ≠ .fault → t.st = .fault → t.engine = .idle) ∧
    (t.engine = .idle → t.st = .fault →
      OnlyErrorFields s t ∧ t.err ≠ .none ∧ t.err ≠ .unknownLevelIndex ∧ t.valid.out = false ∧
      (i = .compose ∨ (i.space = .stream ∧ s.engine = .compose) → t.valid.win = false))

/-- The host operations that read no ROM never raise, in any state, and leave OUT, LEN, CUR, WIN, ROM and the validity of
the decode results as they were (40 R100, R101; 41 R110; 44 R192; 60 R242). That ERRPOS keeps its value too is log 20
(DEDUCED; 60 R252 says only that it becomes invalid). -/
def Obligations.XlatGentblTslotNeverRaise : Prop :=
  ∀ (s : State) (i : Instr), i = .xlat ∨ i = .gentbl ∨ i = .tslot →
    ∃ t, exec i s = .next t ∧ t.st = .done ∧ t.err = .none ∧ t.errPos = s.errPos ∧ t.out = s.out ∧ t.len = s.len ∧
      t.cur = s.cur ∧ t.win = s.win ∧ t.rom = s.rom ∧ t.valid.out = s.valid.out ∧ t.valid.win = s.valid.win

/-! ### The whole machine -/

/-- After reset the invariant holds. The reset values the spec leaves open are the model's (log 5, log 6). -/
def Obligations.InvariantHoldsAtReset : Prop := Inv State.reset

/-- Every step keeps the invariant, from every state that meets it: canonical memories inside their spaces, TBL the
constant of R118, LEN within OUT_CAP, ERR and ST agreeing, a running decode with its cursor in the ROM and no valid
result, BASESEL the one of VSTART (10_state R25, R26, R29 to R31, R41, R42; 20_memory R53, R55; 41 R118). -/
def Obligations.InvariantKeptByEveryStep : Prop :=
  ∀ s t : State, Inv s → step s = .next t → Inv t

/-- A stream instruction reaches only what spec 20_memory R66 lists: inside a decode, a step that is no reset leaves every
register the host wrote, SLOT, VSTART, BASESEL, the generator, ROM, TBL, the parameters, the host's moves and what it
has read as they were, and WIN too unless it ends a COMPOSE with DONE (20_memory R64, 60 R267). The last clause, that ST, ERR,
ERRPOS and the validity of results keep their old values while the decode goes on, where the spec has ST = BUSY (10_state
R25), is the model's choice (log 1), and that VSTART, BASESEL and WIN stay where the step raises is log 13. -/
def Obligations.StreamsReachOnlyTheirSpaces : Prop :=
  ∀ s t : State, s.engine ≠ .idle → resetNext s = false → step s = .next t →
    t = { s with cur := t.cur, len := t.len, out := t.out, work := t.work, win := t.win, st := t.st, err := t.err,
                 errPos := t.errPos, engine := t.engine,
                 valid := { s.valid with out := t.valid.out, win := t.valid.win } } ∧
    (¬(s.engine = .compose ∧ t.engine = .idle ∧ t.st = .done) → t.win = s.win) ∧
    (t.engine ≠ .idle → t.engine = s.engine ∧ t.st = s.st ∧ t.err = s.err ∧ t.errPos = s.errPos ∧ t.valid = s.valid)

/-- The block never writes ROM or its size: a step that is not the supply of an image by the host leaves both as they
were; the parameters never change at all (10_state R36, R40; 20_memory R51). A reset is such a step: that ROM and ROM_SIZE
survive it is the model's choice (log 4, unsafe), and that the parameters stand in the state is log 10. -/
def Obligations.RomIsNeverWritten : Prop :=
  ∀ s t : State, step s = .next t → t.params = s.params ∧
    ((∀ image moves, s.host ≠ .supplyRom image :: moves) → t.rom = s.rom ∧ t.romSize = s.romSize)

/-- Inside a decode CUR only moves forward, and at least by one unless the step raises; LEN never falls (10_state R30,
R31; 42 R144). What CUR and LEN hold after a step that raises is the model's choice (log 13): the spec leaves them
unspecified (10_state R42). -/
def Obligations.CursorNeverRewinds : Prop :=
  ∀ s t : State, s.engine ≠ .idle → resetNext s = false → step s = .next t →
    s.cur ≤ t.cur ∧ s.len ≤ t.len ∧ (t.st = .fault ∧ t.engine = .idle ∨ s.cur < t.cur)

/-- Accounting (43 R163): a well-formed stream instruction that does not raise moves CUR by its length and LEN by `n`, a
pair by `2n`, END by nothing. One that raises leaves no operation running and ST = FAULT; the ST of an earlier operation,
which log 1 keeps while a decode runs, is no such sign. -/
def Obligations.LengthsAndCountsAccountForEveryByte : Prop :=
  ∀ (s t : State) (i : Instr), i.space = .stream → i.wellFormed = true → exec i s = .next t →
    ¬(t.engine = .idle ∧ t.st = .fault) → t.cur = s.cur + i.length ∧ t.len = s.len + produced i

/-- A stream does the same wherever it stands in ROM (42 R145): moved by `d` positions, a well-formed stream instruction
has the same outcome, moved by `d`. Where it raises, what CUR, LEN and OUT hold afterwards is the model's choice
(log 13). -/
def Obligations.MeaningIsPositionIndependent : Prop :=
  ∀ (s : State) (i : Instr) (d : Nat), i.space = .stream → i.wellFormed = true →
    ∃ t, exec i s = .next t ∧ exec i { s with cur := s.cur + d } = .next { t with cur := t.cur + d }

/-- Every decode ends, DONE or in an error, after at most `(ROM_SIZE - CUR) / 2 + 1` steps (42 R138, 70 R284). -/
def Obligations.EveryDecodeEnds : Prop :=
  ∀ s : State, s.engine ≠ .idle → resetNext s = false → s.cur ≤ s.romSize →
    ∃ k t, k ≤ (s.romSize - s.cur) / 2 + 1 ∧ core.run k s = .next t ∧ DecodeEnded t

/-- A decode depends on nothing but the ROM, the parameters, TBL, where it stands and what it has appended (42 R142): two
machines that agree on these go on alike, both running and still agreeing, or both ended with the same result or the
same error. -/
def Obligations.DecodeDependsOnItsInputsOnly : Prop :=
  ∀ s1 s2 t1 t2 : State, SameDecode s1 s2 → s1.engine ≠ .idle → s1.out.wf → s2.out.wf →
    resetNext s1 = false → resetNext s2 = false →
    step s1 = .next t1 → step s2 = .next t2 →
    (t1.engine ≠ .idle ∧ SameDecode t1 t2) ∨ SameResult (decide (s1.engine = .compose)) t1 t2

/-- DECOMP, run to its end, delivers what the decoder of the source's software delivers on the same ROM, capacity and
start position: the same buffer and final cursor, or the same error at the same position (42 R130 to R140, 43 R151 to
R173, 60 R240 to R248). -/
def Obligations.DecompRefinesTheSoftwareDecoder : Prop :=
  ∀ s : State, Inv s → resetNext s = false →
    ∃ t k u, exec .decomp s = .next t ∧ core.run k t = .next u ∧ u.engine = .idle ∧
      match Soft.decomp (romBytes s 0 s.romSize) s.params.outCap s.pos.toNat with
      | .ok d => u.st = .done ∧ u.err = .none ∧ u.valid.out = true ∧ u.cur = d.cur ∧ u.len = d.buf.length ∧
          ∀ (a : Nat) (h : a < d.buf.length), u.out.read a = d.buf[a]
      | .error (e, info) => InError u e info

/-- COMPOSE, run to its end, delivers the window of the source's software: the same VSTART, base, buffer, cursor and
0x1800 bytes, or the same error at the same position (44 R180 to R191). -/
def Obligations.ComposeRefinesTheSoftwareComposer : Prop :=
  ∀ s : State, Inv s → resetNext s = false →
    ∃ t k u, exec .compose s = .next t ∧ core.run k t = .next u ∧ u.engine = .idle ∧
      match Soft.compose (romBytes s 0 s.romSize) s.params.fixed7D.toList s.params.fixed7E.toList s.params.outCap s.pos.toNat with
      | .ok d => u.st = .done ∧ u.err = .none ∧ u.valid.out = true ∧ u.valid.win = true ∧
          u.vstart.toNat = d.vstart ∧ u.baseSel = (if d.base = 0x8000 then 0#1 else 1#1) ∧
          u.cur = d.soft.cur ∧ u.len = d.soft.buf.length ∧
          (∀ (a : Nat) (h : a < d.soft.buf.length), u.out.read a = d.soft.buf[a]) ∧
          d.win.length = 0x1800 ∧ ∀ (a : Nat) (h : a < d.win.length), u.win.read a = d.win[a]
      | .error (e, info) => InError u e info ∧ u.valid.win = false

/-! ### What the host reads -/

/-- After reset ST reads 0, ERR reads 0 and TBL reads the constant of 41 R118; the engine is idle; OFFSET, BANK, POS,
TILEIN and CMD are readable (10_state R47), though the spec fixes no value for them (93 U6) and the value read is the
model's choice (log 5, log 24); every other host read is refused or faults (10_state R42, R45; 70 R280). -/
def Obligations.ResetLeavesWhatTheSpecSays : Prop :=
  State.reset.st = .idle ∧ State.reset.err = .none ∧ State.reset.engine = .idle ∧
  hostRead .st State.reset = .value 0 ∧ hostRead .err State.reset = .value 0 ∧
  (∀ k : Byte, hostRead (.tbl k) State.reset = .value (Config.tblListing.getD k.toNat 0#8).toNat) ∧
  (∀ p, p ∈ [Port.offset, .bank, .pos, .tilein, .cmd] →
    (∃ v, hostRead p State.reset = .value v) ∧ readIsSpecified p State.reset = false) ∧
  (∀ p, p ∉ [Port.st, .err, .offset, .bank, .pos, .tilein, .cmd] → (∀ k, p ≠ .tbl k) →
    ∀ v, hostRead p State.reset ≠ .value v)

/-- A host read of a result that is not valid is never answered with a value (10_state R42, R47; 92 D25): OUT, LEN, CUR
while not valid, and OUT at or past LEN; WIN, VSTART, BASESEL while not valid; SLOT before a TSLOT; ERRPOS unless ST is
FAULT. -/
def Obligations.InvalidResultsAreNeverRead : Prop :=
  ∀ (s : State) (v : Int),
    (s.valid.out = false → ∀ p, (p = .len ∨ p = .cur ∨ ∃ i, p = .out i) → hostRead p s ≠ .value v) ∧
    (∀ i, s.len ≤ i → hostRead (.out i) s ≠ .value v) ∧
    (s.valid.win = false → ∀ p, (p = .vstart ∨ p = .baseSel ∨ ∃ i, p = .win i) → hostRead p s ≠ .value v) ∧
    (s.valid.slot = false → hostRead .slot s ≠ .value v) ∧
    (s.st ≠ .fault → hostRead .errPos s ≠ .value v)

/-- A valid result reads as the register or byte it is (10_state R25 to R31, R37 to R39, R47), ST and ERR by their codes
(R25, 60 R241); OFFSET, BANK, POS, TILEIN and CMD read back as they stand at any time (R24 "`CMD` reads back the last code
written", R47 "yes"). That the host may read these five also before anything has written them, where 93 U6 has a model
refuse, is the model's choice (log 24), and so are the marks of what is valid (log 9). -/
def Obligations.ValidResultsReadAsTheyAre : Prop :=
  ∀ s : State, hostRead .st s = .value (match s.st with | .idle => 0 | .done => 1 | .fault => 2) ∧
    hostRead .err s = .value (match s.err with
      | .none => 0 | .outOfRange => 1 | .truncatedStream => 2 | .unknownLevelIndex => 3 | .emptyInput => 4
      | .outputOverflow => 5 | .windowOverflow => 6) ∧
    (s.st = .fault → hostRead .errPos s = .value s.errPos) ∧
    (s.valid.out = true → hostRead .len s = .value s.len ∧ hostRead .cur s = .value s.cur ∧
      ∀ i, i < s.len → i < s.params.outCap → hostRead (.out i) s = .value (s.out.read i).toNat) ∧
    (s.valid.win = true → hostRead .vstart s = .value s.vstart.toNat ∧ hostRead .baseSel s = .value s.baseSel.toNat ∧
      ∀ i, i < 0x1800 → hostRead (.win i) s = .value (s.win.read i).toNat) ∧
    (∀ i : Byte, hostRead (.tbl i) s = .value (s.tbl.read i.toNat).toNat) ∧
    (s.valid.slot = true → hostRead .slot s = .value s.slot.toNat) ∧
    hostRead .offset s = .value s.offset.toNat ∧ hostRead .bank s = .value s.bank.toNat ∧
    hostRead .pos s = .value s.pos.toNat ∧ hostRead .tilein s = .value s.tilein.toNat ∧
    hostRead .cmd s = .value s.cmd.toNat

/-- The tile read cannot fault: with a valid window it gives the 16 bytes of the slot, for every SLOT (44 R195). That it
does so also where no TSLOT has written SLOT since reset is the model's choice (log 23). -/
def Obligations.TileReadNeverFaults : Prop :=
  ∀ s : State, s.valid.win = true →
    tileRead s = .ok ((List.range 16).map (fun j => ((s.win.read (16 * s.slot.toNat + j)).toNat : Int)))

/-- A host read changes nothing of the block (20_memory R58): a read that gives a value leaves the value with the
host, one that gives none stops the model. The list of moves and the place of the value are the model's (log 2). -/
def Obligations.HostReadsHaveNoSideEffect : Prop :=
  ∀ (s : State) (p : Port) (moves : List HostMove), s.engine = .idle → s.host = .read p :: moves →
    match hostRead p s with
    | .value v => step s = .next { s with host := moves, readData := some v }
    | .fault r => step s = .fault r
    | .refused r => step s = .refused r

/-! ### How operations end -/

/-- XLAT whose result lies outside the ROM still ends DONE, and the error comes at the first use: DECOMP or COMPOSE
started on that POS raises OutOfRange(POS), or EmptyInput(0) where there is no ROM at all (40 R104; 00_scope R13). -/
def Obligations.PositionOutsideTheRomIsFoundAtItsFirstUse : Prop :=
  ∀ s : State, s.romSize ≤ s.bank.toNat * 0x4000 + s.offset.toNat % 0x4000 →
    ∃ t, exec .xlat s = .next t ∧ t.st = .done ∧ t.err = .none ∧
      t.pos.toNat = s.bank.toNat * 0x4000 + s.offset.toNat % 0x4000 ∧
      ∀ i, i = .decomp ∨ i = .compose → ∃ u, exec i t = .next u ∧ u.st = .fault ∧
        (0 < s.romSize → u.err = .outOfRange ∧ u.errPos = t.pos.toNat) ∧
        (s.romSize = 0 → u.err = .emptyInput ∧ u.errPos = 0)

/-- An operation that ends with ST other than FAULT has ended as 60 R252 says of success: the step of a decode, or the host
operation, that leaves no operation running and no FAULT leaves ST DONE and ERR 0, and ERRPOS cannot be read. Success is
read off ST here, so this is less than R252: that an operation none of whose accesses raises leaves no FAULT, whatever ST
held before (log 1), is said by `EndOfDecompIsDone`, `EndOfComposeFillsTheWindow` and `XlatGentblTslotNeverRaise`. -/
def Obligations.SuccessEndsDoneWithoutError : Prop :=
  ∀ s t : State,
    (s.engine ≠ .idle ∧ resetNext s = false ∧ step s = .next t) ∨ (∃ i : Instr, i.space = .host ∧ exec i s = .next t) →
    t.engine = .idle → t.st ≠ .fault →
    t.st = .done ∧ t.err = .none ∧ ∀ v, hostRead .errPos t ≠ .value v

/-- What the spec fixes of OFFSET, BANK, POS, TILEIN and CMD stays fixed: once a host read of a port is specified, it is so
after every step that is no reset (93 U6 "before the first write"). A reset unfixes all five (70 R280). The marks this is
told by are the model's (log 9). -/
def Obligations.SpecifiedReadsStaySpecifiedUntilReset : Prop :=
  ∀ (s t : State) (p : Port), step s = .next t →
    (resetNext s = false → readIsSpecified p s = true → readIsSpecified p t = true) ∧
    (resetNext s = true → p ∈ [Port.offset, .bank, .pos, .tilein, .cmd] → readIsSpecified p t = false)
end

