-- ==== Sys2Proof/Laws/Memory.lean ====
section
/-! SUPPORT. The laws of byte memories: what a read answers after each operation, and that each keeps the canonical
form and the bounds of its space. -/

namespace Sys2Proof.Machine

@[simp] theorem Memory.read_nil (a : Nat) : Memory.read [] a = 0#8 := rfl

theorem Memory.read_cons (b : Nat) (w : Byte) (m : Memory) (a : Nat) :
    Memory.read ((b, w) :: m) a = if a = b then w else Memory.read m a := rfl

/-- An address below every listed one reads as unlisted. -/
theorem Memory.read_of_lt (m : Memory) (a : Nat) (h : ∀ c ∈ m, a < c.1) : Memory.read m a = 0#8 := by
  induction m with
  | nil => rfl
  | cons c m ih =>
    obtain ⟨b, w⟩ := c
    have hb : a < b := h (b, w) (by simp)
    rw [Memory.read_cons, if_neg (by omega), ih (fun c hc => h c (by simp [hc]))]

/-- An address past the space of a memory reads as unlisted. -/
theorem Memory.read_of_within (m : Memory) (n a : Nat) (h : m.within n) (ha : n ≤ a) : Memory.read m a = 0#8 := by
  induction m with
  | nil => rfl
  | cons c m ih =>
    obtain ⟨b, w⟩ := c
    have hb : b < n := h (b, w) (by simp)
    rw [Memory.read_cons, if_neg (by omega), ih (fun c hc => h c (by simp [hc]))]

theorem Memory.wf_nil : Memory.wf [] := ⟨List.Pairwise.nil, by simp⟩

theorem Memory.wf_tail {c : Host.Cell} {m : Memory} (h : Memory.wf (c :: m)) : Memory.wf m :=
  ⟨(List.pairwise_cons.1 h.1).2, fun d hd => h.2 d (by simp [hd])⟩

theorem Memory.wf_head {c : Host.Cell} {m : Memory} (h : Memory.wf (c :: m)) : ∀ d ∈ m, c.1 < d.1 :=
  (List.pairwise_cons.1 h.1).1

/-- A cell in front of a memory of higher addresses. -/
theorem Memory.wf_cell {m : Memory} (a : Nat) (v : Byte) (h : m.wf) (ha : ∀ c ∈ m, a < c.1) :
    (Memory.cell a v m).wf := by
  unfold Memory.cell
  split
  · exact h
  · next hv =>
    refine ⟨List.pairwise_cons.2 ⟨ha, h.1⟩, fun c hc => ?_⟩
    rcases List.mem_cons.1 hc with rfl | hc
    · exact hv
    · exact h.2 c hc

theorem Memory.mem_cell {m : Memory} {a : Nat} {v : Byte} {c : Host.Cell} (h : c ∈ Memory.cell a v m) :
    c = (a, v) ∨ c ∈ m := by
  unfold Memory.cell at h
  split at h
  · exact .inr h
  · exact List.mem_cons.1 h

theorem Memory.read_cell {m : Memory} (a : Nat) (v : Byte) (h : ∀ c ∈ m, a < c.1) (a' : Nat) :
    Memory.read (Memory.cell a v m) a' = if a' = a then v else Memory.read m a' := by
  unfold Memory.cell
  split
  · next hv =>
    split
    · next ha =>
      subst ha
      rw [hv]
      exact Memory.read_of_lt m a' h
    · rfl
  · rfl

/-- Every cell of a written memory is the written one or an old one. -/
theorem Memory.mem_write {m : Memory} {a : Nat} {v : Byte} {c : Host.Cell} (h : c ∈ m.write a v) :
    c = (a, v) ∨ c ∈ m := by
  induction m with
  | nil => exact Memory.mem_cell h
  | cons d m ih =>
    obtain ⟨b, w⟩ := d
    unfold Memory.write at h
    split at h
    · exact Memory.mem_cell h
    · split at h
      · rcases Memory.mem_cell h with h | h
        · exact .inl h
        · exact .inr (by simp [h])
      · rcases List.mem_cons.1 h with rfl | h
        · exact .inr (by simp)
        · rcases ih h with h | h
          · exact .inl h
          · exact .inr (by simp [h])

/-- A write keeps the canonical form. -/
theorem Memory.write_wf {m : Memory} (a : Nat) (v : Byte) (h : m.wf) : (m.write a v).wf := by
  induction m with
  | nil => exact Memory.wf_cell a v h (by simp)
  | cons c m ih =>
    obtain ⟨b, w⟩ := c
    have hb := Memory.wf_head h
    unfold Memory.write
    split
    · next hab =>
      refine Memory.wf_cell a v h fun d hd => ?_
      rcases List.mem_cons.1 hd with rfl | hd
      · exact hab
      · exact lt_trans hab (hb d hd)
    · split
      · next hab =>
        subst hab
        exact Memory.wf_cell a v (Memory.wf_tail h) hb
      · next hab hne =>
        have ht := ih (Memory.wf_tail h)
        refine ⟨List.pairwise_cons.2 ⟨fun d hd => ?_, ht.1⟩, fun d hd => ?_⟩
        · rcases Memory.mem_write hd with rfl | hd
          · show b < a
            omega
          · exact hb d hd
        · rcases List.mem_cons.1 hd with rfl | hd
          · exact h.2 (b, w) (by simp)
          · exact ht.2 d hd

/-- Reading after a write: the written byte at its address, the old byte everywhere else. -/
theorem Memory.read_write {m : Memory} (h : m.wf) (a : Nat) (v : Byte) (a' : Nat) :
    (m.write a v).read a' = if a' = a then v else m.read a' := by
  induction m with
  | nil => exact Memory.read_cell a v (by simp) a'
  | cons c m ih =>
    obtain ⟨b, w⟩ := c
    have hb := Memory.wf_head h
    unfold Memory.write
    split
    · next hab =>
      refine Memory.read_cell a v (fun d hd => ?_) a'
      rcases List.mem_cons.1 hd with rfl | hd
      · exact hab
      · exact lt_trans hab (hb d hd)
    · split
      · next hab =>
        subst hab
        rw [Memory.read_cell a v hb, Memory.read_cons]
        split <;> rfl
      · next hab hne =>
        rw [Memory.read_cons, Memory.read_cons, ih (Memory.wf_tail h)]
        by_cases h1 : a' = b
        · rw [if_pos h1, if_pos h1, if_neg (by omega)]
        · rw [if_neg h1, if_neg h1]

theorem Memory.write_within {m : Memory} {n a : Nat} (v : Byte) (h : m.within n) (ha : a < n) : (m.write a v).within n := by
  intro c hc
  rcases Memory.mem_write hc with rfl | hc
  · exact ha
  · exact h c hc

/-- Two canonical memories that read the same everywhere are the same list. -/
theorem Memory.eq_of_read {m : Memory} : ∀ {m' : Memory}, m.wf → m'.wf → (∀ a, m.read a = m'.read a) → m = m' := by
  induction m with
  | nil =>
    intro m' _ h' he
    cases m' with
    | nil => rfl
    | cons c m' =>
      have := he c.1
      rw [Memory.read_cons, if_pos rfl] at this
      exact absurd this.symm (h'.2 c (by simp))
  | cons c m ih =>
    intro m' h h' he
    cases m' with
    | nil =>
      have := he c.1
      rw [Memory.read_cons, if_pos rfl] at this
      exact absurd this (h.2 c (by simp))
    | cons d m' =>
      obtain ⟨b, w⟩ := c
      obtain ⟨b', w'⟩ := d
      have hb := Memory.wf_head h
      have hb' := Memory.wf_head h'
      have hw : w ≠ 0#8 := h.2 (b, w) (by simp)
      have hw' : w' ≠ 0#8 := h'.2 (b', w') (by simp)
      have e1 := he b
      have e2 := he b'
      rw [Memory.read_cons, if_pos rfl, Memory.read_cons] at e1
      rw [Memory.read_cons, Memory.read_cons, if_pos rfl] at e2
      have hbb : b = b' := by
        by_contra hne
        rw [if_neg hne] at e1
        rw [if_neg (Ne.symm hne)] at e2
        rcases Nat.lt_or_gt_of_ne hne with hlt | hlt
        · exact hw (e1.trans (Memory.read_of_lt m' b fun d hd => lt_trans hlt (hb' d hd)))
        · exact hw' (e2.symm.trans (Memory.read_of_lt m b' fun d hd => lt_trans hlt (hb d hd)))
      subst hbb
      rw [if_pos rfl] at e1
      subst e1
      congr 1
      refine ih (Memory.wf_tail h) (Memory.wf_tail h') fun a => ?_
      have := he a
      rw [Memory.read_cons, Memory.read_cons] at this
      by_cases ha : a = b
      · subst ha
        rw [Memory.read_of_lt m a hb, Memory.read_of_lt m' a hb']
      · rwa [if_neg ha, if_neg ha] at this

/-! ### Several bytes at once -/

@[simp] theorem Memory.writeList_nil (m : Memory) (a : Nat) : m.writeList a [] = m := rfl

@[simp] theorem Memory.writeList_cons (m : Memory) (a : Nat) (v : Byte) (vs : List Byte) :
    m.writeList a (v :: vs) = (m.write a v).writeList (a + 1) vs := rfl

theorem Memory.writeList_append (m : Memory) (a : Nat) (vs ws : List Byte) :
    m.writeList a (vs ++ ws) = (m.writeList a vs).writeList (a + vs.length) ws := by
  induction vs generalizing m a with
  | nil => simp
  | cons v vs ih => simp [ih, Nat.add_assoc, Nat.add_comm 1]

theorem Memory.writeList_wf {m : Memory} (a : Nat) (vs : List Byte) (h : m.wf) : (m.writeList a vs).wf := by
  induction vs generalizing m a with
  | nil => exact h
  | cons v vs ih => exact ih (a + 1) (Memory.write_wf a v h)

theorem Memory.writeList_within {m : Memory} {n : Nat} (a : Nat) (vs : List Byte) (h : m.within n)
    (hn : a + vs.length ≤ n) : (m.writeList a vs).within n := by
  induction vs generalizing m a with
  | nil => exact h
  | cons v vs ih =>
    simp only [List.length_cons] at hn
    exact ih (a + 1) (Memory.write_within v h (by omega)) (by omega)

/-- Reading after several bytes were written. -/
theorem Memory.read_writeList {m : Memory} (h : m.wf) (a : Nat) (vs : List Byte) (a' : Nat) :
    (m.writeList a vs).read a' = if h : a ≤ a' ∧ a' - a < vs.length then vs[a' - a]'h.2 else m.read a' := by
  induction vs generalizing m a with
  | nil => simp
  | cons v vs ih =>
    rw [Memory.writeList_cons, ih (Memory.write_wf a v h), Memory.read_write h]
    by_cases h1 : a' = a
    · subst h1
      simp
    · by_cases h2 : a + 1 ≤ a' ∧ a' - (a + 1) < vs.length
      · have h3 : a ≤ a' ∧ a' - a < (v :: vs).length := by
          simp only [List.length_cons]
          omega
        rw [dif_pos h2, dif_pos h3]
        have h4 : a' - a = (a' - (a + 1)) + 1 := by omega
        simp [h4]
      · have h3 : ¬(a ≤ a' ∧ a' - a < (v :: vs).length) := by
          simp only [List.length_cons]
          omega
        rw [dif_neg h2, dif_neg h3, if_neg h1]

theorem Memory.mem_ofBytes {a : Nat} {vs : List Byte} {c : Host.Cell} (h : c ∈ Memory.ofBytes a vs) :
    a ≤ c.1 ∧ c.1 < a + vs.length := by
  induction vs generalizing a with
  | nil => simp [Memory.ofBytes] at h
  | cons v vs ih =>
    rcases Memory.mem_cell h with rfl | h
    · simp
    · have := ih h
      simp only [List.length_cons]
      omega

theorem Memory.ofBytes_wf (a : Nat) (vs : List Byte) : (Memory.ofBytes a vs).wf := by
  induction vs generalizing a with
  | nil => exact Memory.wf_nil
  | cons v vs ih => exact Memory.wf_cell a v (ih (a + 1)) fun c hc => (Memory.mem_ofBytes hc).1

theorem Memory.ofBytes_within (a : Nat) (vs : List Byte) : (Memory.ofBytes a vs).within (a + vs.length) :=
  fun _ hc => (Memory.mem_ofBytes hc).2

/-- Reading a memory made from a list of bytes. -/
theorem Memory.read_ofBytes (a : Nat) (vs : List Byte) (a' : Nat) :
    (Memory.ofBytes a vs).read a' = if h : a ≤ a' ∧ a' - a < vs.length then vs[a' - a]'h.2 else 0#8 := by
  induction vs generalizing a with
  | nil => simp [Memory.ofBytes]
  | cons v vs ih =>
    rw [Memory.ofBytes, Memory.read_cell a v (fun c hc => (Memory.mem_ofBytes hc).1), ih]
    by_cases h1 : a' = a
    · subst h1
      simp
    · rw [if_neg h1]
      by_cases h2 : a + 1 ≤ a' ∧ a' - (a + 1) < vs.length
      · have h3 : a ≤ a' ∧ a' - a < (v :: vs).length := by
          simp only [List.length_cons]
          omega
        rw [dif_pos h2, dif_pos h3]
        have h4 : a' - a = (a' - (a + 1)) + 1 := by omega
        simp [h4]
      · have h3 : ¬(a ≤ a' ∧ a' - a < (v :: vs).length) := by
          simp only [List.length_cons]
          omega
        rw [dif_neg h2, dif_neg h3]

/-! ### The padded copy -/

theorem Memory.padded_wf {m : Memory} (h : m.wf) (len pad : Nat) : (m.padded len pad).wf := by
  constructor
  · rw [Memory.padded, List.pairwise_map]
    exact (h.1.sublist List.filter_sublist).imp fun hcd => by simpa using hcd
  · intro c hc
    simp only [Memory.padded, List.mem_map, List.mem_filter] at hc
    obtain ⟨d, ⟨hd, -⟩, rfl⟩ := hc
    exact h.2 d hd

theorem Memory.padded_within (m : Memory) (len pad : Nat) : (m.padded len pad).within (pad + len) := by
  intro c hc
  simp only [Memory.padded, List.mem_map, List.mem_filter, decide_eq_true_eq] at hc
  obtain ⟨d, ⟨-, hd⟩, rfl⟩ := hc
  show d.1 + pad < pad + len
  omega

/-- Reading the padded copy: zeros, the first `len` bytes, zeros. -/
theorem Memory.read_padded (m : Memory) (len pad a : Nat) :
    (m.padded len pad).read a = if pad ≤ a ∧ a - pad < len then m.read (a - pad) else 0#8 := by
  induction m with
  | nil => simp [Memory.padded]
  | cons c m ih =>
    obtain ⟨b, w⟩ := c
    by_cases hb : b < len
    · have e : Memory.padded ((b, w) :: m) len pad = (b + pad, w) :: Memory.padded m len pad := by
        simp [Memory.padded, hb]
      rw [e, Memory.read_cons, ih, Memory.read_cons]
      by_cases h1 : a = b + pad
      · have h2 : pad ≤ a ∧ a - pad < len := by omega
        rw [if_pos h1, if_pos h2, if_pos (by omega)]
      · rw [if_neg h1]
        by_cases h2 : pad ≤ a ∧ a - pad < len
        · rw [if_pos h2, if_pos h2, if_neg (by omega)]
        · rw [if_neg h2, if_neg h2]
    · have e : Memory.padded ((b, w) :: m) len pad = Memory.padded m len pad := by
        simp [Memory.padded, hb]
      rw [e, ih, Memory.read_cons]
      by_cases h2 : pad ≤ a ∧ a - pad < len
      · rw [if_pos h2, if_pos h2, if_neg (by omega)]
      · rw [if_neg h2, if_neg h2]

end Sys2Proof.Machine
end

