-- ==== Sys2Proof/Laws/State.lean ====
section
/-! SUPPORT. One lemma per field and named update of the state, true by unfolding, so that no later proof unfolds a
record update; and the small laws of `Flow`. -/

namespace Sys2Proof.Machine

@[simp] theorem setWork_offset (w : Work) (s : State) : (setWork w s).offset = s.offset := rfl
@[simp] theorem setWork_bank (w : Work) (s : State) : (setWork w s).bank = s.bank := rfl
@[simp] theorem setWork_pos (w : Work) (s : State) : (setWork w s).pos = s.pos := rfl
@[simp] theorem setWork_cmd (w : Work) (s : State) : (setWork w s).cmd = s.cmd := rfl
@[simp] theorem setWork_st (w : Work) (s : State) : (setWork w s).st = s.st := rfl
@[simp] theorem setWork_err (w : Work) (s : State) : (setWork w s).err = s.err := rfl
@[simp] theorem setWork_errPos (w : Work) (s : State) : (setWork w s).errPos = s.errPos := rfl
@[simp] theorem setWork_tilein (w : Work) (s : State) : (setWork w s).tilein = s.tilein := rfl
@[simp] theorem setWork_slot (w : Work) (s : State) : (setWork w s).slot = s.slot := rfl
@[simp] theorem setWork_vstart (w : Work) (s : State) : (setWork w s).vstart = s.vstart := rfl
@[simp] theorem setWork_baseSel (w : Work) (s : State) : (setWork w s).baseSel = s.baseSel := rfl
@[simp] theorem setWork_cur (w : Work) (s : State) : (setWork w s).cur = s.cur := rfl
@[simp] theorem setWork_len (w : Work) (s : State) : (setWork w s).len = s.len := rfl
@[simp] theorem setWork_work (w : Work) (s : State) : (setWork w s).work = w := rfl
@[simp] theorem setWork_gen (w : Work) (s : State) : (setWork w s).gen = s.gen := rfl
@[simp] theorem setWork_rom (w : Work) (s : State) : (setWork w s).rom = s.rom := rfl
@[simp] theorem setWork_romSize (w : Work) (s : State) : (setWork w s).romSize = s.romSize := rfl
@[simp] theorem setWork_out (w : Work) (s : State) : (setWork w s).out = s.out := rfl
@[simp] theorem setWork_tbl (w : Work) (s : State) : (setWork w s).tbl = s.tbl := rfl
@[simp] theorem setWork_win (w : Work) (s : State) : (setWork w s).win = s.win := rfl
@[simp] theorem setWork_engine (w : Work) (s : State) : (setWork w s).engine = s.engine := rfl
@[simp] theorem setWork_valid (w : Work) (s : State) : (setWork w s).valid = s.valid := rfl
@[simp] theorem setWork_params (w : Work) (s : State) : (setWork w s).params = s.params := rfl
@[simp] theorem setWork_host (w : Work) (s : State) : (setWork w s).host = s.host := rfl
@[simp] theorem setWork_readData (w : Work) (s : State) : (setWork w s).readData = s.readData := rfl

@[simp] theorem push_offset (v : Byte) (s : State) : (push v s).offset = s.offset := rfl
@[simp] theorem push_bank (v : Byte) (s : State) : (push v s).bank = s.bank := rfl
@[simp] theorem push_pos (v : Byte) (s : State) : (push v s).pos = s.pos := rfl
@[simp] theorem push_cmd (v : Byte) (s : State) : (push v s).cmd = s.cmd := rfl
@[simp] theorem push_st (v : Byte) (s : State) : (push v s).st = s.st := rfl
@[simp] theorem push_err (v : Byte) (s : State) : (push v s).err = s.err := rfl
@[simp] theorem push_errPos (v : Byte) (s : State) : (push v s).errPos = s.errPos := rfl
@[simp] theorem push_tilein (v : Byte) (s : State) : (push v s).tilein = s.tilein := rfl
@[simp] theorem push_slot (v : Byte) (s : State) : (push v s).slot = s.slot := rfl
@[simp] theorem push_vstart (v : Byte) (s : State) : (push v s).vstart = s.vstart := rfl
@[simp] theorem push_baseSel (v : Byte) (s : State) : (push v s).baseSel = s.baseSel := rfl
@[simp] theorem push_cur (v : Byte) (s : State) : (push v s).cur = s.cur := rfl
@[simp] theorem push_len (v : Byte) (s : State) : (push v s).len = s.len + 1 := rfl
@[simp] theorem push_work (v : Byte) (s : State) : (push v s).work = s.work := rfl
@[simp] theorem push_gen (v : Byte) (s : State) : (push v s).gen = s.gen := rfl
@[simp] theorem push_rom (v : Byte) (s : State) : (push v s).rom = s.rom := rfl
@[simp] theorem push_romSize (v : Byte) (s : State) : (push v s).romSize = s.romSize := rfl
@[simp] theorem push_out (v : Byte) (s : State) : (push v s).out = s.out.write s.len v := rfl
@[simp] theorem push_tbl (v : Byte) (s : State) : (push v s).tbl = s.tbl := rfl
@[simp] theorem push_win (v : Byte) (s : State) : (push v s).win = s.win := rfl
@[simp] theorem push_engine (v : Byte) (s : State) : (push v s).engine = s.engine := rfl
@[simp] theorem push_valid (v : Byte) (s : State) : (push v s).valid = s.valid := rfl
@[simp] theorem push_params (v : Byte) (s : State) : (push v s).params = s.params := rfl
@[simp] theorem push_host (v : Byte) (s : State) : (push v s).host = s.host := rfl
@[simp] theorem push_readData (v : Byte) (s : State) : (push v s).readData = s.readData := rfl

@[simp] theorem startK_offset (s : State) : (startK s).offset = s.offset := rfl
@[simp] theorem startK_bank (s : State) : (startK s).bank = s.bank := rfl
@[simp] theorem startK_pos (s : State) : (startK s).pos = s.pos := rfl
@[simp] theorem startK_cmd (s : State) : (startK s).cmd = s.cmd := rfl
@[simp] theorem startK_st (s : State) : (startK s).st = s.st := rfl
@[simp] theorem startK_err (s : State) : (startK s).err = s.err := rfl
@[simp] theorem startK_errPos (s : State) : (startK s).errPos = s.errPos := rfl
@[simp] theorem startK_tilein (s : State) : (startK s).tilein = s.tilein := rfl
@[simp] theorem startK_slot (s : State) : (startK s).slot = s.slot := rfl
@[simp] theorem startK_vstart (s : State) : (startK s).vstart = s.vstart := rfl
@[simp] theorem startK_baseSel (s : State) : (startK s).baseSel = s.baseSel := rfl
@[simp] theorem startK_cur (s : State) : (startK s).cur = s.cur := rfl
@[simp] theorem startK_len (s : State) : (startK s).len = s.len := rfl
@[simp] theorem startK_work (s : State) : (startK s).work = { s.work with k := 0#9 } := rfl
@[simp] theorem startK_gen (s : State) : (startK s).gen = s.gen := rfl
@[simp] theorem startK_rom (s : State) : (startK s).rom = s.rom := rfl
@[simp] theorem startK_romSize (s : State) : (startK s).romSize = s.romSize := rfl
@[simp] theorem startK_out (s : State) : (startK s).out = s.out := rfl
@[simp] theorem startK_tbl (s : State) : (startK s).tbl = s.tbl := rfl
@[simp] theorem startK_win (s : State) : (startK s).win = s.win := rfl
@[simp] theorem startK_engine (s : State) : (startK s).engine = s.engine := rfl
@[simp] theorem startK_valid (s : State) : (startK s).valid = s.valid := rfl
@[simp] theorem startK_params (s : State) : (startK s).params = s.params := rfl
@[simp] theorem startK_host (s : State) : (startK s).host = s.host := rfl
@[simp] theorem startK_readData (s : State) : (startK s).readData = s.readData := rfl

@[simp] theorem tickK_offset (s : State) : (tickK s).offset = s.offset := rfl
@[simp] theorem tickK_bank (s : State) : (tickK s).bank = s.bank := rfl
@[simp] theorem tickK_pos (s : State) : (tickK s).pos = s.pos := rfl
@[simp] theorem tickK_cmd (s : State) : (tickK s).cmd = s.cmd := rfl
@[simp] theorem tickK_st (s : State) : (tickK s).st = s.st := rfl
@[simp] theorem tickK_err (s : State) : (tickK s).err = s.err := rfl
@[simp] theorem tickK_errPos (s : State) : (tickK s).errPos = s.errPos := rfl
@[simp] theorem tickK_tilein (s : State) : (tickK s).tilein = s.tilein := rfl
@[simp] theorem tickK_slot (s : State) : (tickK s).slot = s.slot := rfl
@[simp] theorem tickK_vstart (s : State) : (tickK s).vstart = s.vstart := rfl
@[simp] theorem tickK_baseSel (s : State) : (tickK s).baseSel = s.baseSel := rfl
@[simp] theorem tickK_cur (s : State) : (tickK s).cur = s.cur := rfl
@[simp] theorem tickK_len (s : State) : (tickK s).len = s.len := rfl
@[simp] theorem tickK_work (s : State) : (tickK s).work = { s.work with k := s.work.k + 1#9 } := rfl
@[simp] theorem tickK_gen (s : State) : (tickK s).gen = s.gen := rfl
@[simp] theorem tickK_rom (s : State) : (tickK s).rom = s.rom := rfl
@[simp] theorem tickK_romSize (s : State) : (tickK s).romSize = s.romSize := rfl
@[simp] theorem tickK_out (s : State) : (tickK s).out = s.out := rfl
@[simp] theorem tickK_tbl (s : State) : (tickK s).tbl = s.tbl := rfl
@[simp] theorem tickK_win (s : State) : (tickK s).win = s.win := rfl
@[simp] theorem tickK_engine (s : State) : (tickK s).engine = s.engine := rfl
@[simp] theorem tickK_valid (s : State) : (tickK s).valid = s.valid := rfl
@[simp] theorem tickK_params (s : State) : (tickK s).params = s.params := rfl
@[simp] theorem tickK_host (s : State) : (tickK s).host = s.host := rfl
@[simp] theorem tickK_readData (s : State) : (tickK s).readData = s.readData := rfl

@[simp] theorem moveIdx_offset (d : Int) (s : State) : (moveIdx d s).offset = s.offset := rfl
@[simp] theorem moveIdx_bank (d : Int) (s : State) : (moveIdx d s).bank = s.bank := rfl
@[simp] theorem moveIdx_pos (d : Int) (s : State) : (moveIdx d s).pos = s.pos := rfl
@[simp] theorem moveIdx_cmd (d : Int) (s : State) : (moveIdx d s).cmd = s.cmd := rfl
@[simp] theorem moveIdx_st (d : Int) (s : State) : (moveIdx d s).st = s.st := rfl
@[simp] theorem moveIdx_err (d : Int) (s : State) : (moveIdx d s).err = s.err := rfl
@[simp] theorem moveIdx_errPos (d : Int) (s : State) : (moveIdx d s).errPos = s.errPos := rfl
@[simp] theorem moveIdx_tilein (d : Int) (s : State) : (moveIdx d s).tilein = s.tilein := rfl
@[simp] theorem moveIdx_slot (d : Int) (s : State) : (moveIdx d s).slot = s.slot := rfl
@[simp] theorem moveIdx_vstart (d : Int) (s : State) : (moveIdx d s).vstart = s.vstart := rfl
@[simp] theorem moveIdx_baseSel (d : Int) (s : State) : (moveIdx d s).baseSel = s.baseSel := rfl
@[simp] theorem moveIdx_cur (d : Int) (s : State) : (moveIdx d s).cur = s.cur := rfl
@[simp] theorem moveIdx_len (d : Int) (s : State) : (moveIdx d s).len = s.len := rfl
@[simp] theorem moveIdx_work (d : Int) (s : State) : (moveIdx d s).work = { s.work with idx := s.work.idx + d } := rfl
@[simp] theorem moveIdx_gen (d : Int) (s : State) : (moveIdx d s).gen = s.gen := rfl
@[simp] theorem moveIdx_rom (d : Int) (s : State) : (moveIdx d s).rom = s.rom := rfl
@[simp] theorem moveIdx_romSize (d : Int) (s : State) : (moveIdx d s).romSize = s.romSize := rfl
@[simp] theorem moveIdx_out (d : Int) (s : State) : (moveIdx d s).out = s.out := rfl
@[simp] theorem moveIdx_tbl (d : Int) (s : State) : (moveIdx d s).tbl = s.tbl := rfl
@[simp] theorem moveIdx_win (d : Int) (s : State) : (moveIdx d s).win = s.win := rfl
@[simp] theorem moveIdx_engine (d : Int) (s : State) : (moveIdx d s).engine = s.engine := rfl
@[simp] theorem moveIdx_valid (d : Int) (s : State) : (moveIdx d s).valid = s.valid := rfl
@[simp] theorem moveIdx_params (d : Int) (s : State) : (moveIdx d s).params = s.params := rfl
@[simp] theorem moveIdx_host (d : Int) (s : State) : (moveIdx d s).host = s.host := rfl
@[simp] theorem moveIdx_readData (d : Int) (s : State) : (moveIdx d s).readData = s.readData := rfl

@[simp] theorem bumpB1_offset (s : State) : (bumpB1 s).offset = s.offset := rfl
@[simp] theorem bumpB1_bank (s : State) : (bumpB1 s).bank = s.bank := rfl
@[simp] theorem bumpB1_pos (s : State) : (bumpB1 s).pos = s.pos := rfl
@[simp] theorem bumpB1_cmd (s : State) : (bumpB1 s).cmd = s.cmd := rfl
@[simp] theorem bumpB1_st (s : State) : (bumpB1 s).st = s.st := rfl
@[simp] theorem bumpB1_err (s : State) : (bumpB1 s).err = s.err := rfl
@[simp] theorem bumpB1_errPos (s : State) : (bumpB1 s).errPos = s.errPos := rfl
@[simp] theorem bumpB1_tilein (s : State) : (bumpB1 s).tilein = s.tilein := rfl
@[simp] theorem bumpB1_slot (s : State) : (bumpB1 s).slot = s.slot := rfl
@[simp] theorem bumpB1_vstart (s : State) : (bumpB1 s).vstart = s.vstart := rfl
@[simp] theorem bumpB1_baseSel (s : State) : (bumpB1 s).baseSel = s.baseSel := rfl
@[simp] theorem bumpB1_cur (s : State) : (bumpB1 s).cur = s.cur := rfl
@[simp] theorem bumpB1_len (s : State) : (bumpB1 s).len = s.len := rfl
@[simp] theorem bumpB1_work (s : State) : (bumpB1 s).work = { s.work with b1 := s.work.b1 + 1#8 } := rfl
@[simp] theorem bumpB1_gen (s : State) : (bumpB1 s).gen = s.gen := rfl
@[simp] theorem bumpB1_rom (s : State) : (bumpB1 s).rom = s.rom := rfl
@[simp] theorem bumpB1_romSize (s : State) : (bumpB1 s).romSize = s.romSize := rfl
@[simp] theorem bumpB1_out (s : State) : (bumpB1 s).out = s.out := rfl
@[simp] theorem bumpB1_tbl (s : State) : (bumpB1 s).tbl = s.tbl := rfl
@[simp] theorem bumpB1_win (s : State) : (bumpB1 s).win = s.win := rfl
@[simp] theorem bumpB1_engine (s : State) : (bumpB1 s).engine = s.engine := rfl
@[simp] theorem bumpB1_valid (s : State) : (bumpB1 s).valid = s.valid := rfl
@[simp] theorem bumpB1_params (s : State) : (bumpB1 s).params = s.params := rfl
@[simp] theorem bumpB1_host (s : State) : (bumpB1 s).host = s.host := rfl
@[simp] theorem bumpB1_readData (s : State) : (bumpB1 s).readData = s.readData := rfl

@[simp] theorem consume_offset (s : State) : (consume s).offset = s.offset := rfl
@[simp] theorem consume_bank (s : State) : (consume s).bank = s.bank := rfl
@[simp] theorem consume_pos (s : State) : (consume s).pos = s.pos := rfl
@[simp] theorem consume_cmd (s : State) : (consume s).cmd = s.cmd := rfl
@[simp] theorem consume_st (s : State) : (consume s).st = s.st := rfl
@[simp] theorem consume_err (s : State) : (consume s).err = s.err := rfl
@[simp] theorem consume_errPos (s : State) : (consume s).errPos = s.errPos := rfl
@[simp] theorem consume_tilein (s : State) : (consume s).tilein = s.tilein := rfl
@[simp] theorem consume_slot (s : State) : (consume s).slot = s.slot := rfl
@[simp] theorem consume_vstart (s : State) : (consume s).vstart = s.vstart := rfl
@[simp] theorem consume_baseSel (s : State) : (consume s).baseSel = s.baseSel := rfl
@[simp] theorem consume_cur (s : State) : (consume s).cur = s.cur + 1 := rfl
@[simp] theorem consume_len (s : State) : (consume s).len = s.len := rfl
@[simp] theorem consume_work (s : State) : (consume s).work = s.work := rfl
@[simp] theorem consume_gen (s : State) : (consume s).gen = s.gen := rfl
@[simp] theorem consume_rom (s : State) : (consume s).rom = s.rom := rfl
@[simp] theorem consume_romSize (s : State) : (consume s).romSize = s.romSize := rfl
@[simp] theorem consume_out (s : State) : (consume s).out = s.out := rfl
@[simp] theorem consume_tbl (s : State) : (consume s).tbl = s.tbl := rfl
@[simp] theorem consume_win (s : State) : (consume s).win = s.win := rfl
@[simp] theorem consume_engine (s : State) : (consume s).engine = s.engine := rfl
@[simp] theorem consume_valid (s : State) : (consume s).valid = s.valid := rfl
@[simp] theorem consume_params (s : State) : (consume s).params = s.params := rfl
@[simp] theorem consume_host (s : State) : (consume s).host = s.host := rfl
@[simp] theorem consume_readData (s : State) : (consume s).readData = s.readData := rfl

@[simp] theorem headS_offset (op : Byte) (s : State) : (headS op s).offset = s.offset := rfl
@[simp] theorem headS_bank (op : Byte) (s : State) : (headS op s).bank = s.bank := rfl
@[simp] theorem headS_pos (op : Byte) (s : State) : (headS op s).pos = s.pos := rfl
@[simp] theorem headS_cmd (op : Byte) (s : State) : (headS op s).cmd = s.cmd := rfl
@[simp] theorem headS_st (op : Byte) (s : State) : (headS op s).st = s.st := rfl
@[simp] theorem headS_err (op : Byte) (s : State) : (headS op s).err = s.err := rfl
@[simp] theorem headS_errPos (op : Byte) (s : State) : (headS op s).errPos = s.errPos := rfl
@[simp] theorem headS_tilein (op : Byte) (s : State) : (headS op s).tilein = s.tilein := rfl
@[simp] theorem headS_slot (op : Byte) (s : State) : (headS op s).slot = s.slot := rfl
@[simp] theorem headS_vstart (op : Byte) (s : State) : (headS op s).vstart = s.vstart := rfl
@[simp] theorem headS_baseSel (op : Byte) (s : State) : (headS op s).baseSel = s.baseSel := rfl
@[simp] theorem headS_cur (op : Byte) (s : State) : (headS op s).cur = s.cur + 1 := rfl
@[simp] theorem headS_len (op : Byte) (s : State) : (headS op s).len = s.len := rfl
@[simp] theorem headS_gen (op : Byte) (s : State) : (headS op s).gen = s.gen := rfl
@[simp] theorem headS_rom (op : Byte) (s : State) : (headS op s).rom = s.rom := rfl
@[simp] theorem headS_romSize (op : Byte) (s : State) : (headS op s).romSize = s.romSize := rfl
@[simp] theorem headS_out (op : Byte) (s : State) : (headS op s).out = s.out := rfl
@[simp] theorem headS_tbl (op : Byte) (s : State) : (headS op s).tbl = s.tbl := rfl
@[simp] theorem headS_win (op : Byte) (s : State) : (headS op s).win = s.win := rfl
@[simp] theorem headS_engine (op : Byte) (s : State) : (headS op s).engine = s.engine := rfl
@[simp] theorem headS_valid (op : Byte) (s : State) : (headS op s).valid = s.valid := rfl
@[simp] theorem headS_params (op : Byte) (s : State) : (headS op s).params = s.params := rfl
@[simp] theorem headS_host (op : Byte) (s : State) : (headS op s).host = s.host := rfl
@[simp] theorem headS_readData (op : Byte) (s : State) : (headS op s).readData = s.readData := rfl

@[simp] theorem headX_offset (op : Byte) (cnt : Byte) (s : State) : (headX op cnt s).offset = s.offset := rfl
@[simp] theorem headX_bank (op : Byte) (cnt : Byte) (s : State) : (headX op cnt s).bank = s.bank := rfl
@[simp] theorem headX_pos (op : Byte) (cnt : Byte) (s : State) : (headX op cnt s).pos = s.pos := rfl
@[simp] theorem headX_cmd (op : Byte) (cnt : Byte) (s : State) : (headX op cnt s).cmd = s.cmd := rfl
@[simp] theorem headX_st (op : Byte) (cnt : Byte) (s : State) : (headX op cnt s).st = s.st := rfl
@[simp] theorem headX_err (op : Byte) (cnt : Byte) (s : State) : (headX op cnt s).err = s.err := rfl
@[simp] theorem headX_errPos (op : Byte) (cnt : Byte) (s : State) : (headX op cnt s).errPos = s.errPos := rfl
@[simp] theorem headX_tilein (op : Byte) (cnt : Byte) (s : State) : (headX op cnt s).tilein = s.tilein := rfl
@[simp] theorem headX_slot (op : Byte) (cnt : Byte) (s : State) : (headX op cnt s).slot = s.slot := rfl
@[simp] theorem headX_vstart (op : Byte) (cnt : Byte) (s : State) : (headX op cnt s).vstart = s.vstart := rfl
@[simp] theorem headX_baseSel (op : Byte) (cnt : Byte) (s : State) : (headX op cnt s).baseSel = s.baseSel := rfl
@[simp] theorem headX_cur (op : Byte) (cnt : Byte) (s : State) : (headX op cnt s).cur = s.cur + 2 := rfl
@[simp] theorem headX_len (op : Byte) (cnt : Byte) (s : State) : (headX op cnt s).len = s.len := rfl
@[simp] theorem headX_gen (op : Byte) (cnt : Byte) (s : State) : (headX op cnt s).gen = s.gen := rfl
@[simp] theorem headX_rom (op : Byte) (cnt : Byte) (s : State) : (headX op cnt s).rom = s.rom := rfl
@[simp] theorem headX_romSize (op : Byte) (cnt : Byte) (s : State) : (headX op cnt s).romSize = s.romSize := rfl
@[simp] theorem headX_out (op : Byte) (cnt : Byte) (s : State) : (headX op cnt s).out = s.out := rfl
@[simp] theorem headX_tbl (op : Byte) (cnt : Byte) (s : State) : (headX op cnt s).tbl = s.tbl := rfl
@[simp] theorem headX_win (op : Byte) (cnt : Byte) (s : State) : (headX op cnt s).win = s.win := rfl
@[simp] theorem headX_engine (op : Byte) (cnt : Byte) (s : State) : (headX op cnt s).engine = s.engine := rfl
@[simp] theorem headX_valid (op : Byte) (cnt : Byte) (s : State) : (headX op cnt s).valid = s.valid := rfl
@[simp] theorem headX_params (op : Byte) (cnt : Byte) (s : State) : (headX op cnt s).params = s.params := rfl
@[simp] theorem headX_host (op : Byte) (cnt : Byte) (s : State) : (headX op cnt s).host = s.host := rfl
@[simp] theorem headX_readData (op : Byte) (cnt : Byte) (s : State) : (headX op cnt s).readData = s.readData := rfl

@[simp] theorem headE_offset (s : State) : (headE s).offset = s.offset := rfl
@[simp] theorem headE_bank (s : State) : (headE s).bank = s.bank := rfl
@[simp] theorem headE_pos (s : State) : (headE s).pos = s.pos := rfl
@[simp] theorem headE_cmd (s : State) : (headE s).cmd = s.cmd := rfl
@[simp] theorem headE_st (s : State) : (headE s).st = s.st := rfl
@[simp] theorem headE_err (s : State) : (headE s).err = s.err := rfl
@[simp] theorem headE_errPos (s : State) : (headE s).errPos = s.errPos := rfl
@[simp] theorem headE_tilein (s : State) : (headE s).tilein = s.tilein := rfl
@[simp] theorem headE_slot (s : State) : (headE s).slot = s.slot := rfl
@[simp] theorem headE_vstart (s : State) : (headE s).vstart = s.vstart := rfl
@[simp] theorem headE_baseSel (s : State) : (headE s).baseSel = s.baseSel := rfl
@[simp] theorem headE_cur (s : State) : (headE s).cur = s.cur + 1 := rfl
@[simp] theorem headE_len (s : State) : (headE s).len = s.len := rfl
@[simp] theorem headE_work (s : State) : (headE s).work = { s.work with op := 0xFF#8 } := rfl
@[simp] theorem headE_gen (s : State) : (headE s).gen = s.gen := rfl
@[simp] theorem headE_rom (s : State) : (headE s).rom = s.rom := rfl
@[simp] theorem headE_romSize (s : State) : (headE s).romSize = s.romSize := rfl
@[simp] theorem headE_out (s : State) : (headE s).out = s.out := rfl
@[simp] theorem headE_tbl (s : State) : (headE s).tbl = s.tbl := rfl
@[simp] theorem headE_win (s : State) : (headE s).win = s.win := rfl
@[simp] theorem headE_engine (s : State) : (headE s).engine = s.engine := rfl
@[simp] theorem headE_valid (s : State) : (headE s).valid = s.valid := rfl
@[simp] theorem headE_params (s : State) : (headE s).params = s.params := rfl
@[simp] theorem headE_host (s : State) : (headE s).host = s.host := rfl
@[simp] theorem headE_readData (s : State) : (headE s).readData = s.readData := rfl

@[simp] theorem takeB1_offset (b : Byte) (s : State) : (takeB1 b s).offset = s.offset := rfl
@[simp] theorem takeB1_bank (b : Byte) (s : State) : (takeB1 b s).bank = s.bank := rfl
@[simp] theorem takeB1_pos (b : Byte) (s : State) : (takeB1 b s).pos = s.pos := rfl
@[simp] theorem takeB1_cmd (b : Byte) (s : State) : (takeB1 b s).cmd = s.cmd := rfl
@[simp] theorem takeB1_st (b : Byte) (s : State) : (takeB1 b s).st = s.st := rfl
@[simp] theorem takeB1_err (b : Byte) (s : State) : (takeB1 b s).err = s.err := rfl
@[simp] theorem takeB1_errPos (b : Byte) (s : State) : (takeB1 b s).errPos = s.errPos := rfl
@[simp] theorem takeB1_tilein (b : Byte) (s : State) : (takeB1 b s).tilein = s.tilein := rfl
@[simp] theorem takeB1_slot (b : Byte) (s : State) : (takeB1 b s).slot = s.slot := rfl
@[simp] theorem takeB1_vstart (b : Byte) (s : State) : (takeB1 b s).vstart = s.vstart := rfl
@[simp] theorem takeB1_baseSel (b : Byte) (s : State) : (takeB1 b s).baseSel = s.baseSel := rfl
@[simp] theorem takeB1_cur (b : Byte) (s : State) : (takeB1 b s).cur = s.cur + 1 := rfl
@[simp] theorem takeB1_len (b : Byte) (s : State) : (takeB1 b s).len = s.len := rfl
@[simp] theorem takeB1_work (b : Byte) (s : State) : (takeB1 b s).work = { s.work with b1 := b } := rfl
@[simp] theorem takeB1_gen (b : Byte) (s : State) : (takeB1 b s).gen = s.gen := rfl
@[simp] theorem takeB1_rom (b : Byte) (s : State) : (takeB1 b s).rom = s.rom := rfl
@[simp] theorem takeB1_romSize (b : Byte) (s : State) : (takeB1 b s).romSize = s.romSize := rfl
@[simp] theorem takeB1_out (b : Byte) (s : State) : (takeB1 b s).out = s.out := rfl
@[simp] theorem takeB1_tbl (b : Byte) (s : State) : (takeB1 b s).tbl = s.tbl := rfl
@[simp] theorem takeB1_win (b : Byte) (s : State) : (takeB1 b s).win = s.win := rfl
@[simp] theorem takeB1_engine (b : Byte) (s : State) : (takeB1 b s).engine = s.engine := rfl
@[simp] theorem takeB1_valid (b : Byte) (s : State) : (takeB1 b s).valid = s.valid := rfl
@[simp] theorem takeB1_params (b : Byte) (s : State) : (takeB1 b s).params = s.params := rfl
@[simp] theorem takeB1_host (b : Byte) (s : State) : (takeB1 b s).host = s.host := rfl
@[simp] theorem takeB1_readData (b : Byte) (s : State) : (takeB1 b s).readData = s.readData := rfl

@[simp] theorem takeB2_offset (b : Byte) (s : State) : (takeB2 b s).offset = s.offset := rfl
@[simp] theorem takeB2_bank (b : Byte) (s : State) : (takeB2 b s).bank = s.bank := rfl
@[simp] theorem takeB2_pos (b : Byte) (s : State) : (takeB2 b s).pos = s.pos := rfl
@[simp] theorem takeB2_cmd (b : Byte) (s : State) : (takeB2 b s).cmd = s.cmd := rfl
@[simp] theorem takeB2_st (b : Byte) (s : State) : (takeB2 b s).st = s.st := rfl
@[simp] theorem takeB2_err (b : Byte) (s : State) : (takeB2 b s).err = s.err := rfl
@[simp] theorem takeB2_errPos (b : Byte) (s : State) : (takeB2 b s).errPos = s.errPos := rfl
@[simp] theorem takeB2_tilein (b : Byte) (s : State) : (takeB2 b s).tilein = s.tilein := rfl
@[simp] theorem takeB2_slot (b : Byte) (s : State) : (takeB2 b s).slot = s.slot := rfl
@[simp] theorem takeB2_vstart (b : Byte) (s : State) : (takeB2 b s).vstart = s.vstart := rfl
@[simp] theorem takeB2_baseSel (b : Byte) (s : State) : (takeB2 b s).baseSel = s.baseSel := rfl
@[simp] theorem takeB2_cur (b : Byte) (s : State) : (takeB2 b s).cur = s.cur + 1 := rfl
@[simp] theorem takeB2_len (b : Byte) (s : State) : (takeB2 b s).len = s.len := rfl
@[simp] theorem takeB2_work (b : Byte) (s : State) : (takeB2 b s).work = { s.work with b2 := b } := rfl
@[simp] theorem takeB2_gen (b : Byte) (s : State) : (takeB2 b s).gen = s.gen := rfl
@[simp] theorem takeB2_rom (b : Byte) (s : State) : (takeB2 b s).rom = s.rom := rfl
@[simp] theorem takeB2_romSize (b : Byte) (s : State) : (takeB2 b s).romSize = s.romSize := rfl
@[simp] theorem takeB2_out (b : Byte) (s : State) : (takeB2 b s).out = s.out := rfl
@[simp] theorem takeB2_tbl (b : Byte) (s : State) : (takeB2 b s).tbl = s.tbl := rfl
@[simp] theorem takeB2_win (b : Byte) (s : State) : (takeB2 b s).win = s.win := rfl
@[simp] theorem takeB2_engine (b : Byte) (s : State) : (takeB2 b s).engine = s.engine := rfl
@[simp] theorem takeB2_valid (b : Byte) (s : State) : (takeB2 b s).valid = s.valid := rfl
@[simp] theorem takeB2_params (b : Byte) (s : State) : (takeB2 b s).params = s.params := rfl
@[simp] theorem takeB2_host (b : Byte) (s : State) : (takeB2 b s).host = s.host := rfl
@[simp] theorem takeB2_readData (b : Byte) (s : State) : (takeB2 b s).readData = s.readData := rfl

@[simp] theorem readStart_offset (start : Half) (s : State) : (readStart start s).offset = s.offset := rfl
@[simp] theorem readStart_bank (start : Half) (s : State) : (readStart start s).bank = s.bank := rfl
@[simp] theorem readStart_pos (start : Half) (s : State) : (readStart start s).pos = s.pos := rfl
@[simp] theorem readStart_cmd (start : Half) (s : State) : (readStart start s).cmd = s.cmd := rfl
@[simp] theorem readStart_st (start : Half) (s : State) : (readStart start s).st = s.st := rfl
@[simp] theorem readStart_err (start : Half) (s : State) : (readStart start s).err = s.err := rfl
@[simp] theorem readStart_errPos (start : Half) (s : State) : (readStart start s).errPos = s.errPos := rfl
@[simp] theorem readStart_tilein (start : Half) (s : State) : (readStart start s).tilein = s.tilein := rfl
@[simp] theorem readStart_slot (start : Half) (s : State) : (readStart start s).slot = s.slot := rfl
@[simp] theorem readStart_vstart (start : Half) (s : State) : (readStart start s).vstart = s.vstart := rfl
@[simp] theorem readStart_baseSel (start : Half) (s : State) : (readStart start s).baseSel = s.baseSel := rfl
@[simp] theorem readStart_cur (start : Half) (s : State) : (readStart start s).cur = s.cur + 2 := rfl
@[simp] theorem readStart_len (start : Half) (s : State) : (readStart start s).len = s.len := rfl
@[simp] theorem readStart_gen (start : Half) (s : State) : (readStart start s).gen = s.gen := rfl
@[simp] theorem readStart_rom (start : Half) (s : State) : (readStart start s).rom = s.rom := rfl
@[simp] theorem readStart_romSize (start : Half) (s : State) : (readStart start s).romSize = s.romSize := rfl
@[simp] theorem readStart_out (start : Half) (s : State) : (readStart start s).out = s.out := rfl
@[simp] theorem readStart_tbl (start : Half) (s : State) : (readStart start s).tbl = s.tbl := rfl
@[simp] theorem readStart_win (start : Half) (s : State) : (readStart start s).win = s.win := rfl
@[simp] theorem readStart_engine (start : Half) (s : State) : (readStart start s).engine = s.engine := rfl
@[simp] theorem readStart_valid (start : Half) (s : State) : (readStart start s).valid = s.valid := rfl
@[simp] theorem readStart_params (start : Half) (s : State) : (readStart start s).params = s.params := rfl
@[simp] theorem readStart_host (start : Half) (s : State) : (readStart start s).host = s.host := rfl
@[simp] theorem readStart_readData (start : Half) (s : State) : (readStart start s).readData = s.readData := rfl

@[simp] theorem startAt_offset (p : Nat) (s : State) : (startAt p s).offset = s.offset := rfl
@[simp] theorem startAt_bank (p : Nat) (s : State) : (startAt p s).bank = s.bank := rfl
@[simp] theorem startAt_pos (p : Nat) (s : State) : (startAt p s).pos = s.pos := rfl
@[simp] theorem startAt_cmd (p : Nat) (s : State) : (startAt p s).cmd = s.cmd := rfl
@[simp] theorem startAt_st (p : Nat) (s : State) : (startAt p s).st = s.st := rfl
@[simp] theorem startAt_err (p : Nat) (s : State) : (startAt p s).err = s.err := rfl
@[simp] theorem startAt_errPos (p : Nat) (s : State) : (startAt p s).errPos = s.errPos := rfl
@[simp] theorem startAt_tilein (p : Nat) (s : State) : (startAt p s).tilein = s.tilein := rfl
@[simp] theorem startAt_slot (p : Nat) (s : State) : (startAt p s).slot = s.slot := rfl
@[simp] theorem startAt_vstart (p : Nat) (s : State) : (startAt p s).vstart = s.vstart := rfl
@[simp] theorem startAt_baseSel (p : Nat) (s : State) : (startAt p s).baseSel = s.baseSel := rfl
@[simp] theorem startAt_cur (p : Nat) (s : State) : (startAt p s).cur = p := rfl
@[simp] theorem startAt_len (p : Nat) (s : State) : (startAt p s).len = 0 := rfl
@[simp] theorem startAt_work (p : Nat) (s : State) : (startAt p s).work = s.work := rfl
@[simp] theorem startAt_gen (p : Nat) (s : State) : (startAt p s).gen = s.gen := rfl
@[simp] theorem startAt_rom (p : Nat) (s : State) : (startAt p s).rom = s.rom := rfl
@[simp] theorem startAt_romSize (p : Nat) (s : State) : (startAt p s).romSize = s.romSize := rfl
@[simp] theorem startAt_out (p : Nat) (s : State) : (startAt p s).out = s.out := rfl
@[simp] theorem startAt_tbl (p : Nat) (s : State) : (startAt p s).tbl = s.tbl := rfl
@[simp] theorem startAt_win (p : Nat) (s : State) : (startAt p s).win = s.win := rfl
@[simp] theorem startAt_engine (p : Nat) (s : State) : (startAt p s).engine = s.engine := rfl
@[simp] theorem startAt_valid (p : Nat) (s : State) : (startAt p s).valid = s.valid := rfl
@[simp] theorem startAt_params (p : Nat) (s : State) : (startAt p s).params = s.params := rfl
@[simp] theorem startAt_host (p : Nat) (s : State) : (startAt p s).host = s.host := rfl
@[simp] theorem startAt_readData (p : Nat) (s : State) : (startAt p s).readData = s.readData := rfl

@[simp] theorem beginDecode_offset (e : Engine) (s : State) : (beginDecode e s).offset = s.offset := rfl
@[simp] theorem beginDecode_bank (e : Engine) (s : State) : (beginDecode e s).bank = s.bank := rfl
@[simp] theorem beginDecode_pos (e : Engine) (s : State) : (beginDecode e s).pos = s.pos := rfl
@[simp] theorem beginDecode_cmd (e : Engine) (s : State) : (beginDecode e s).cmd = s.cmd := rfl
@[simp] theorem beginDecode_st (e : Engine) (s : State) : (beginDecode e s).st = s.st := rfl
@[simp] theorem beginDecode_err (e : Engine) (s : State) : (beginDecode e s).err = s.err := rfl
@[simp] theorem beginDecode_errPos (e : Engine) (s : State) : (beginDecode e s).errPos = s.errPos := rfl
@[simp] theorem beginDecode_tilein (e : Engine) (s : State) : (beginDecode e s).tilein = s.tilein := rfl
@[simp] theorem beginDecode_slot (e : Engine) (s : State) : (beginDecode e s).slot = s.slot := rfl
@[simp] theorem beginDecode_vstart (e : Engine) (s : State) : (beginDecode e s).vstart = s.vstart := rfl
@[simp] theorem beginDecode_baseSel (e : Engine) (s : State) : (beginDecode e s).baseSel = s.baseSel := rfl
@[simp] theorem beginDecode_cur (e : Engine) (s : State) : (beginDecode e s).cur = s.cur := rfl
@[simp] theorem beginDecode_len (e : Engine) (s : State) : (beginDecode e s).len = s.len := rfl
@[simp] theorem beginDecode_work (e : Engine) (s : State) : (beginDecode e s).work = s.work := rfl
@[simp] theorem beginDecode_gen (e : Engine) (s : State) : (beginDecode e s).gen = s.gen := rfl
@[simp] theorem beginDecode_rom (e : Engine) (s : State) : (beginDecode e s).rom = s.rom := rfl
@[simp] theorem beginDecode_romSize (e : Engine) (s : State) : (beginDecode e s).romSize = s.romSize := rfl
@[simp] theorem beginDecode_out (e : Engine) (s : State) : (beginDecode e s).out = s.out := rfl
@[simp] theorem beginDecode_tbl (e : Engine) (s : State) : (beginDecode e s).tbl = s.tbl := rfl
@[simp] theorem beginDecode_win (e : Engine) (s : State) : (beginDecode e s).win = s.win := rfl
@[simp] theorem beginDecode_engine (e : Engine) (s : State) : (beginDecode e s).engine = e := rfl
@[simp] theorem beginDecode_valid (e : Engine) (s : State) : (beginDecode e s).valid = s.valid.withoutResults e := rfl
@[simp] theorem beginDecode_params (e : Engine) (s : State) : (beginDecode e s).params = s.params := rfl
@[simp] theorem beginDecode_host (e : Engine) (s : State) : (beginDecode e s).host = s.host := rfl
@[simp] theorem beginDecode_readData (e : Engine) (s : State) : (beginDecode e s).readData = s.readData := rfl

@[simp] theorem done_offset (s : State) : (done s).offset = s.offset := rfl
@[simp] theorem done_bank (s : State) : (done s).bank = s.bank := rfl
@[simp] theorem done_pos (s : State) : (done s).pos = s.pos := rfl
@[simp] theorem done_cmd (s : State) : (done s).cmd = s.cmd := rfl
@[simp] theorem done_st (s : State) : (done s).st = .done := rfl
@[simp] theorem done_err (s : State) : (done s).err = .none := rfl
@[simp] theorem done_errPos (s : State) : (done s).errPos = s.errPos := rfl
@[simp] theorem done_tilein (s : State) : (done s).tilein = s.tilein := rfl
@[simp] theorem done_slot (s : State) : (done s).slot = s.slot := rfl
@[simp] theorem done_vstart (s : State) : (done s).vstart = s.vstart := rfl
@[simp] theorem done_baseSel (s : State) : (done s).baseSel = s.baseSel := rfl
@[simp] theorem done_cur (s : State) : (done s).cur = s.cur := rfl
@[simp] theorem done_len (s : State) : (done s).len = s.len := rfl
@[simp] theorem done_work (s : State) : (done s).work = s.work := rfl
@[simp] theorem done_gen (s : State) : (done s).gen = s.gen := rfl
@[simp] theorem done_rom (s : State) : (done s).rom = s.rom := rfl
@[simp] theorem done_romSize (s : State) : (done s).romSize = s.romSize := rfl
@[simp] theorem done_out (s : State) : (done s).out = s.out := rfl
@[simp] theorem done_tbl (s : State) : (done s).tbl = s.tbl := rfl
@[simp] theorem done_win (s : State) : (done s).win = s.win := rfl
@[simp] theorem done_engine (s : State) : (done s).engine = .idle := rfl
@[simp] theorem done_valid (s : State) : (done s).valid = s.valid := rfl
@[simp] theorem done_params (s : State) : (done s).params = s.params := rfl
@[simp] theorem done_host (s : State) : (done s).host = s.host := rfl
@[simp] theorem done_readData (s : State) : (done s).readData = s.readData := rfl

@[simp] theorem raise_offset (e : ErrKind) (i : Int) (s : State) : (raise e i s).offset = s.offset := rfl
@[simp] theorem raise_bank (e : ErrKind) (i : Int) (s : State) : (raise e i s).bank = s.bank := rfl
@[simp] theorem raise_pos (e : ErrKind) (i : Int) (s : State) : (raise e i s).pos = s.pos := rfl
@[simp] theorem raise_cmd (e : ErrKind) (i : Int) (s : State) : (raise e i s).cmd = s.cmd := rfl
@[simp] theorem raise_st (e : ErrKind) (i : Int) (s : State) : (raise e i s).st = .fault := rfl
@[simp] theorem raise_err (e : ErrKind) (i : Int) (s : State) : (raise e i s).err = e := rfl
@[simp] theorem raise_errPos (e : ErrKind) (i : Int) (s : State) : (raise e i s).errPos = i := rfl
@[simp] theorem raise_tilein (e : ErrKind) (i : Int) (s : State) : (raise e i s).tilein = s.tilein := rfl
@[simp] theorem raise_slot (e : ErrKind) (i : Int) (s : State) : (raise e i s).slot = s.slot := rfl
@[simp] theorem raise_vstart (e : ErrKind) (i : Int) (s : State) : (raise e i s).vstart = s.vstart := rfl
@[simp] theorem raise_baseSel (e : ErrKind) (i : Int) (s : State) : (raise e i s).baseSel = s.baseSel := rfl
@[simp] theorem raise_cur (e : ErrKind) (i : Int) (s : State) : (raise e i s).cur = s.cur := rfl
@[simp] theorem raise_len (e : ErrKind) (i : Int) (s : State) : (raise e i s).len = s.len := rfl
@[simp] theorem raise_work (e : ErrKind) (i : Int) (s : State) : (raise e i s).work = s.work := rfl
@[simp] theorem raise_gen (e : ErrKind) (i : Int) (s : State) : (raise e i s).gen = s.gen := rfl
@[simp] theorem raise_rom (e : ErrKind) (i : Int) (s : State) : (raise e i s).rom = s.rom := rfl
@[simp] theorem raise_romSize (e : ErrKind) (i : Int) (s : State) : (raise e i s).romSize = s.romSize := rfl
@[simp] theorem raise_out (e : ErrKind) (i : Int) (s : State) : (raise e i s).out = s.out := rfl
@[simp] theorem raise_tbl (e : ErrKind) (i : Int) (s : State) : (raise e i s).tbl = s.tbl := rfl
@[simp] theorem raise_win (e : ErrKind) (i : Int) (s : State) : (raise e i s).win = s.win := rfl
@[simp] theorem raise_engine (e : ErrKind) (i : Int) (s : State) : (raise e i s).engine = .idle := rfl
@[simp] theorem raise_valid (e : ErrKind) (i : Int) (s : State) : (raise e i s).valid = s.valid.withoutResults s.engine := rfl
@[simp] theorem raise_params (e : ErrKind) (i : Int) (s : State) : (raise e i s).params = s.params := rfl
@[simp] theorem raise_host (e : ErrKind) (i : Int) (s : State) : (raise e i s).host = s.host := rfl
@[simp] theorem raise_readData (e : ErrKind) (i : Int) (s : State) : (raise e i s).readData = s.readData := rfl
@[simp] theorem headS_work (op : Byte) (s : State) : (headS op s).work =
    { s.work with op := op, tag := tagS op, cnt := op &&& 0x1F#8, n := (op &&& 0x1F#8).zeroExtend 9 + 1#9 } := rfl

@[simp] theorem headX_work (op cnt : Byte) (s : State) : (headX op cnt s).work =
    { s.work with op := op, tag := tagX op, cnt := cnt, n := cnt.zeroExtend 9 + 1#9 } := rfl

@[simp] theorem readStart_work (start : Half) (s : State) : (readStart start s).work =
    { s.work with b1 := startHi start, b2 := startLo start, idx := ((startOf (startHi start) (startLo start)).toNat : Int) } := rfl

@[simp] theorem Flow.bind_ok (s : State) (g : State → Flow) : (Flow.ok s).bind g = g s := rfl

@[simp] theorem Flow.bind_trap (e : ErrKind) (i : Int) (s : State) (g : State → Flow) :
    (Flow.trap e i s).bind g = .trap e i s := rfl

@[simp] theorem Flow.outcome_ok (s : State) : (Flow.ok s).outcome = .next s := rfl

@[simp] theorem Flow.outcome_trap (e : ErrKind) (i : Int) (s : State) : (Flow.trap e i s).outcome = .next (raise e i s) := rfl

/-- An instruction always ends in a next state: an error is taken (60 R250). -/
theorem Flow.outcome_next (f : Flow) : ∃ t, f.outcome = .next t := by
  cases f with
  | ok s => exact ⟨s, rfl⟩
  | trap e i s => exact ⟨raise e i s, rfl⟩

theorem Flow.bind_assoc (f : Flow) (g h : State → Flow) : (f.bind g).bind h = f.bind (fun s => (g s).bind h) := by
  cases f <;> rfl

@[simp] theorem withoutResults_out (v : Valid) (e : Engine) : (v.withoutResults e).out = false := by cases e <;> rfl

@[simp] theorem withoutResults_win_compose (v : Valid) : (v.withoutResults .compose).win = false := rfl

@[simp] theorem withoutResults_win_decomp (v : Valid) : (v.withoutResults .decomp).win = v.win := rfl

@[simp] theorem withoutResults_win_idle (v : Valid) : (v.withoutResults .idle).win = v.win := rfl

end Sys2Proof.Machine
end

