-- ==== Sys2Proof/Laws/Ops.lean ====
section
/-! SUPPORT. One lemma for each shared operation that says what it can do: the accesses, the loops of the behaviours when
they go through, and what every part of a stream instruction keeps (`Within`). -/

namespace Sys2Proof.Machine

/-! ### The accesses -/

theorem emit_ok {v : Byte} {s : State} (h : s.len < s.params.outCap) :
    emit v s = .ok (push v s) := by
  rw [emit, if_neg (by omega)]

theorem emit_full {v : Byte} {s : State} (h : s.params.outCap ≤ s.len) : emit v s = .trap .outputOverflow s.len s := by
  rw [emit, if_pos h]

theorem outRead_ok {i : Int} {s : State} {k : Byte → Flow} (h0 : 0 ≤ i) (h : i < s.len) :
    outRead i s k = k (s.out.read i.toNat) := by
  rw [outRead, if_neg (by omega)]

theorem outRead_out {i : Int} {s : State} {k : Byte → Flow} (h : i < 0 ∨ (s.len : Int) ≤ i) :
    outRead i s k = .trap .outOfRange i s := by
  rw [outRead, if_pos h]

theorem startCheck_ok {s : State} (h : s.pos.toNat < s.romSize) : startCheck s = .ok s := by
  rw [startCheck, if_neg (by omega), if_neg (by omega)]

/-! ### What every part of a stream instruction keeps -/

/-- `t` comes from `s` by accesses of one stream instruction: only CUR, LEN, OUT and the working registers differ, CUR and
LEN do not fall, LEN stays within OUT_CAP, and OUT keeps its form and its bounds and its bytes below LEN. -/
structure Reached (s t : State) : Prop where
  only : OnlyStreamFields s t
  cur : s.cur ≤ t.cur
  len : s.len ≤ t.len
  cap : s.len ≤ s.params.outCap → t.len ≤ s.params.outCap
  wf : s.out.wf → t.out.wf
  within : s.out.within s.params.outCap → t.out.within s.params.outCap

theorem OnlyStreamFields.refl (s : State) : OnlyStreamFields s s := rfl

theorem OnlyStreamFields.trans {s t u : State} (h : OnlyStreamFields s t) (g : OnlyStreamFields t u) :
    OnlyStreamFields s u := by
  unfold OnlyStreamFields at *
  rw [g, h]

theorem OnlyStreamFields.params {s t : State} (h : OnlyStreamFields s t) : t.params = s.params := by
  unfold OnlyStreamFields at h
  rw [h]

theorem OnlyStreamFields.tbl {s t : State} (h : OnlyStreamFields s t) : t.tbl = s.tbl := by
  unfold OnlyStreamFields at h
  rw [h]

theorem OnlyStreamFields.rom {s t : State} (h : OnlyStreamFields s t) : t.rom = s.rom := by
  unfold OnlyStreamFields at h
  rw [h]

theorem OnlyStreamFields.romSize {s t : State} (h : OnlyStreamFields s t) : t.romSize = s.romSize := by
  unfold OnlyStreamFields at h
  rw [h]

theorem OnlyStreamFields.engine {s t : State} (h : OnlyStreamFields s t) : t.engine = s.engine := by
  unfold OnlyStreamFields at h
  rw [h]

theorem OnlyStreamFields.valid {s t : State} (h : OnlyStreamFields s t) : t.valid = s.valid := by
  unfold OnlyStreamFields at h
  rw [h]

theorem OnlyStreamFields.st {s t : State} (h : OnlyStreamFields s t) : t.st = s.st := by
  unfold OnlyStreamFields at h
  rw [h]

theorem OnlyStreamFields.err {s t : State} (h : OnlyStreamFields s t) : t.err = s.err := by
  unfold OnlyStreamFields at h
  rw [h]

theorem OnlyStreamFields.host {s t : State} (h : OnlyStreamFields s t) : t.host = s.host := by
  unfold OnlyStreamFields at h
  rw [h]

/-- An error taken from a state that a stream instruction reached. -/
theorem OnlyStreamFields.raise {s t : State} (h : OnlyStreamFields s t) (e : ErrKind) (i : Int) :
    OnlyErrorFields s (Machine.raise e i t) := by
  unfold OnlyStreamFields at h
  unfold OnlyErrorFields
  rw [h]
  unfold Machine.raise
  cases s.engine <;> rfl

theorem Reached.refl (s : State) : Reached s s := ⟨rfl, le_refl _, le_refl _, id, id, id⟩

theorem Reached.trans {s t u : State} (h : Reached s t) (g : Reached t u) : Reached s u := by
  have hp := h.only.params
  refine ⟨h.only.trans g.only, h.cur.trans g.cur, h.len.trans g.len, fun hc => ?_, fun hw => g.wf (h.wf hw), fun hw => ?_⟩
  · have := g.cap
    rw [hp] at this
    exact this (h.cap hc)
  · have := g.within
    rw [hp] at this
    exact this (h.within hw)

/-- A flow stays with what `s` reaches, and raises only what stream instructions raise. -/
def Within (s : State) : Flow → Prop
  | .ok t => Reached s t
  | .trap e _ t => Reached s t ∧ (e = .outOfRange ∨ e = .truncatedStream ∨ e = .outputOverflow)

theorem Within.bind {s : State} {f : Flow} {g : State → Flow} (hf : Within s f) (hg : ∀ t, f = .ok t → Within t (g t)) :
    Within s (f.bind g) := by
  cases f with
  | ok t =>
    have hg := hg t rfl
    rw [Flow.bind_ok]
    revert hg
    cases g t with
    | ok u => exact fun h => Reached.trans hf h
    | trap e i u => exact fun h => ⟨Reached.trans hf h.1, h.2⟩
  | trap e i t => exact hf

/-- A change of the working registers. -/
theorem setWork_reached (w : Work) (s : State) : Reached s (setWork w s) := ⟨rfl, le_refl _, le_refl _, id, id, id⟩

theorem consume_reached (s : State) : Reached s (consume s) := ⟨rfl, Nat.le_succ _, le_refl _, id, id, id⟩

theorem emit_within (v : Byte) (s : State) : Within s (emit v s) := by
  by_cases h : s.params.outCap ≤ s.len
  · rw [emit_full h]
    exact ⟨Reached.refl s, .inr (.inr rfl)⟩
  · rw [emit_ok (by omega)]
    exact ⟨rfl, le_refl _, Nat.le_succ _, fun _ => by show s.len + 1 ≤ _; omega, Memory.write_wf _ _,
      fun hw => Memory.write_within v hw (by omega)⟩

theorem outRead_within (i : Int) (s : State) (k : Byte → Flow) (hk : ∀ v, Within s (k v)) : Within s (outRead i s k) := by
  unfold outRead
  split
  · exact ⟨Reached.refl s, .inl rfl⟩
  · exact hk _

theorem Within.after {s t : State} {f : Flow} (h : Reached s t) (hf : Within t f) : Within s f :=
  Within.bind (f := .ok t) (g := fun _ => f) h fun u hu => by cases hu; exact hf

theorem loopK_within {body : State → Flow} (hb : ∀ s, Within s (body s)) (n : Nat) (s : State) : Within s (loopK body n s) := by
  induction n generalizing s with
  | zero => exact Reached.refl s
  | succ n ih => exact Within.after (setWork_reached _ s) (Within.bind (hb _) fun t _ => ih t)

theorem iterate_within {body : State → Flow} (hb : ∀ s, Within s (body s)) (n : Nat) (s : State) :
    Within s (iterate body n s) :=
  Within.after (setWork_reached _ s) (loopK_within hb n _)

theorem literalLoop_within (n : Nat) (data : List Byte) (s : State) : Within s (literalLoop n data s) := by
  induction n generalizing data s with
  | zero => exact Reached.refl s
  | succ n ih =>
    cases data with
    | nil => exact ⟨Reached.refl s, .inr (.inl rfl)⟩
    | cons b data =>
      exact Within.after ((setWork_reached _ s).trans (consume_reached _)) (Within.bind (emit_within b _) fun t _ => ih data t)

theorem literal_within (n : Nat) (data : List Byte) (s : State) : Within s (literal n data s) :=
  Within.after (setWork_reached _ s) (literalLoop_within n data _)

theorem copyBody_within (map : State → Byte → Byte) (move : Int) (s : State) : Within s (copyBody map move s) :=
  outRead_within _ _ _ fun _ => Within.bind (emit_within _ _) fun t _ => setWork_reached _ t

theorem headS_reached (op : Byte) (s : State) : Reached s (headS op s) := (consume_reached s).trans (setWork_reached _ _)

theorem headX_reached (op cnt : Byte) (s : State) : Reached s (headX op cnt s) :=
  ((consume_reached s).trans (consume_reached _)).trans (setWork_reached _ _)

theorem headE_reached (s : State) : Reached s (headE s) := (consume_reached s).trans (setWork_reached _ _)

theorem takeB1_reached (b : Byte) (s : State) : Reached s (takeB1 b s) := (consume_reached s).trans (setWork_reached _ _)

theorem takeB2_reached (b : Byte) (s : State) : Reached s (takeB2 b s) := (consume_reached s).trans (setWork_reached _ _)

theorem readStart_reached (start : Half) (s : State) : Reached s (readStart start s) :=
  ((takeB1_reached (startHi start) s).trans (takeB2_reached (startLo start) _)).trans (setWork_reached _ _)

theorem repeatByte_within (n : Nat) (b : Byte) (s : State) : Within s (repeatByte n b s) :=
  Within.after (takeB1_reached b s) (iterate_within (fun t => emit_within _ t) n _)

theorem repeatPair_within (n : Nat) (b1 b2 : Byte) (s : State) : Within s (repeatPair n b1 b2 s) :=
  Within.after ((takeB1_reached b1 s).trans (takeB2_reached b2 _))
    (iterate_within (fun t => Within.bind (emit_within _ t) fun u _ => emit_within _ u) n _)

theorem countUp_within (n : Nat) (seed : Byte) (s : State) : Within s (countUp n seed s) := by
  refine Within.after (takeB1_reached seed s) (iterate_within (fun t => ?_) n _)
  exact Within.bind (emit_within _ t) fun u _ => setWork_reached _ u

theorem copyForward_within (n : Nat) (start : Half) (s : State) : Within s (copyForward n start s) :=
  Within.after (readStart_reached start s) (iterate_within (copyBody_within _ _) n _)

theorem copyTable_within (n : Nat) (start : Half) (s : State) : Within s (copyTable n start s) :=
  Within.after (readStart_reached start s) (iterate_within (copyBody_within _ _) n _)

theorem copyBackward_within (n : Nat) (start : Half) (s : State) : Within s (copyBackward n start s) :=
  Within.after (readStart_reached start s) (iterate_within (copyBody_within _ _) n _)

/-- Every stream instruction but END is the outcome of a flow that stays within what it reaches. -/
theorem exec_stream_within (i : Instr) (s : State) (hi : i.space = .stream) (he : i ≠ .endStream) :
    ∃ f, exec i s = Flow.outcome f ∧ Within s f := by
  cases i with
  | lit c data => exact ⟨_, rfl, Within.after (headS_reached _ s) (literal_within _ _ _)⟩
  | rpt c b => exact ⟨_, rfl, Within.after (headS_reached _ s) (repeatByte_within _ _ _)⟩
  | pair c b1 b2 => exact ⟨_, rfl, Within.after (headS_reached _ s) (repeatPair_within _ _ _ _)⟩
  | inc c seed => exact ⟨_, rfl, Within.after (headS_reached _ s) (countUp_within _ _ _)⟩
  | fwd c start => exact ⟨_, rfl, Within.after (headS_reached _ s) (copyForward_within _ _ _)⟩
  | tbl c start => exact ⟨_, rfl, Within.after (headS_reached _ s) (copyTable_within _ _ _)⟩
  | bwd c start => exact ⟨_, rfl, Within.after (headS_reached _ s) (copyBackward_within _ _ _)⟩
  | litx x c data => exact ⟨_, rfl, Within.after (headX_reached _ _ s) (literal_within _ _ _)⟩
  | rptx x c b => exact ⟨_, rfl, Within.after (headX_reached _ _ s) (repeatByte_within _ _ _)⟩
  | pairx x c b1 b2 => exact ⟨_, rfl, Within.after (headX_reached _ _ s) (repeatPair_within _ _ _ _)⟩
  | incx x c seed => exact ⟨_, rfl, Within.after (headX_reached _ _ s) (countUp_within _ _ _)⟩
  | fwdx x c start => exact ⟨_, rfl, Within.after (headX_reached _ _ s) (copyForward_within _ _ _)⟩
  | tblx x c start => exact ⟨_, rfl, Within.after (headX_reached _ _ s) (copyTable_within _ _ _)⟩
  | bwdx x c start => exact ⟨_, rfl, Within.after (headX_reached _ _ s) (copyBackward_within _ _ _)⟩
  | litxD x c data => exact ⟨_, rfl, Within.after (headX_reached _ _ s) (literal_within _ _ _)⟩
  | litxDFE c data => exact ⟨_, rfl, Within.after (headX_reached _ _ s) (literal_within _ _ _)⟩
  | endStream => exact absurd rfl he
  | xlat => cases hi
  | gentbl => cases hi
  | decomp => cases hi
  | compose => cases hi
  | tslot => cases hi

end Sys2Proof.Machine
end

