-- ==== Sys2Proof/Laws/Behaviours.lean ====
section
/-! SUPPORT. What the loops of the behaviours do when every access succeeds, and where they raise otherwise. -/

namespace Sys2Proof.Machine

/-- The state with bytes appended to OUT, the cursor and the working registers set. -/
def extend (s : State) (bs : List Byte) (cur : Nat) (w : Work) : State :=
  { s with cur := cur, len := s.len + bs.length, out := s.out.writeList s.len bs, work := w }

@[simp] theorem extend_cur (s : State) (bs : List Byte) (c : Nat) (w : Work) : (extend s bs c w).cur = c := rfl
@[simp] theorem extend_len (s : State) (bs : List Byte) (c : Nat) (w : Work) : (extend s bs c w).len = s.len + bs.length := rfl
@[simp] theorem extend_work (s : State) (bs : List Byte) (c : Nat) (w : Work) : (extend s bs c w).work = w := rfl
@[simp] theorem extend_params (s : State) (bs : List Byte) (c : Nat) (w : Work) : (extend s bs c w).params = s.params := rfl

theorem extend_only (s : State) (bs : List Byte) (c : Nat) (w : Work) : OnlyStreamFields s (extend s bs c w) := rfl

theorem extend_appended {s : State} (h : s.out.wf) (bs : List Byte) (c : Nat) (w : Work) : Appended s (extend s bs c w) bs := by
  refine ⟨rfl, fun j hj => ?_, fun a ha => ?_⟩
  · show (s.out.writeList s.len bs).read (s.len + j) = _
    rw [Memory.read_writeList h, dif_pos ⟨by omega, by omega⟩]
    congr 1
    omega
  · show (s.out.writeList s.len bs).read a = _
    rw [Memory.read_writeList h, dif_neg (by omega)]

theorem extend_extend (s : State) (bs cs : List Byte) (c d : Nat) (w v : Work) :
    extend (extend s bs c w) cs d v = extend s (bs ++ cs) d v := by
  simp [extend, Memory.writeList_append, Nat.add_assoc]

theorem push_eq (v : Byte) (s : State) : push v s = extend s [v] s.cur s.work := rfl

theorem extend_setWork (s : State) (bs : List Byte) (c : Nat) (w v : Work) :
    extend (setWork v s) bs c w = extend s bs c w := rfl

theorem extend_consume (s : State) (bs : List Byte) (c : Nat) (w : Work) : extend (consume s) bs c w = extend s bs c w := rfl

theorem setWork_extend (s : State) (bs : List Byte) (c : Nat) (w v : Work) : setWork v (extend s bs c w) = extend s bs c v := rfl

theorem extend_nil (s : State) : extend s [] s.cur s.work = s := rfl

theorem ofNat_succ_assoc (k : BitVec 9) (n : Nat) : k + 1#9 + BitVec.ofNat 9 n = k + BitVec.ofNat 9 (n + 1) := by
  rw [BitVec.add_assoc, ← BitVec.ofNat_add, Nat.add_comm 1 n]

/-- A loop is its first iterations, then the rest. -/
theorem loopK_add (body : State → Flow) (a b : Nat) (s : State) :
    loopK body (a + b) s = (loopK body a s).bind (loopK body b) := by
  induction a generalizing s with
  | zero => simp [loopK]
  | succ a ih =>
    rw [Nat.succ_add, loopK, loopK, Flow.bind_assoc]
    congr 1
    funext t
    exact ih t

/-! ### Loops that go through -/

theorem literalLoop_ok (data : List Byte) (s : State) (h : s.len + data.length ≤ s.params.outCap) :
    literalLoop data.length data s =
      .ok (extend s data (s.cur + data.length) { s.work with k := s.work.k + BitVec.ofNat 9 data.length }) := by
  induction data generalizing s with
  | nil => simp [literalLoop, extend]
  | cons b data ih =>
    simp only [List.length_cons] at h
    rw [List.length_cons, literalLoop, emit_ok (by simp only [consume_len, tickK_len, consume_params, tickK_params]; omega),
      Flow.bind_ok, ih _ (by simp only [push_len, push_params, consume_len, tickK_len, consume_params, tickK_params]; omega),
      push_eq, extend_extend, extend_consume]
    simp only [tickK, extend_setWork, extend_work, extend_cur, consume_work, consume_cur, setWork_work, setWork_cur,
      ofNat_succ_assoc, List.singleton_append, Nat.add_assoc, Nat.add_comm 1]

/-- A literal that has its `n` bytes and room for them. -/
theorem literal_ok (data : List Byte) (s : State) (h : s.len + data.length ≤ s.params.outCap) :
    literal data.length data s =
      .ok (extend s data (s.cur + data.length) { s.work with k := BitVec.ofNat 9 data.length }) := by
  rw [literal, literalLoop_ok data (startK s) h, startK, extend_setWork]
  simp

theorem repeatLoop_ok (n : Nat) (s : State) (h : s.len + n ≤ s.params.outCap) :
    loopK (fun t => emit t.work.b1 t) n s =
      .ok (extend s (List.replicate n s.work.b1) s.cur { s.work with k := s.work.k + BitVec.ofNat 9 n }) := by
  induction n generalizing s with
  | zero => simp [loopK, extend]
  | succ n ih =>
    rw [loopK, emit_ok (by simp only [tickK_len, tickK_params]; omega), Flow.bind_ok,
      ih _ (by simp only [push_len, push_params, tickK_len, tickK_params]; omega), push_eq, extend_extend]
    simp only [tickK, extend_setWork, extend_work, extend_cur, setWork_work, setWork_cur, ofNat_succ_assoc,
      List.singleton_append, List.replicate_succ]

theorem repeatByte_ok (n : Nat) (b : Byte) (s : State) (h : s.len + n ≤ s.params.outCap) :
    repeatByte n b s =
      .ok (extend s (List.replicate n b) (s.cur + 1) { s.work with b1 := b, k := BitVec.ofNat 9 n }) := by
  rw [repeatByte, iterate, repeatLoop_ok n (startK (takeB1 b s)) h, startK, extend_setWork, takeB1, extend_setWork, extend_consume]
  simp

/-- `b1 b2 b1 b2 …`, `n` pairs. -/
def pairBytes (b1 b2 : Byte) : Nat → List Byte
  | 0 => []
  | n + 1 => b1 :: b2 :: pairBytes b1 b2 n

@[simp] theorem pairBytes_length (b1 b2 : Byte) (n : Nat) : (pairBytes b1 b2 n).length = 2 * n := by
  induction n with
  | zero => rfl
  | succ n ih => simp [pairBytes, ih]; omega

theorem pairBytes_get (b1 b2 : Byte) (n j : Nat) (h : j < (pairBytes b1 b2 n).length) :
    (pairBytes b1 b2 n)[j] = if j % 2 = 0 then b1 else b2 := by
  induction n generalizing j with
  | zero => simp [pairBytes] at h
  | succ n ih =>
    match j with
    | 0 => rfl
    | 1 => rfl
    | j + 2 =>
      have h' : j < (pairBytes b1 b2 n).length := by simpa [pairBytes] using h
      simpa [pairBytes] using ih j h'

theorem pairBytes_eq (b1 b2 : Byte) (n : Nat) :
    pairBytes b1 b2 n = (List.range (2 * n)).map (fun j => if j % 2 = 0 then b1 else b2) := by
  apply List.ext_getElem
  · simp
  · intro j h _
    simp [pairBytes_get]

theorem pairLoop_ok (n : Nat) (s : State) (h : s.len + 2 * n ≤ s.params.outCap) :
    loopK (fun t => (emit t.work.b1 t).bind (fun u => emit u.work.b2 u)) n s =
      .ok (extend s (pairBytes s.work.b1 s.work.b2 n) s.cur { s.work with k := s.work.k + BitVec.ofNat 9 n }) := by
  induction n generalizing s with
  | zero => simp [loopK, extend, pairBytes]
  | succ n ih =>
    rw [loopK, emit_ok (by simp only [tickK_len, tickK_params]; omega), Flow.bind_ok,
      emit_ok (by simp only [push_len, push_params, tickK_len, tickK_params]; omega), Flow.bind_ok,
      ih _ (by simp only [push_len, push_params, tickK_len, tickK_params]; omega), push_eq, push_eq, extend_extend, extend_extend]
    simp only [tickK, extend_setWork, extend_work, extend_cur, setWork_work, setWork_cur, ofNat_succ_assoc,
      List.cons_append, List.nil_append, pairBytes]

theorem repeatPair_ok (n : Nat) (b1 b2 : Byte) (s : State) (h : s.len + 2 * n ≤ s.params.outCap) :
    repeatPair n b1 b2 s =
      .ok (extend s (pairBytes b1 b2 n) (s.cur + 2) { s.work with b1 := b1, b2 := b2, k := BitVec.ofNat 9 n }) := by
  rw [repeatPair, iterate, pairLoop_ok n (startK (takeB2 b2 (takeB1 b1 s))) h, startK, extend_setWork, takeB2, extend_setWork,
    extend_consume, takeB1, extend_setWork, extend_consume]
  simp

/-- `seed, seed + 1, …`, `n` bytes modulo 256. -/
def runBytes : Byte → Nat → List Byte
  | _, 0 => []
  | b, n + 1 => b :: runBytes (b + 1#8) n

@[simp] theorem runBytes_length (b : Byte) (n : Nat) : (runBytes b n).length = n := by
  induction n generalizing b with
  | zero => rfl
  | succ n ih => simp [runBytes, ih]

theorem runBytes_get (b : Byte) (n j : Nat) (h : j < (runBytes b n).length) :
    (runBytes b n)[j] = b + BitVec.ofNat 8 j := by
  induction n generalizing b j with
  | zero => simp [runBytes] at h
  | succ n ih =>
    match j with
    | 0 => simp [runBytes]
    | j + 1 =>
      have h' : j < (runBytes (b + 1#8) n).length := by simpa [runBytes] using h
      have := ih (b + 1#8) j h'
      simp only [runBytes, List.getElem_cons_succ, this]
      rw [BitVec.add_assoc, ← BitVec.ofNat_add, Nat.add_comm 1 j]

theorem runBytes_eq (b : Byte) (n : Nat) :
    runBytes b n = (List.range n).map (fun j => BitVec.ofNat 8 ((b.toNat + j) % 256)) := by
  apply List.ext_getElem
  · simp
  · intro j h _
    rw [runBytes_get]
    apply BitVec.eq_of_toNat_eq
    simp

theorem countLoop_ok (n : Nat) (s : State) (h : s.len + n ≤ s.params.outCap) :
    loopK (fun t => (emit t.work.b1 t).bind (fun u => .ok (bumpB1 u))) n s =
      .ok (extend s (runBytes s.work.b1 n) s.cur
        { s.work with b1 := s.work.b1 + BitVec.ofNat 8 n, k := s.work.k + BitVec.ofNat 9 n }) := by
  induction n generalizing s with
  | zero => simp [loopK, extend, runBytes]
  | succ n ih =>
    have e : s.work.b1 + 1#8 + BitVec.ofNat 8 n = s.work.b1 + BitVec.ofNat 8 (n + 1) := by
      rw [BitVec.add_assoc, ← BitVec.ofNat_add, Nat.add_comm 1 n]
    rw [loopK, emit_ok (by simp only [tickK_len, tickK_params]; omega), Flow.bind_ok, Flow.bind_ok,
      ih _ (by simp only [bumpB1_len, bumpB1_params, push_len, push_params, tickK_len, tickK_params]; omega), push_eq, bumpB1,
      extend_setWork, extend_extend]
    simp only [tickK, extend_setWork, extend_work, extend_cur, setWork_work, setWork_cur, ofNat_succ_assoc, e,
      List.singleton_append, runBytes]

theorem countUp_ok (n : Nat) (seed : Byte) (s : State) (h : s.len + n ≤ s.params.outCap) :
    countUp n seed s =
      .ok (extend s (runBytes seed n) (s.cur + 1)
        { s.work with b1 := seed + BitVec.ofNat 8 n, k := BitVec.ofNat 9 n }) := by
  rw [countUp, iterate, countLoop_ok n (startK (takeB1 seed s)) h, startK, extend_setWork, takeB1, extend_setWork, extend_consume]
  simp

/-! ### The self-copies -/

/-- A self-copy whose reads all succeed: iteration `j` appends the mapped byte that stands at `IDX + j * move` when it
comes, which is the byte that stands there at the end. -/
theorem copyLoop_ok {map : State → Byte → Byte} {f : Byte → Byte} {move : Int} (n : Nat) (s : State)
    (hmap : ∀ t v, t.tbl = s.tbl → map t v = f v) (hw : s.out.wf) (hcap : s.len + n ≤ s.params.outCap)
    (hr : ∀ j : Nat, j < n → 0 ≤ s.work.idx + j * move ∧ s.work.idx + j * move < s.len + j) :
    ∃ bs, bs.length = n ∧
      loopK (copyBody map move) n s =
        .ok (extend s bs s.cur { s.work with idx := s.work.idx + n * move, k := s.work.k + BitVec.ofNat 9 n }) ∧
      ∀ (j : Nat) (h : j < bs.length),
        bs[j] = f ((s.out.writeList s.len bs).read (s.work.idx + j * move).toNat) := by
  induction n generalizing s with
  | zero => exact ⟨[], rfl, by simp [loopK, extend], fun j hj => absurd hj (by simp)⟩
  | succ n ih =>
    obtain ⟨h0, h1⟩ := hr 0 (by omega)
    simp only [Nat.cast_zero, zero_mul, add_zero] at h0 h1
    have hbody : copyBody map move (tickK s) = .ok (moveIdx move (push (f (s.out.read s.work.idx.toNat)) (tickK s))) := by
      rw [copyBody, outRead_ok (by simpa using h0) (by simpa using h1),
        emit_ok (by simp only [tickK_len, tickK_params]; omega), Flow.bind_ok, hmap _ _ (tickK_tbl s)]
      rfl
    have hr' : ∀ j : Nat, j < n → 0 ≤ s.work.idx + move + j * move ∧ s.work.idx + move + j * move < s.len + 1 + j := by
      intro j hj
      have := hr (j + 1) (by omega)
      have e : s.work.idx + move + j * move = s.work.idx + ((j + 1 : Nat) : Int) * move := by push_cast; ring
      rw [e]
      refine ⟨this.1, ?_⟩
      have := this.2
      push_cast at this ⊢
      linarith
    obtain ⟨bs, hlen, hok, hget⟩ := ih (moveIdx move (push (f (s.out.read s.work.idx.toNat)) (tickK s)))
      (fun t v h => hmap t v h) (Memory.write_wf _ _ hw)
      (by simp only [moveIdx_len, moveIdx_params, push_len, push_params, tickK_len, tickK_params]; omega)
      (fun j hj => by simpa using hr' j hj)
    refine ⟨f (s.out.read s.work.idx.toNat) :: bs, by simp [hlen], ?_, fun j hj => ?_⟩
    · rw [loopK, hbody, Flow.bind_ok, hok, push_eq, moveIdx, extend_setWork, extend_extend]
      have e2 : s.work.idx + move + n * move = s.work.idx + ((n + 1 : Nat) : Int) * move := by push_cast; ring
      simp only [tickK, extend_setWork, extend_work, extend_cur, setWork_work, setWork_cur, ofNat_succ_assoc, e2,
        List.singleton_append]
    · match j with
      | 0 =>
        simp only [List.getElem_cons_zero, Nat.cast_zero, zero_mul, add_zero]
        rw [Memory.read_writeList hw, dif_neg (by omega)]
      | j + 1 =>
        have hj' : j < bs.length := by simpa using hj
        have := hget j hj'
        simp only [moveIdx_out, push_out, tickK_out, moveIdx_len, push_len, tickK_len, moveIdx_work, push_work,
          tickK_work] at this
        have e : s.work.idx + move + j * move = s.work.idx + ((j + 1 : Nat) : Int) * move := by push_cast; ring
        rw [e] at this
        simpa using this

/-- A self-copy that meets a bad index after `m` good iterations raises OutOfRange there. -/
theorem copyLoop_outOfRange {map : State → Byte → Byte} {f : Byte → Byte} {move : Int} (m n : Nat) (s : State)
    (hmap : ∀ t v, t.tbl = s.tbl → map t v = f v) (hw : s.out.wf) (hn : m < n) (hcap : s.len + m ≤ s.params.outCap)
    (hr : ∀ j : Nat, j < m → 0 ≤ s.work.idx + j * move ∧ s.work.idx + j * move < s.len + j)
    (hbad : s.work.idx + m * move < 0 ∨ (s.len : Int) + m ≤ s.work.idx + m * move) :
    ∃ t, loopK (copyBody map move) n s = .trap .outOfRange (s.work.idx + m * move) t ∧ OnlyStreamFields s t ∧
      t.len = s.len + m := by
  obtain ⟨bs, hlen, hok, -⟩ := copyLoop_ok (f := f) m s hmap hw hcap hr
  obtain ⟨d, rfl⟩ : ∃ d, n = m + (d + 1) := ⟨n - m - 1, by omega⟩
  refine ⟨tickK (extend s bs s.cur { s.work with idx := s.work.idx + m * move, k := s.work.k + BitVec.ofNat 9 m }), ?_, ?_, ?_⟩
  · rw [loopK_add, hok, Flow.bind_ok, loopK, copyBody, outRead_out]
    · rfl
    · simpa [hlen] using hbad
  · exact (extend_only s bs _ _).trans rfl
  · simp [hlen]

end Sys2Proof.Machine
end

