-- ==== Sys2Proof/Laws/Decode.lean ====
section
/-! SUPPORT. The parts of the decoder and the encoder fit: the fields of an opcode byte, the two bytes of a start index,
and what each operand form reads. -/

namespace Sys2Proof

-- One declaration after another: each kernel evaluation that runs beside others reserves a thread's memory of its own.
set_option Elab.async false

/-! ### Opcode bytes: format S -/

theorem tagS_opcodeS : ∀ (T : BitVec 3) (c : BitVec 5), tagS (opcodeS T c) = opcodeS T 0#5 := by decide +kernel

theorem countS_opcodeS : ∀ (T : BitVec 3) (c : BitVec 5), countS (opcodeS T c) = c := by decide +kernel

/-- An opcode byte is its tag and its count (R71). -/
theorem opcodeS_of_tag : ∀ (op : Byte) (T : BitVec 3), tagS op = opcodeS T 0#5 → op = opcodeS T (countS op) := by
  decide +kernel

/-- The eight tags (R75). -/
theorem tagS_cases : ∀ op : Byte, tagS op = 0x00#8 ∨ tagS op = 0x20#8 ∨ tagS op = 0x40#8 ∨ tagS op = 0x60#8 ∨
    tagS op = 0x80#8 ∨ tagS op = 0xA0#8 ∨ tagS op = 0xC0#8 ∨ tagS op = 0xE0#8 := by decide +kernel

/-! ### Opcode bytes: format X -/

theorem tagS_opcodeX : ∀ (T : BitVec 3) (x : BitVec 2), tagS (opcodeX T x) = 0xE0#8 := by decide +kernel

theorem tagX_opcodeX : ∀ (T : BitVec 3) (x : BitVec 2), tagX (opcodeX T x) = opcodeS T 0#5 := by decide +kernel

theorem low_opcodeX : ∀ (T : BitVec 3) (x : BitVec 2), (opcodeX T x).extractLsb' 0 2 = x := by decide +kernel

/-- A format X opcode byte is its inner tag and its two ignored bits (R72). -/
theorem opcodeX_of_tag : ∀ (op : Byte) (T : BitVec 3), tagS op = 0xE0#8 → tagX op = opcodeS T 0#5 →
    op = opcodeX T (op.extractLsb' 0 2) := by decide +kernel

theorem tagX_cases : ∀ op : Byte, tagX op = 0x00#8 ∨ tagX op = 0x20#8 ∨ tagX op = 0x40#8 ∨ tagX op = 0x60#8 ∨
    tagX op = 0x80#8 ∨ tagX op = 0xA0#8 ∨ tagX op = 0xC0#8 ∨ tagX op = 0xE0#8 := by decide +kernel

/-- With inner tag 0xE0 an opcode byte is 0xFE, END's 0xFF, or one of the first row of LITX.D (R89). -/
theorem opcodeX_degenerate : ∀ op : Byte, tagS op = 0xE0#8 → tagX op = 0xE0#8 →
    op = 0xFE#8 ∨ op = 0xFF#8 ∨ op = opcodeX 7#3 ((op.extractLsb' 0 1).zeroExtend 2) := by decide +kernel

/-! ### The start index (R76) -/

theorem startHi_toNat (start : Half) : startHi start = BitVec.ofNat 8 (start.toNat / 256) := by
  apply BitVec.eq_of_toNat_eq
  simp [startHi, Nat.shiftRight_eq_div_pow]

theorem startLo_toNat (start : Half) : startLo start = BitVec.ofNat 8 start.toNat := by
  apply BitVec.eq_of_toNat_eq
  simp [startLo]

@[simp] theorem startOf_split (start : Half) : startOf (startHi start) (startLo start) = start := by
  unfold startOf startHi startLo
  ext i hi
  by_cases h : i < 8
  · simp [h, BitVec.getLsbD_eq_getElem hi]
  · have e : 8 + (i - 8) = i := by omega
    have e2 : i - 8 < 8 := by omega
    simp [h, e, e2, hi]

@[simp] theorem startHi_startOf (hi lo : Byte) : startHi (startOf hi lo) = hi := by
  unfold startHi startOf
  ext i h
  have : 8 + i < 16 := by omega
  simp [h, this]

@[simp] theorem startLo_startOf (hi lo : Byte) : startLo (startOf hi lo) = lo := by
  unfold startLo startOf
  ext i h
  have : i < 16 := by omega
  simp [h, this]

/-! ### The operand forms (R73) -/

theorem withOne_eq_ok {k : Byte → Instr} {bytes : List Byte} {i : Instr} {rest : List Byte}
    (h : withOne k bytes = .ok (i, rest)) : ∃ b, bytes = b :: rest ∧ i = k b := by
  cases bytes <;> simp [withOne] at h
  exact ⟨_, by rw [h.2], h.1.symm⟩

theorem withTwo_eq_ok {k : Byte → Byte → Instr} {bytes : List Byte} {i : Instr} {rest : List Byte}
    (h : withTwo k bytes = .ok (i, rest)) : ∃ b c, bytes = b :: c :: rest ∧ i = k b c := by
  match bytes with
  | [] => simp [withTwo] at h
  | [_] => simp [withTwo] at h
  | b :: c :: r => simp [withTwo] at h; exact ⟨_, _, by rw [h.2], h.1.symm⟩

theorem withStart_eq_ok {k : Half → Instr} {bytes : List Byte} {i : Instr} {rest : List Byte}
    (h : withStart k bytes = .ok (i, rest)) : ∃ start, bytes = startHi start :: startLo start :: rest ∧ i = k start := by
  obtain ⟨b, c, h1, h2⟩ := withTwo_eq_ok h
  exact ⟨startOf b c, by rw [startHi_startOf, startLo_startOf, h1], h2⟩

theorem withData_eq_ok {n : Nat} {k : List Byte → Instr} {bytes : List Byte} {i : Instr} {rest : List Byte}
    (h : withData n k bytes = .ok (i, rest)) : ∃ data, data.length = n ∧ bytes = data ++ rest ∧ i = k data := by
  unfold withData at h
  split at h
  · simp at h
    exact ⟨bytes.take n, by simp; omega, by rw [← h.2]; simp, h.1.symm⟩
  · cases h

theorem withData_append {n : Nat} {k : List Byte → Instr} {data rest : List Byte} (h : data.length = n) :
    withData n k (data ++ rest) = .ok (k data, rest) := by
  simp [withData, h.symm]

theorem withOne_eq_error {k : Byte → Instr} {bytes : List Byte} {e : DecodeError} (h : withOne k bytes = .error e) :
    e = .noOperand ∧ bytes.length < 1 := by
  cases bytes with
  | nil => simp [withOne] at h; exact ⟨h.symm, by simp⟩
  | cons => simp [withOne] at h

theorem withTwo_eq_error {k : Byte → Byte → Instr} {bytes : List Byte} {e : DecodeError}
    (h : withTwo k bytes = .error e) : e = .noOperand ∧ bytes.length < 2 := by
  match bytes with
  | [] => simp [withTwo] at h; exact ⟨h.symm, by simp⟩
  | [_] => simp [withTwo] at h; exact ⟨h.symm, by simp⟩
  | b :: c :: r => simp [withTwo] at h

theorem withData_eq_error {n : Nat} {k : List Byte → Instr} {bytes : List Byte} {e : DecodeError}
    (h : withData n k bytes = .error e) : e = .cutLiteral (k bytes) ∧ bytes.length < n := by
  unfold withData at h
  split at h
  · cases h
  · injection h with h
    exact ⟨h.symm, by omega⟩

end Sys2Proof
end

