-- ==== Sys2Proof/Laws/Exec.lean ====
section
/-! SUPPORT. The meaning of each instruction as one equation over the shared operations, what the fetch of its head and
of a start index leaves, the two ends of COMPOSE, and the one start of a decode. -/

namespace Sys2Proof.Machine

-- One declaration after another: each kernel evaluation that runs beside others reserves a thread's memory of its own.
set_option Elab.async false

/-! ### Heads -/

/-- The fetch of a format S opcode byte. -/
theorem headS_eq (T : BitVec 3) (c : BitVec 5) (s : State) :
    headS (opcodeS T c) s = setWork (headWork s.work (T.toNat * 32 + c.toNat) (T.toNat * 32) c.toNat) (consume s) := by
  have h1 : ∀ (T : BitVec 3) (c : BitVec 5), opcodeS T c = BitVec.ofNat 8 (T.toNat * 32 + c.toNat) := by decide +kernel
  have h2 : ∀ (T : BitVec 3) (c : BitVec 5), tagS (opcodeS T c) = BitVec.ofNat 8 (T.toNat * 32) := by decide +kernel
  have h3 : ∀ (T : BitVec 3) (c : BitVec 5), opcodeS T c &&& 0x1F#8 = BitVec.ofNat 8 c.toNat := by decide +kernel
  have h4 : ∀ c : BitVec 5, (BitVec.ofNat 8 c.toNat).zeroExtend 9 + 1#9 = BitVec.ofNat 9 (c.toNat + 1) := by decide +kernel
  rw [headS, setHead, h3, h2, h4, h1]
  rfl

/-- The fetch of a format X opcode byte and its count byte. -/
theorem headX_eq (T : BitVec 3) (x : BitVec 2) (cnt : Byte) (s : State) :
    headX (opcodeX T x) cnt s =
      setWork (headWork s.work (0xE0 + T.toNat * 4 + x.toNat) (T.toNat * 32) cnt.toNat) (consume (consume s)) := by
  have h1 : ∀ (T : BitVec 3) (x : BitVec 2), opcodeX T x = BitVec.ofNat 8 (0xE0 + T.toNat * 4 + x.toNat) := by decide +kernel
  have h2 : ∀ (T : BitVec 3) (x : BitVec 2), tagX (opcodeX T x) = BitVec.ofNat 8 (T.toNat * 32) := by decide +kernel
  have h4 : ∀ c : Byte, c.zeroExtend 9 + 1#9 = BitVec.ofNat 9 (c.toNat + 1) := by decide +kernel
  rw [headX, setHead, h2, h4, h1]
  simp [headWork]

/-- `ReadStart` (R155). -/
theorem readStart_eq (start : Half) (s : State) :
    readStart start s = setWork { s.work with
      idx := (start.toNat : Int), b1 := BitVec.ofNat 8 (start.toNat / 256), b2 := BitVec.ofNat 8 start.toNat }
      (consume (consume s)) := by
  rw [← startHi_toNat, ← startLo_toNat]
  simp only [readStart, loadIdx, takeB2, takeB1, setWork_work, startOf_split]
  rfl

/-! ### One equation per stream instruction -/

theorem exec_lit (c : BitVec 5) (data : List Byte) (s : State) :
    exec (.lit c data) s = (literal (c.toNat + 1) data (headS (opcodeS 0#3 c) s)).outcome := rfl
theorem exec_rpt (c : BitVec 5) (b : Byte) (s : State) :
    exec (.rpt c b) s = (repeatByte (c.toNat + 1) b (headS (opcodeS 1#3 c) s)).outcome := rfl
theorem exec_pair (c : BitVec 5) (b1 b2 : Byte) (s : State) :
    exec (.pair c b1 b2) s = (repeatPair (c.toNat + 1) b1 b2 (headS (opcodeS 2#3 c) s)).outcome := rfl
theorem exec_inc (c : BitVec 5) (seed : Byte) (s : State) :
    exec (.inc c seed) s = (countUp (c.toNat + 1) seed (headS (opcodeS 3#3 c) s)).outcome := rfl
theorem exec_fwd (c : BitVec 5) (start : Half) (s : State) :
    exec (.fwd c start) s = (copyForward (c.toNat + 1) start (headS (opcodeS 4#3 c) s)).outcome := rfl
theorem exec_tbl (c : BitVec 5) (start : Half) (s : State) :
    exec (.tbl c start) s = (copyTable (c.toNat + 1) start (headS (opcodeS 5#3 c) s)).outcome := rfl
theorem exec_bwd (c : BitVec 5) (start : Half) (s : State) :
    exec (.bwd c start) s = (copyBackward (c.toNat + 1) start (headS (opcodeS 6#3 c) s)).outcome := rfl
theorem exec_litx (x : BitVec 2) (c : Byte) (data : List Byte) (s : State) :
    exec (.litx x c data) s = (literal (c.toNat + 1) data (headX (opcodeX 0#3 x) c s)).outcome := rfl
theorem exec_rptx (x : BitVec 2) (c : Byte) (b : Byte) (s : State) :
    exec (.rptx x c b) s = (repeatByte (c.toNat + 1) b (headX (opcodeX 1#3 x) c s)).outcome := rfl
theorem exec_pairx (x : BitVec 2) (c : Byte) (b1 b2 : Byte) (s : State) :
    exec (.pairx x c b1 b2) s = (repeatPair (c.toNat + 1) b1 b2 (headX (opcodeX 2#3 x) c s)).outcome := rfl
theorem exec_incx (x : BitVec 2) (c : Byte) (seed : Byte) (s : State) :
    exec (.incx x c seed) s = (countUp (c.toNat + 1) seed (headX (opcodeX 3#3 x) c s)).outcome := rfl
theorem exec_fwdx (x : BitVec 2) (c : Byte) (start : Half) (s : State) :
    exec (.fwdx x c start) s = (copyForward (c.toNat + 1) start (headX (opcodeX 4#3 x) c s)).outcome := rfl
theorem exec_tblx (x : BitVec 2) (c : Byte) (start : Half) (s : State) :
    exec (.tblx x c start) s = (copyTable (c.toNat + 1) start (headX (opcodeX 5#3 x) c s)).outcome := rfl
theorem exec_bwdx (x : BitVec 2) (c : Byte) (start : Half) (s : State) :
    exec (.bwdx x c start) s = (copyBackward (c.toNat + 1) start (headX (opcodeX 6#3 x) c s)).outcome := rfl
theorem exec_litxD (x : BitVec 1) (c : Byte) (data : List Byte) (s : State) :
    exec (.litxD x c data) s = (literal (c.toNat + 1) data (headX (opcodeX 7#3 (x.zeroExtend 2)) c s)).outcome := rfl
theorem exec_litxDFE (c : Byte) (data : List Byte) (s : State) :
    exec (.litxDFE c data) s = (literal (c.toNat + 1) data (headX (opcodeX 7#3 2#2) c s)).outcome := rfl

/-! ### END -/

theorem exec_endStream_idle {s : State} (h : s.engine = .idle) : exec .endStream s = .next (headE s) := by
  show execEnd s = _
  rw [execEnd, h]

theorem exec_endStream_decomp {s : State} (h : s.engine = .decomp) :
    exec .endStream s = .next (finishDecomp (headE s)) := by
  show execEnd s = _
  rw [execEnd, h]

theorem exec_endStream_compose {s : State} (h : s.engine = .compose) :
    exec .endStream s = (finishCompose (headE s)).outcome := by
  show execEnd s = _
  rw [execEnd, h]

/-- The end of a COMPOSE whose data fits (R187 to R189). -/
theorem finishCompose_ok {s : State} (h : padOf s + s.len ≤ 0x1800) :
    finishCompose s = .ok (done { s with
      win := fixedSlots s.params (s.out.padded s.len (padOf s))
      valid := { s.valid with out := true, win := true } }) := by
  have : ¬Config.winSize < padOf s + s.len := by
    rw [Config.winSize]
    omega
  rw [finishCompose, if_neg this]

/-- The end of a COMPOSE whose data does not fit (R186). -/
theorem finishCompose_over {s : State} (h : 0x1800 < padOf s + s.len) :
    finishCompose s = .trap .windowOverflow ((padOf s + s.len : Nat) : Int) s := by
  have : Config.winSize < padOf s + s.len := by
    rw [Config.winSize]
    omega
  rw [finishCompose, if_pos this]

theorem fixedSlots_wf {p : Params} {m : Memory} (h : m.wf) : (fixedSlots p m).wf :=
  Memory.writeList_wf _ _ (Memory.writeList_wf _ _ (Memory.writeList_wf _ _ h))

theorem fixedSlots_within {p : Params} {m : Memory} (h : m.within Config.winSize) :
    (fixedSlots p m).within Config.winSize := by
  refine Memory.writeList_within _ _ (Memory.writeList_within _ _ (Memory.writeList_within _ _ h ?_) ?_) ?_
  · simp [slotOffset, Config.winSize, Config.tileBytes]
  · simp [slotOffset, Config.winSize, Config.tileBytes]
  · simp [slotOffset, Config.winSize, Config.tileBytes, Config.fixed7F]

/-! ### The start of a decode -/

theorem exec_decomp (s : State) :
    exec .decomp s = ((startCheck (beginDecode .decomp s)).bind (fun t => .ok (startAt t.pos.toNat t))).outcome := rfl

/-- What COMPOSE does once the start position is found good (R181 to R184). -/
def composeBegin (t : State) : State :=
  startAt (t.pos.toNat + 1)
    { t with vstart := vstartOf (romRead t.pos.toNat t), baseSel := baseSelOf (vstartOf (romRead t.pos.toNat t)) }

theorem exec_compose (s : State) :
    exec .compose s = ((startCheck (beginDecode .compose s)).bind (fun t => .ok (composeBegin t))).outcome := rfl

theorem exec_gentbl (s : State) :
    exec .gentbl s = .next (done { s with tbl := s.tbl.writeList 0 s.gen.run.1, gen := s.gen.run.2 }) := rfl

/-- The three ways a DECOMP or COMPOSE starts: no ROM, a start position outside it, or a decode (00_scope R13). -/
theorem start_cases (e : Engine) (s : State) (g : State → Flow) :
    (s.romSize = 0 ∧ (startCheck (beginDecode e s)).bind g = .trap .emptyInput 0 (beginDecode e s)) ∨
    (s.romSize ≠ 0 ∧ s.romSize ≤ s.pos.toNat ∧
      (startCheck (beginDecode e s)).bind g = .trap .outOfRange s.pos.toNat (beginDecode e s)) ∨
    (s.pos.toNat < s.romSize ∧ (startCheck (beginDecode e s)).bind g = g (beginDecode e s)) := by
  by_cases h1 : s.romSize = 0
  · left
    refine ⟨h1, ?_⟩
    rw [startCheck, if_pos (by exact h1)]
    rfl
  by_cases h2 : s.romSize ≤ s.pos.toNat
  · right; left
    refine ⟨h1, h2, ?_⟩
    rw [startCheck, if_neg (by exact h1), if_pos (by exact h2)]
    rfl
  · right; right
    refine ⟨by omega, ?_⟩
    rw [startCheck_ok (by show s.pos.toNat < s.romSize; omega)]
    rfl

/-! ### The step -/

/-- Inside a decode, with no reset due, a step is one turn of the decode loop. -/
theorem step_stream {s : State} (h : s.engine ≠ .idle) (hr : resetNext s = false) : step s = streamStep s := by
  unfold step stepBody
  rw [hr]
  cases he : s.engine <;> simp_all

/-- Between operations a step is the host's next move. -/
theorem step_idle {s : State} (h : s.engine = .idle) : step s = hostTurn s := by
  unfold step stepBody
  split
  · rfl
  · rw [h]

/-- How many bytes `Fetch` can still read. -/
theorem romBytes_length (s : State) (p n : Nat) (h : p ≤ s.romSize) : (romBytes s p n).length = min n (s.romSize - p) := by
  induction n generalizing p with
  | zero => simp [romBytes]
  | succ n ih =>
    rw [romBytes]
    by_cases hp : p < s.romSize
    · rw [if_pos hp, List.length_cons, ih (p + 1) (by omega)]
      omega
    · rw [if_neg hp]
      simp
      omega

end Sys2Proof.Machine
end

