-- ==== Sys2Proof/Laws/PerInstr.lean ====
section
/-! SUPPORT. Statements about every instruction as syntax, one lemma per constructor. Family `Length`: a well-formed
instruction encodes to as many bytes as the table of spec 30 R77 gives it. -/

namespace Sys2Proof.Laws

/-- The encoding of a well-formed instruction has the length of R77. -/
def Length.Statement (i : Instr) : Prop := i.wellFormed = true → (encode i).length = i.length

theorem Length.of_fixed {i : Instr} (h : i.tail.length + 1 = i.length) : Length.Statement i := fun _ => by
  rw [encode, List.length_cons, h]

theorem Length.of_literal {i : Instr} {n head : Nat} {data : List Byte} (hw : i.wellFormed = (data.length == n))
    (ht : i.tail.length = head + data.length) (hl : i.length = 1 + head + n) : Length.Statement i := fun h => by
  have : data.length = n := by simpa [hw] using h
  rw [encode, List.length_cons, ht, hl, this]
  omega

theorem Length.lit (c : BitVec 5) (data : List Byte) : Length.Statement (.lit c data) :=
  of_literal (head := 0) rfl (by simp [Instr.tail]) rfl
theorem Length.rpt (c : BitVec 5) (b : Byte) : Length.Statement (.rpt c b) := of_fixed rfl
theorem Length.pair (c : BitVec 5) (b1 b2 : Byte) : Length.Statement (.pair c b1 b2) := of_fixed rfl
theorem Length.inc (c : BitVec 5) (seed : Byte) : Length.Statement (.inc c seed) := of_fixed rfl
theorem Length.fwd (c : BitVec 5) (start : Half) : Length.Statement (.fwd c start) := of_fixed rfl
theorem Length.tbl (c : BitVec 5) (start : Half) : Length.Statement (.tbl c start) := of_fixed rfl
theorem Length.bwd (c : BitVec 5) (start : Half) : Length.Statement (.bwd c start) := of_fixed rfl
theorem Length.litx (x : BitVec 2) (c : Byte) (data : List Byte) : Length.Statement (.litx x c data) :=
  of_literal (head := 1) rfl (by simp [Instr.tail, Nat.add_comm]) rfl
theorem Length.rptx (x : BitVec 2) (c : Byte) (b : Byte) : Length.Statement (.rptx x c b) := of_fixed rfl
theorem Length.pairx (x : BitVec 2) (c : Byte) (b1 b2 : Byte) : Length.Statement (.pairx x c b1 b2) := of_fixed rfl
theorem Length.incx (x : BitVec 2) (c : Byte) (seed : Byte) : Length.Statement (.incx x c seed) := of_fixed rfl
theorem Length.fwdx (x : BitVec 2) (c : Byte) (start : Half) : Length.Statement (.fwdx x c start) := of_fixed rfl
theorem Length.tblx (x : BitVec 2) (c : Byte) (start : Half) : Length.Statement (.tblx x c start) := of_fixed rfl
theorem Length.bwdx (x : BitVec 2) (c : Byte) (start : Half) : Length.Statement (.bwdx x c start) := of_fixed rfl
theorem Length.litxD (x : BitVec 1) (c : Byte) (data : List Byte) : Length.Statement (.litxD x c data) :=
  of_literal (head := 1) rfl (by simp [Instr.tail, Nat.add_comm]) rfl
theorem Length.litxDFE (c : Byte) (data : List Byte) : Length.Statement (.litxDFE c data) :=
  of_literal (head := 1) rfl (by simp [Instr.tail, Nat.add_comm]) rfl
theorem Length.endStream : Length.Statement .endStream := of_fixed rfl
theorem Length.xlat : Length.Statement .xlat := of_fixed rfl
theorem Length.gentbl : Length.Statement .gentbl := of_fixed rfl
theorem Length.decomp : Length.Statement .decomp := of_fixed rfl
theorem Length.compose : Length.Statement .compose := of_fixed rfl
theorem Length.tslot : Length.Statement .tslot := of_fixed rfl

end Sys2Proof.Laws
end

