-- ==== Sys2Proof/Tests/Slice0.lean ====
section
/-! SUPPORT. The model's own tests: ill-formed terms are refused, words written out from the encodings decode, one step or
one meaning per instruction on the vectors of spec 95, and for every statement of Obligations.lean that has hypotheses a
state and operands that meet them. Expected values are the spec's. -/

namespace Sys2Proof.Tests

open Sys2Proof.Machine

-- One declaration after another: each kernel evaluation that runs beside others reserves a thread's memory of its own.
set_option Elab.async false

/-! ### Small states -/

/-- Inside a DECOMP of this ROM at position 0, these bytes appended so far. -/
def decoding (rom out : List Byte) : State :=
  { State.reset with
    rom := Memory.ofBytes 0 rom, romSize := rom.length, out := Memory.ofBytes 0 out, len := out.length, engine := .decomp }

/-- The same with another capacity. -/
def capped (cap : Nat) (rom out : List Byte) : State :=
  { decoding rom out with params := { State.reset.params with outCap := cap } }

/-- Inside a COMPOSE: VSTART and BASESEL set, two open tiles of 0xDD and 0xEE. -/
def composing (vstart : Half) (baseSel : BitVec 1) (rom out : List Byte) : State :=
  { decoding rom out with
    engine := .compose, vstart := vstart, baseSel := baseSel
    params := { outCap := 0x10000, fixed7D := Vector.replicate 16 0xDD#8, fixed7E := Vector.replicate 16 0xEE#8 } }

/-- Between operations: this ROM, this POS, the host's next moves. -/
def idle (rom : List Byte) (pos : LinearPos) (moves : List HostMove) : State :=
  { State.reset with rom := Memory.ofBytes 0 rom, romSize := rom.length, pos := pos, host := moves }

/-- The bytes of OUT below LEN. -/
def outBytes (s : State) : List Byte := (List.range s.len).map s.out.read

/-- The outcome is a next state that passes. -/
def next (o : Host.Outcome State Fault Refusal) (p : State → Bool) : Bool :=
  match o with
  | .next s => p s
  | .fault _ => false
  | .refused _ => false

/-- The outcome is a next state with this CUR and these bytes in OUT, still decoding. -/
def appends (o : Host.Outcome State Fault Refusal) (cur : Nat) (out : List Byte) : Bool :=
  next o fun t => decide (t.cur = cur ∧ outBytes t = out ∧ t.engine = .decomp)

/-- The outcome is a next state in this error. -/
def fails (o : Host.Outcome State Fault Refusal) (e : ErrKind) (info : Int) : Bool :=
  next o fun t => decide (t.st = .fault ∧ t.err = e ∧ t.errPos = info ∧ t.engine = .idle ∧ t.valid.out = false)

/-! ### WellFormed refuses ill-formed terms (30 R73, R74) -/

theorem test_illformed_lit_short : (Instr.lit 3#5 [0x11#8, 0x22#8, 0x33#8]).wellFormed = false := by decide
theorem test_illformed_lit_long : (Instr.lit 0#5 [0x11#8, 0x22#8]).wellFormed = false := by decide
theorem test_illformed_litx : (Instr.litx 0#2 0#8 []).wellFormed = false := by decide
theorem test_illformed_litxD : (Instr.litxD 0#1 1#8 [0x11#8]).wellFormed = false := by decide
theorem test_illformed_litxDFE : (Instr.litxDFE 0#8 [0x11#8, 0x22#8]).wellFormed = false := by decide

/-! ### Decoding words written out from 30 R71, R72, R78, R88 -/

theorem test_decode_lit : decode .stream [0b00000011#8, 0x11#8, 0x22#8, 0x33#8, 0x44#8] =
    .ok (.lit 3#5 [0x11#8, 0x22#8, 0x33#8, 0x44#8], []) := by rfl
theorem test_decode_rpt : decode .stream [0b00100010#8, 0xAB#8] = .ok (.rpt 2#5 0xAB#8, []) := by rfl
theorem test_decode_pair : decode .stream [0b01000001#8, 0x10#8, 0x20#8] = .ok (.pair 1#5 0x10#8 0x20#8, []) := by rfl
theorem test_decode_inc : decode .stream [0b01111111#8, 0x05#8] = .ok (.inc 31#5 0x05#8, []) := by rfl
theorem test_decode_fwd : decode .stream [0b10000011#8, 0x12#8, 0x34#8] = .ok (.fwd 3#5 0x1234#16, []) := by rfl
theorem test_decode_tbl : decode .stream [0b10100000#8, 0xFF#8, 0x00#8] = .ok (.tbl 0#5 0xFF00#16, []) := by rfl
theorem test_decode_bwd : decode .stream [0b11000001#8, 0x00#8, 0x03#8] = .ok (.bwd 1#5 0x0003#16, []) := by rfl
theorem test_decode_litx : decode .stream [0b11100011#8, 0x01#8, 0xAA#8, 0xBB#8, 0xCC#8] =
    .ok (.litx 3#2 1#8 [0xAA#8, 0xBB#8], [0xCC#8]) := by rfl
theorem test_decode_rptx : decode .stream [0b11100101#8, 0xFF#8, 0x77#8] = .ok (.rptx 1#2 0xFF#8 0x77#8, []) := by rfl
theorem test_decode_pairx : decode .stream [0b11101000#8, 0x00#8, 0x01#8, 0x02#8] =
    .ok (.pairx 0#2 0x00#8 0x01#8 0x02#8, []) := by rfl
theorem test_decode_incx : decode .stream [0b11101110#8, 0x20#8, 0x80#8] = .ok (.incx 2#2 0x20#8 0x80#8, []) := by rfl
theorem test_decode_fwdx : decode .stream [0b11110000#8, 0x03#8, 0x00#8, 0xFE#8] =
    .ok (.fwdx 0#2 0x03#8 0x00FE#16, []) := by rfl
theorem test_decode_tblx : decode .stream [0b11110111#8, 0x01#8, 0xFE#8, 0x00#8] =
    .ok (.tblx 3#2 0x01#8 0xFE00#16, []) := by rfl
theorem test_decode_bwdx : decode .stream [0b11111001#8, 0x01#8, 0x00#8, 0x01#8] =
    .ok (.bwdx 1#2 0x01#8 0x0001#16, []) := by rfl
theorem test_decode_litxD : decode .stream [0b11111101#8, 0x00#8, 0x42#8] = .ok (.litxD 1#1 0x00#8 [0x42#8], []) := by rfl
theorem test_decode_litxDFE : decode .stream [0b11111110#8, 0x00#8, 0x99#8] = .ok (.litxDFE 0x00#8 [0x99#8], []) := by rfl
theorem test_decode_end : decode .stream [0b11111111#8, 0x00#8] = .ok (.endStream, [0x00#8]) := by rfl
theorem test_decode_xlat : decode .host [0x01#8] = .ok (.xlat, []) := by rfl
theorem test_decode_gentbl : decode .host [0x02#8] = .ok (.gentbl, []) := by rfl
theorem test_decode_decomp : decode .host [0x03#8] = .ok (.decomp, []) := by rfl
theorem test_decode_compose : decode .host [0x04#8] = .ok (.compose, []) := by rfl
theorem test_decode_tslot : decode .host [0x05#8] = .ok (.tslot, []) := by rfl
theorem test_decode_reserved : decode .host [0x00#8] = .error (.reservedCommand 0x00#8) ∧
    decode .host [0xFF#8] = .error (.reservedCommand 0xFF#8) := ⟨rfl, rfl⟩
theorem test_decode_cut : decode .stream [0x03#8, 0x11#8, 0x22#8] = .error (.cutLiteral (.lit 3#5 [0x11#8, 0x22#8])) ∧
    decode .stream [0x80#8, 0x00#8] = .error .noOperand ∧ decode .stream [0xE4#8] = .error .noCount ∧
    decode .stream [] = .error .noOpcode := ⟨rfl, rfl, rfl, rfl⟩

theorem test_encode_pairx : encode (.pairx 2#2 0x07#8 0xAA#8 0x55#8) = [0b11101010#8, 0x07#8, 0xAA#8, 0x55#8] := by rfl
theorem test_encode_tbl : encode (.tbl 31#5 0x0102#16) = [0b10111111#8, 0x01#8, 0x02#8] := by rfl

/-! ### The stream instructions, one step each (95 parts 1 and 2) -/

/-- S3. -/
theorem test_lit : appends (step (decoding [0x03#8, 0x11#8, 0x22#8, 0x33#8, 0x44#8, 0xFF#8] [])) 5
    [0x11#8, 0x22#8, 0x33#8, 0x44#8] = true := by decide +kernel
/-- F4: the data bytes run out. -/
theorem test_lit_truncated : fails (step (decoding [0x03#8, 0x11#8, 0x22#8] [])) .truncatedStream 3 = true := by
  decide +kernel
/-- S4. -/
theorem test_rpt : appends (step (decoding [0x22#8, 0xAB#8, 0xFF#8] [])) 2 [0xAB#8, 0xAB#8, 0xAB#8] = true := by
  decide +kernel
/-- F5. -/
theorem test_rpt_truncated : fails (step (decoding [0x22#8] [])) .truncatedStream 1 = true := by decide +kernel
/-- S5. -/
theorem test_pair : appends (step (decoding [0x41#8, 0x10#8, 0x20#8, 0xFF#8] [])) 3 [0x10#8, 0x20#8, 0x10#8, 0x20#8] = true := by
  decide +kernel
/-- F18: overflow between the two bytes of a pair. -/
theorem test_pair_overflow : fails (step (capped 1 [0x40#8, 0x01#8, 0x02#8, 0xFF#8] [])) .outputOverflow 1 = true := by
  decide +kernel
/-- V8: the run wraps. -/
theorem test_inc : appends (step (decoding [0x63#8, 0xFE#8, 0xFF#8] [])) 2 [0xFE#8, 0xFF#8, 0x00#8, 0x01#8] = true := by
  decide +kernel
/-- V10: the third read sees what the first iteration wrote. -/
theorem test_fwd : appends (step (decoding [0x82#8, 0x00#8, 0x01#8, 0xFF#8] [0x01#8, 0x02#8, 0x03#8])) 3
    [0x01#8, 0x02#8, 0x03#8, 0x02#8, 0x03#8, 0x02#8] = true := by decide +kernel
/-- F13: the largest index. -/
theorem test_fwd_outside : fails (step (decoding [0x80#8, 0xFF#8, 0xFF#8, 0xFF#8] [0xAA#8])) .outOfRange 65535 = true := by
  decide +kernel
/-- V14: a byte already mapped is mapped back. -/
theorem test_tbl : appends (step (decoding [0xA3#8, 0x00#8, 0x00#8, 0xFF#8] [0x01#8])) 3
    [0x01#8, 0x80#8, 0x01#8, 0x80#8, 0x01#8] = true := by decide +kernel
/-- V15. -/
theorem test_bwd : appends (step (decoding [0xC1#8, 0x00#8, 0x01#8, 0xFF#8] [0xAA#8, 0xBB#8])) 3
    [0xAA#8, 0xBB#8, 0xBB#8, 0xAA#8] = true := by decide +kernel
/-- F15. -/
theorem test_bwd_below : fails (step (decoding [0xC3#8, 0x00#8, 0x02#8, 0xFF#8] [0x01#8, 0x02#8, 0x03#8])) .outOfRange (-1) = true := by
  decide +kernel
/-- X1. -/
theorem test_litx : appends (step (decoding [0xE0#8, 0x00#8, 0x5A#8, 0xFF#8] [])) 3 [0x5A#8] = true := by decide +kernel
/-- X5: the low opcode bits are ignored. -/
theorem test_rptx : appends (step (decoding [0xE7#8, 0x01#8, 0x77#8, 0xFF#8] [])) 3 [0x77#8, 0x77#8] = true := by
  decide +kernel
/-- F17: exactly full is no fault. -/
theorem test_rptx_full : next (step (capped 256 [0xE4#8, 0xFF#8, 0x00#8, 0xFF#8] []))
    (fun t => decide (t.len = 256 ∧ t.cur = 3)) = true := by decide +kernel
/-- X7. -/
theorem test_pairx : appends (step (decoding [0xE8#8, 0x00#8, 0x01#8, 0x02#8, 0xFF#8] [])) 4 [0x01#8, 0x02#8] = true := by
  decide +kernel
/-- X10: one pass through every byte value. -/
theorem test_incx : next (step (decoding [0xEC#8, 0xFF#8, 0x80#8, 0xFF#8] [])) (fun t => decide (t.len = 256 ∧ t.cur = 3 ∧
    t.out.read 0 = 0x80#8 ∧ t.out.read 127 = 0xFF#8 ∧ t.out.read 128 = 0x00#8 ∧ t.out.read 255 = 0x7F#8)) = true := by
  decide +kernel
/-- X11. -/
theorem test_fwdx : appends (step (decoding [0xF0#8, 0x00#8, 0x00#8, 0x00#8, 0xFF#8] [0x07#8])) 4 [0x07#8, 0x07#8] = true := by
  decide +kernel
/-- X12. -/
theorem test_tblx : appends (step (decoding [0xF4#8, 0x01#8, 0x00#8, 0x00#8, 0xFF#8] [0x01#8])) 4
    [0x01#8, 0x80#8, 0x01#8] = true := by decide +kernel
/-- X13. -/
theorem test_bwdx : appends (step (decoding [0xF8#8, 0x01#8, 0x00#8, 0x01#8, 0xFF#8] [0x0A#8, 0x0B#8])) 4
    [0x0A#8, 0x0B#8, 0x0B#8, 0x0A#8] = true := by decide +kernel
/-- X14. -/
theorem test_litxD : appends (step (decoding [0xFC#8, 0x02#8, 0xFF#8, 0xFF#8, 0xFF#8, 0xFF#8] [])) 5
    [0xFF#8, 0xFF#8, 0xFF#8] = true := by decide +kernel
/-- X16. -/
theorem test_litxDFE : appends (step (decoding [0xFE#8, 0x00#8, 0x99#8, 0xFF#8] [])) 3 [0x99#8] = true := by decide +kernel
/-- S10: END at once, an empty result. -/
theorem test_end : next (step (decoding [0xFF#8] [])) (fun t => decide (t.st = .done ∧ t.len = 0 ∧ t.cur = 1 ∧
    t.err = .none ∧ t.engine = .idle ∧ t.valid.out = true)) = true := by decide +kernel
/-- W1: the window at the END of a COMPOSE. -/
theorem test_end_compose : next (step (composing 0x8640#16 0#1 [0xFF#8] (List.replicate 16 0x3C#8)))
    (fun t => decide (t.st = .done ∧
      t.win.read 0x63F = 0x00#8 ∧ t.win.read 0x640 = 0x3C#8 ∧ t.win.read 0x64F = 0x3C#8 ∧ t.win.read 0x650 = 0x00#8 ∧
      t.win.read 0xFD0 = 0xDD#8 ∧ t.win.read 0xFEF = 0xEE#8 ∧ t.win.read 0xFF0 = 0x00#8 ∧ t.valid.win = true)) = true := by
  decide +kernel

/-! ### The host operations (95 sections 2.1, 2.2, 2.5 to 2.7) -/

/-- S1, and the largest position. -/
theorem test_xlat : next (exec .xlat { State.reset with offset := 0x511F#16, bank := 0x08#8 })
      (fun t => decide (t.pos = 0x02111F#22 ∧ t.st = .done)) = true ∧
    next (exec .xlat { State.reset with offset := 0xFFFF#16, bank := 0xFF#8 })
      (fun t => decide (t.pos = 0x3FFFFF#22)) = true := by decide +kernel
/-- S2: the table of R118, from any register contents. -/
theorem test_gentbl : next (exec .gentbl { State.reset with
      tbl := [(3, 0x55#8)], gen := { ga := 1#8, gr := 9#8, gc := 1#1, gi := 3#4, gn := 7#9 } })
    (fun t => decide ((List.range 256).map t.tbl.read = Config.tblListing ∧ t.gen.gn = 256#9 ∧ t.st = .done)) = true := by
  decide +kernel
/-- Section 2.2, iteration 18: GA and GR after the first and the last inner step. -/
theorem test_inner : (Gen.inner ⟨0x89#8, 0x12#8, 0#1, 0#4, 18#9⟩).ga = 0x12#8 ∧
    (Gen.inner ⟨0x89#8, 0x12#8, 0#1, 0#4, 18#9⟩).gr = 0x09#8 ∧
    (Gen.eight ⟨0x89#8, 0x12#8, 0#1, 0#4, 18#9⟩).ga = 0x48#8 := by decide +kernel
/-- What the reset's own GENTBL run leaves is what State.reset holds (log 8). -/
theorem test_reset_table : State.reset.gen.run.1 = Config.tblListing ∧ State.reset.gen.run.2 = State.reset.gen := by
  decide +kernel
/-- P2: the start of a DECOMP. -/
theorem test_decomp : next (exec .decomp (idle [0xDE#8, 0xAD#8, 0x22#8, 0xAB#8, 0xFF#8] 2#22 []))
    (fun t => decide (t.cur = 2 ∧ t.len = 0 ∧ t.engine = .decomp)) = true := by decide +kernel
/-- F1, F2. -/
theorem test_decomp_checked : fails (exec .decomp (idle [] 0#22 [])) .emptyInput 0 = true ∧
    fails (exec .decomp (idle [0xFF#8] 1#22 [])) .outOfRange 1 = true := by decide +kernel
/-- Section 2.6, control byte E4. -/
theorem test_compose : next (exec .compose (idle [0xE4#8, 0x00#8, 0x99#8, 0xFF#8] 0#22 []))
    (fun t => decide (t.vstart = 0x87F0#16 ∧ t.baseSel = 0#1 ∧ t.cur = 1 ∧ t.engine = .compose)) = true := by decide +kernel
/-- W11 and W10: the two ends that fault. -/
theorem test_compose_fails : fails (step { composing 0x8800#16 1#1 [0xE3#8] [] with cur := 1 }) .truncatedStream 1 = true ∧
    fails (exec .endStream { composing 0x9630#16 1#1 [] [] with len := 2513 }) .windowOverflow 6145 = true := by decide +kernel
/-- S11. -/
theorem test_tslot : next (exec .tslot { State.reset with tilein := 0x05#8 }) (fun t => decide (t.slot = 0x85#8)) = true ∧
    next (exec .tslot { State.reset with tilein := 0x90#8 }) (fun t => decide (t.slot = 0x10#8)) = true := by decide +kernel

/-! ### The host's moves -/

/-- Section 2.8: reserved codes and reads of nothing valid. -/
theorem test_refused : hostStep (.writeCmd 0x06#8) State.reset = .refused (.reservedCommand 0x06#8) ∧
    hostRead (.out 0) State.reset = .refused (.invalidResult (.out 0)) ∧
    hostRead .slot State.reset = .refused (.invalidResult .slot) ∧
    hostRead (.win 0x1800) State.reset = .fault (.absentAddress (.win 0x1800)) := ⟨rfl, rfl, rfl, rfl⟩
/-- 10_state R24 and R47: POS is read back as written, and CMD holds the code that ran. -/
theorem test_read_back : next (hostStep (.writePos 0x3FFFFF#22) State.reset)
      (fun t => decide (hostRead .pos t = .value 0x3FFFFF)) = true ∧
    next (hostStep (.writeCmd 0x05#8) State.reset) (fun t => decide (hostRead .cmd t = .value 5)) = true := by decide +kernel
/-- A table word runs as the next step, a stream byte and a command. -/
theorem test_withFetchWord : next (step (State.reset.withFetchWord 16 0xAB22)) (fun t => decide (outBytes t =
      [0xAB#8, 0xAB#8, 0xAB#8])) = true ∧
    next (step (State.reset.withFetchWord 8 0x05)) (fun t => decide (t.slot = 0x80#8)) = true ∧
    decodeTableWord 16 0xAB22 = some (.rpt 2#5 0xAB#8) ∧ decodeTableWord 8 0x03 = some .decomp ∧
    decodeTableWord 8 0xFF = some .endStream := by decide +kernel

/-! ### Hypotheses that can be met, for every statement of Obligations.lean that has some -/

theorem test_witness_EncodeThenDecode : (Instr.lit 0#5 [0x11#8]).wellFormed = true ∧
    (Instr.litx 3#2 0xFF#8 (List.replicate 256 0x5A#8)).wellFormed = true ∧ Instr.xlat.wellFormed = true := by decide +kernel

theorem test_witness_DecodeThenEncode : decode .stream [0xE8#8, 0x00#8, 0x01#8, 0x02#8, 0xFF#8] =
    .ok (.pairx 0#2 0x00#8 0x01#8 0x02#8, [0xFF#8]) ∧ decode .host [0x05#8] = .ok (.tslot, []) := ⟨rfl, rfl⟩

theorem test_witness_EveryOpcodeByteSelectsItsRow : 257 ≤ (List.replicate 257 0xFF#8 : List Byte).length := by decide +kernel

theorem test_witness_DecoderTakesTheTableLength : decode .stream [0x1F#8] = .error (.cutLiteral (.lit 31#5 [])) ∧
    decode .stream [0x9F#8, 0x00#8, 0x00#8, 0xFF#8] = .ok (.fwd 31#5 0x0000#16, [0xFF#8]) := ⟨rfl, rfl⟩

/-- Inside a decode, and inside a COMPOSE at the last byte of the ROM. -/
theorem test_witness_StepRunsTheDecodedStreamInstruction :
    ((decoding [0x22#8, 0xAB#8] []).engine ≠ .idle ∧ resetNext (decoding [0x22#8, 0xAB#8] []) = false ∧
      decode .stream (romBytes (decoding [0x22#8, 0xAB#8] []) 0 maxLength) = .ok (.rpt 2#5 0xAB#8, [])) ∧
    ((composing 0x8800#16 1#1 [0xFF#8] []).engine ≠ .idle ∧ resetNext (composing 0x8800#16 1#1 [0xFF#8] []) = false ∧
      decode .stream (romBytes (composing 0x8800#16 1#1 [0xFF#8] []) 0 maxLength) = .ok (.endStream, [])) :=
  ⟨⟨by decide, rfl, rfl⟩, ⟨by decide, rfl, rfl⟩⟩

theorem test_witness_StepRunsTheCommandOrRefusesIt :
    (idle [] 0#22 [.writeCmd 0x05#8]).engine = .idle ∧ (idle [] 0#22 [.writeCmd 0x05#8]).host = [.writeCmd 0x05#8] ∧
    (idle [] 0#22 [.writeCmd 0x06#8]).host = [.writeCmd 0x06#8] := ⟨rfl, rfl, rfl⟩

theorem test_witness_HostWritesStoreTheirValue :
    (idle [] 0#22 [.writeOffset 0xFFFF#16]).engine = .idle ∧
    (idle [] 0#22 [.writeOffset 0xFFFF#16]).host = [.writeOffset 0xFFFF#16] ∧
    (idle [] 0#22 [.writeBank 0xFF#8]).host = [.writeBank 0xFF#8] ∧
    (idle [] 0#22 [.writePos 0x3FFFFF#22]).host = [.writePos 0x3FFFFF#22] ∧
    (idle [] 0#22 [.writeTilein 0x80#8]).host = [.writeTilein 0x80#8] ∧
    (idle [] 0#22 [.supplyRom [0xFF#8]]).host = [.supplyRom [0xFF#8]] ∧
    (idle [] 0#22 []).host = [] := ⟨rfl, rfl, rfl, rfl, rfl, rfl, rfl⟩

theorem test_witness_ResetStopsAnyOperation :
    ({ decoding [0x22#8] [] with host := [.reset] } : State).host = [.reset] ∧
    ({ decoding [0x22#8] [] with host := [.reset] } : State).engine = .decomp := ⟨rfl, rfl⟩

/-- One byte exactly fills the capacity; 256 bytes with the longest count. -/
theorem test_witness_LiteralCopiesAppendTheirData :
    (capped 1 [] []).out.wf ∧ (capped 1 [] []).len + [0x11#8].length ≤ (capped 1 [] []).params.outCap ∧
    [0x11#8].length = (0#5).toNat + 1 ∧ [0x11#8].length = (0#8).toNat + 1 ∧
    (capped 256 [] []).len + (List.replicate 256 0x5A#8).length ≤ (capped 256 [] []).params.outCap ∧
    (List.replicate 256 0x5A#8).length = (0xFF#8).toNat + 1 := by decide +kernel

theorem test_witness_RepeatedByteAppendsItNTimes : (capped 32 [] []).out.wf ∧
    (capped 32 [] []).len + ((31#5).toNat + 1) ≤ (capped 32 [] []).params.outCap ∧
    (capped 256 [] []).len + ((0xFF#8).toNat + 1) ≤ (capped 256 [] []).params.outCap := by decide +kernel

theorem test_witness_RepeatedPairAppendsItNTimes : (capped 64 [] []).out.wf ∧
    (capped 64 [] []).len + 2 * ((31#5).toNat + 1) ≤ (capped 64 [] []).params.outCap ∧
    (capped 512 [] []).len + 2 * ((0xFF#8).toNat + 1) ≤ (capped 512 [] []).params.outCap := by decide +kernel

theorem test_witness_IncrementingRunCountsModulo256 : (capped 32 [] []).out.wf ∧
    (capped 32 [] []).len + ((31#5).toNat + 1) ≤ (capped 32 [] []).params.outCap ∧
    (capped 256 [] []).len + ((0xFF#8).toNat + 1) ≤ (capped 256 [] []).params.outCap := by decide +kernel

/-- One byte in OUT, start 0, the longest counts, exactly full at the end. -/
theorem test_witness_ForwardCopyReadsItsOwnOutput : (capped 257 [] [0x01#8]).out.wf ∧
    (0x0000#16).toNat < (capped 257 [] [0x01#8]).len ∧
    (capped 257 [] [0x01#8]).len + ((31#5).toNat + 1) ≤ (capped 257 [] [0x01#8]).params.outCap ∧
    (capped 257 [] [0x01#8]).len + ((0xFF#8).toNat + 1) ≤ (capped 257 [] [0x01#8]).params.outCap := by decide +kernel

/-- The same state, with the longest period, start = LEN - 1, and two bytes. -/
theorem test_witness_ForwardCopyRepeatsWithPeriod : (capped 258 [] [0x01#8, 0x02#8]).out.wf ∧
    (0x0001#16).toNat < (capped 258 [] [0x01#8, 0x02#8]).len ∧
    (capped 258 [] [0x01#8, 0x02#8]).len + ((31#5).toNat + 1) ≤ (capped 258 [] [0x01#8, 0x02#8]).params.outCap ∧
    (capped 258 [] [0x01#8, 0x02#8]).len + ((0xFF#8).toNat + 1) ≤ (capped 258 [] [0x01#8, 0x02#8]).params.outCap := by
  decide +kernel

theorem test_witness_TableCopyMapsEachByteRead : (capped 257 [] [0x12#8]).out.wf ∧
    (0x0000#16).toNat < (capped 257 [] [0x12#8]).len ∧
    (capped 257 [] [0x12#8]).len + ((31#5).toNat + 1) ≤ (capped 257 [] [0x12#8]).params.outCap ∧
    (capped 257 [] [0x12#8]).len + ((0xFF#8).toNat + 1) ≤ (capped 257 [] [0x12#8]).params.outCap := by decide +kernel

/-- Down to index 0 exactly: `n = start + 1`. -/
theorem test_witness_BackwardCopyReversesTheBytes : (capped 4 [] [0xAA#8, 0xBB#8]).out.wf ∧
    (0x0001#16).toNat < (capped 4 [] [0xAA#8, 0xBB#8]).len ∧
    (1#5).toNat + 1 ≤ (0x0001#16).toNat + 1 ∧ (1#8).toNat + 1 ≤ (0x0001#16).toNat + 1 ∧
    (capped 4 [] [0xAA#8, 0xBB#8]).len + ((1#5).toNat + 1) ≤ (capped 4 [] [0xAA#8, 0xBB#8]).params.outCap ∧
    (capped 4 [] [0xAA#8, 0xBB#8]).len + ((1#8).toNat + 1) ≤ (capped 4 [] [0xAA#8, 0xBB#8]).params.outCap := by
  decide +kernel

/-- F10 and F12: an empty OUT, and a start index equal to LEN. -/
theorem test_witness_SelfCopyStartOutsideRaisesOutOfRange : (decoding [] []).len ≤ (0x0000#16).toNat ∧
    (decoding [] [0x01#8]).len ≤ (0x0001#16).toNat ∧
    Instr.bwdx 0#2 0xFF#8 0x0001#16 ∈ [Instr.fwd 0#5 0x0001#16, .tbl 0#5 0x0001#16, .bwd 0#5 0x0001#16,
      .fwdx 0#2 0xFF#8 0x0001#16, .tblx 0#2 0xFF#8 0x0001#16, .bwdx 0#2 0xFF#8 0x0001#16] := by decide +kernel

/-- F14: one byte too many below index 0. -/
theorem test_witness_BackwardCopyBelowZeroRaisesOutOfRange : (capped 2 [] [0xAA#8]).out.wf ∧
    (0x0000#16).toNat < (capped 2 [] [0xAA#8]).len ∧
    (capped 2 [] [0xAA#8]).len + ((0x0000#16).toNat + 1) ≤ (capped 2 [] [0xAA#8]).params.outCap ∧
    (0x0000#16).toNat + 1 < (1#5).toNat + 1 ∧ (0x0000#16).toNat + 1 < (1#8).toNat + 1 := by decide +kernel

/-- A pair over a capacity of one byte; a forward and a backward copy one byte too long. -/
theorem test_witness_CrossingTheCapacityRaisesOutputOverflow :
    ((Instr.pair 0#5 0x01#8 0x02#8).space = .stream ∧ (Instr.pair 0#5 0x01#8 0x02#8).wellFormed = true ∧
      ReadsStayInside (capped 1 [] []) (.pair 0#5 0x01#8 0x02#8) ∧ (capped 1 [] []).len ≤ (capped 1 [] []).params.outCap ∧
      (capped 1 [] []).params.outCap < (capped 1 [] []).len + produced (.pair 0#5 0x01#8 0x02#8)) ∧
    (ReadsStayInside (capped 1 [] [0x01#8]) (.fwd 0#5 0x0000#16) ∧
      (capped 1 [] [0x01#8]).params.outCap < (capped 1 [] [0x01#8]).len + produced (.fwd 0#5 0x0000#16)) ∧
    (ReadsStayInside (capped 3 [] [0x01#8, 0x02#8]) (.bwdx 0#2 1#8 0x0001#16) ∧
      (capped 3 [] [0x01#8, 0x02#8]).params.outCap < (capped 3 [] [0x01#8, 0x02#8]).len + produced (.bwdx 0#2 1#8 0x0001#16)) :=
  ⟨⟨rfl, rfl, trivial, by decide, by decide⟩, ⟨by show 0 < 1; decide, by decide⟩,
    ⟨⟨by show 1 < 2; decide, by show 3 - 2 ≤ 1; decide⟩, by decide⟩⟩

/-- F6, F7, F5 and F4: no opcode, no count, no operand, a literal without all its data (which fits, or does not). -/
theorem test_witness_MissingBytesRaiseTruncatedStream :
    ((decoding [] []).engine ≠ .idle ∧ resetNext (decoding [] []) = false ∧ (decoding [] []).cur ≤ (decoding [] []).romSize ∧
      (decoding [] []).len ≤ (decoding [] []).params.outCap ∧
      decode .stream (romBytes (decoding [] []) 0 maxLength) = .error .noOpcode) ∧
    decode .stream (romBytes (decoding [0xE4#8] []) 0 maxLength) = .error .noCount ∧
    decode .stream (romBytes (decoding [0x22#8] []) 0 maxLength) = .error .noOperand ∧
    (decode .stream (romBytes (decoding [0x03#8, 0x11#8, 0x22#8] []) 0 maxLength) =
        .error (.cutLiteral (.lit 3#5 [0x11#8, 0x22#8])) ∧
      (capped 2 [0x03#8, 0x11#8, 0x22#8] []).len + [0x11#8, 0x22#8].length ≤
        (capped 2 [0x03#8, 0x11#8, 0x22#8] []).params.outCap ∧
      (capped 1 [0x03#8, 0x11#8, 0x22#8] []).params.outCap <
        (capped 1 [0x03#8, 0x11#8, 0x22#8] []).len + [0x11#8, 0x22#8].length) :=
  ⟨⟨by decide, rfl, by decide, by decide +kernel, rfl⟩, rfl, rfl, rfl, by decide, by decide⟩

theorem test_witness_EndOfDecompIsDone : (decoding [0xFF#8] []).engine = .decomp := rfl

/-- An exact fit, `pad + LEN = 0x1800`, with a base of 0x8800 (W9); and W1's base of 0x8000. -/
theorem test_witness_EndOfComposeFillsTheWindow :
    ({ composing 0x9630#16 1#1 [0xFF#8] [] with len := 2512 } : State).engine = .compose ∧
    ({ composing 0x9630#16 1#1 [0xFF#8] [] with len := 2512 } : State).out.wf ∧
    (0x9630#16).toNat - (if (1#1) = 0#1 then 0x8000 else 0x8800) + 2512 ≤ 0x1800 ∧
    (0x8640#16).toNat - (if (0#1) = 0#1 then 0x8000 else 0x8800) + 16 ≤ 0x1800 := by decide +kernel

/-- W10: one byte too many; and W9: an exact fit. -/
theorem test_witness_EndOfComposeRaisesWindowOverflow :
    ({ composing 0x9630#16 1#1 [0xFF#8] [] with len := 2513 } : State).engine = .compose ∧
    0x1800 < (0x9630#16).toNat - (if (1#1) = 0#1 then 0x8000 else 0x8800) + 2513 ∧
    (0x9630#16).toNat - (if (1#1) = 0#1 then 0x8000 else 0x8800) + 2512 = 0x1800 := by decide +kernel

/-- What the canonical TBL of reset is: any TBL that GENTBL overwrites may stand there. -/
theorem test_witness_GentblWritesBitReversal : Memory.wf [(3, 0x55#8), (300, 0x01#8)] := by decide

theorem test_witness_DecompStartsTheDecode : (idle [0xFF#8] 0#22 []).pos.toNat < (idle [0xFF#8] 0#22 []).romSize := by decide

theorem test_witness_ComposeReadsTheControlByte :
    (idle [0x00#8, 0xE3#8] 1#22 []).pos.toNat < (idle [0x00#8, 0xE3#8] 1#22 []).romSize := by decide

/-- F1 and F2: no ROM; a start position equal to ROM_SIZE. -/
theorem test_witness_StartPositionIsChecked :
    ((idle [] 0#22 []).romSize ≤ (idle [] 0#22 []).pos.toNat ∧ (idle [] 0#22 []).romSize = 0) ∧
    ((idle [0xFF#8] 1#22 []).romSize ≤ (idle [0xFF#8] 1#22 []).pos.toNat ∧ 0 < (idle [0xFF#8] 1#22 []).romSize) := by decide

theorem test_witness_ControlByteFixesThePad : (0xE3#8).toNat ≤ 0xE3 ∧ 0xE4 ≤ (0xE4#8).toNat := by decide

theorem test_witness_InnerStepRotatesRightCircularly : (Gen.mk 7#8 1#8 0#1 0#4 1#9).gr = 1#8 := rfl

theorem test_witness_GeneratorStopsAfter256Appends : 256 ≤ 256 ∧ 256 ≤ 1000 := by decide

/-- A decoding state with one byte appended meets the invariant, and its step goes on. -/
theorem test_witness_Inv : Inv (decoding [0x22#8, 0xAB#8, 0xFF#8] [0x01#8]) where
  rom_wf := by decide
  rom_in := by decide
  out_wf := by decide
  out_in := by decide +kernel
  tbl_eq := rfl
  win_wf := by decide
  win_in := by decide
  len_le := by decide +kernel
  err_st := by decide
  err_ok := by decide
  cur_le := fun _ => by decide
  no_out := fun _ => rfl
  no_win := fun _ => rfl
  window := by decide

theorem test_witness_step : ∃ t, step (decoding [0x22#8, 0xAB#8, 0xFF#8] [0x01#8]) = .next t := ⟨_, rfl⟩

/-- The statements with hypotheses `Inv s` and a step that is next. -/
theorem test_witness_InvariantKeptByEveryStep : ∃ s t, Inv s ∧ step s = .next t :=
  ⟨_, test_witness_step.choose, test_witness_Inv, test_witness_step.choose_spec⟩

theorem test_witness_TableIsItsOwnInverse : ∃ s, Inv s := ⟨_, test_witness_Inv⟩

theorem test_witness_RefinesTheSoftware : ∃ s, Inv s ∧ resetNext s = false := ⟨_, test_witness_Inv, rfl⟩

/-- A stream instruction inside a DECOMP and inside a COMPOSE whose ST is still the FAULT of an earlier operation, one of an
idle block, a DECOMP and a COMPOSE, each ending in an error. -/
theorem test_witness_ErrorsKeepTableAndHostRegisters :
    (({ decoding [] [] with st := .fault } : State).engine ≠ .idle ∧
      next (exec (.fwd 0#5 0#16) { decoding [] [] with st := .fault }) (fun t => decide (t.engine = .idle ∧ t.st = .fault)) = true) ∧
    (({ composing 0x8800#16 1#1 [] [] with st := .fault } : State).engine = .compose ∧
      next (exec (.fwd 0#5 0#16) { composing 0x8800#16 1#1 [] [] with st := .fault })
        (fun t => decide (t.engine = .idle ∧ t.st = .fault)) = true) ∧
    ((idle [] 0#22 []).st ≠ .fault ∧
      next (exec (.fwd 0#5 0#16) (idle [] 0#22 [])) (fun t => decide (t.engine = .idle ∧ t.st = .fault)) = true) ∧
    next (exec .decomp { idle [] 0#22 [] with st := .fault }) (fun t => decide (t.engine = .idle ∧ t.st = .fault)) = true ∧
    next (exec .compose (idle [] 0#22 [])) (fun t => decide (t.engine = .idle ∧ t.st = .fault)) = true := by decide +kernel

theorem test_witness_XlatGentblTslotNeverRaise : Instr.gentbl = .xlat ∨ Instr.gentbl = .gentbl ∨ Instr.gentbl = .tslot :=
  .inr (.inl rfl)

/-- A step inside a decode that is no reset: it goes on; it ends a COMPOSE with DONE; it raises. -/
theorem test_witness_StreamsReachOnlyTheirSpaces :
    ((decoding [0x22#8, 0xAB#8, 0xFF#8] [0x01#8]).engine ≠ .idle ∧
      resetNext (decoding [0x22#8, 0xAB#8, 0xFF#8] [0x01#8]) = false ∧
      next (step (decoding [0x22#8, 0xAB#8, 0xFF#8] [0x01#8])) (fun t => decide (t.engine ≠ .idle)) = true) ∧
    ((composing 0x8800#16 1#1 [0xFF#8] []).engine = .compose ∧
      next (step (composing 0x8800#16 1#1 [0xFF#8] [])) (fun t => decide (t.engine = .idle ∧ t.st = .done)) = true) ∧
    next (step (composing 0x8800#16 1#1 [] [])) (fun t => decide (t.engine = .idle ∧ t.st = .fault)) = true := by
  decide +kernel

theorem test_witness_RomIsNeverWritten : next (step (idle [0xFF#8] 0#22 [.writeBank 1#8])) (fun _ => true) = true ∧
    ∀ image moves, (idle [0xFF#8] 0#22 [.writeBank 1#8]).host ≠ .supplyRom image :: moves :=
  ⟨rfl, fun _ _ => by simp [idle]⟩

/-- A step inside a decode, with LEN and CUR above 0: it goes on; it raises. -/
theorem test_witness_CursorNeverRewinds :
    ((decoding [0x22#8, 0xAB#8, 0xFF#8] [0x01#8]).engine ≠ .idle ∧
      resetNext (decoding [0x22#8, 0xAB#8, 0xFF#8] [0x01#8]) = false ∧
      next (step (decoding [0x22#8, 0xAB#8, 0xFF#8] [0x01#8])) (fun t => decide (t.engine ≠ .idle)) = true) ∧
    (({ decoding [0xFF#8] [0x01#8] with cur := 1 } : State).engine ≠ .idle ∧
      resetNext ({ decoding [0xFF#8] [0x01#8] with cur := 1 } : State) = false ∧
      next (step { decoding [0xFF#8] [0x01#8] with cur := 1 }) (fun t => decide (t.engine = .idle ∧ t.st = .fault)) = true) := by
  decide +kernel

/-- The stream instructions that do not raise, END among them; one in a decode whose ST is still an earlier FAULT. -/
theorem test_witness_LengthsAndCountsAccountForEveryByte :
    ((Instr.pairx 0#2 0#8 1#8 2#8).space = .stream ∧ (Instr.pairx 0#2 0#8 1#8 2#8).wellFormed = true ∧
      next (exec (.pairx 0#2 0#8 1#8 2#8) (decoding [] [])) (fun t => decide ¬(t.engine = .idle ∧ t.st = .fault)) = true ∧
      next (exec (.pairx 0#2 0#8 1#8 2#8) { decoding [] [] with st := .fault })
        (fun t => decide (¬(t.engine = .idle ∧ t.st = .fault) ∧ t.st = .fault)) = true) ∧
    (Instr.endStream.space = .stream ∧ Instr.endStream.wellFormed = true ∧
      next (exec .endStream (decoding [] [])) (fun t => decide ¬(t.engine = .idle ∧ t.st = .fault)) = true) := by decide +kernel

theorem test_witness_MeaningIsPositionIndependent :
    (Instr.lit 0#5 [0x11#8]).space = .stream ∧ (Instr.lit 0#5 [0x11#8]).wellFormed = true := ⟨rfl, rfl⟩

/-- A decode with bytes left, and one at the end of the ROM. -/
theorem test_witness_EveryDecodeEnds :
    ((decoding [0x22#8, 0xAB#8] []).engine ≠ .idle ∧ resetNext (decoding [0x22#8, 0xAB#8] []) = false ∧
      (decoding [0x22#8, 0xAB#8] []).cur ≤ (decoding [0x22#8, 0xAB#8] []).romSize) ∧
    (decoding [] []).cur ≤ (decoding [] []).romSize := by decide

/-- Two machines that agree on the inputs of a decode and differ elsewhere. -/
theorem test_witness_DecodeDependsOnItsInputsOnly :
    SameDecode (decoding [0x20#8, 0xAB#8] [0x01#8])
      { decoding [0x20#8, 0xAB#8] [0x01#8, 0x02#8] with len := 1, slot := 0x77#8, vstart := 1#16 } ∧
    (decoding [0x20#8, 0xAB#8] [0x01#8]).out.wf ∧
    ({ decoding [0x20#8, 0xAB#8] [0x01#8, 0x02#8] with len := 1, slot := 0x77#8, vstart := 1#16 } : State).out.wf ∧
    next (step (decoding [0x20#8, 0xAB#8] [0x01#8])) (fun t => decide (t.engine ≠ .idle)) = true ∧
    next (step (decoding [] [])) (fun t => decide (t.engine = .idle)) = true := by
  refine ⟨⟨rfl, rfl, rfl, rfl, rfl, rfl, rfl, fun h => (nomatch h), fun a ha => ?_⟩, by decide, by decide, by decide +kernel,
    by decide +kernel⟩
  have : a = 0 := Nat.lt_one_iff.1 ha
  subst this
  rfl

/-- A state whose results are valid, one whose results are not, one in an error. -/
theorem test_witness_reads :
    (State.reset.valid.out = false ∧ State.reset.valid.win = false ∧ State.reset.valid.slot = false ∧ State.reset.st ≠ .fault) ∧
    next (step (decoding [0xFF#8] [0x01#8])) (fun t => decide (t.valid.out = true ∧ 0 < t.len ∧ 0 < t.params.outCap)) = true ∧
    next (step (composing 0x8800#16 1#1 [0xFF#8] [])) (fun t => decide (t.valid.win = true)) = true ∧
    next (exec .tslot State.reset) (fun t => decide (t.valid.slot = true)) = true ∧
    next (step (decoding [] [])) (fun t => decide (t.st = .fault)) = true := by decide +kernel

/-- OFFSET 0x511F in BANK 8 (40 R100's example) over no ROM, and over a ROM of one byte. -/
theorem test_witness_PositionOutsideTheRomIsFoundAtItsFirstUse :
    (let s : State := { idle [] 0#22 [] with bank := 8#8, offset := 0x511F#16 }
     s.romSize ≤ s.bank.toNat * 0x4000 + s.offset.toNat % 0x4000 ∧ s.romSize = 0) ∧
    (let s : State := { idle [0xFF#8] 0#22 [] with bank := 8#8, offset := 0x511F#16 }
     s.romSize ≤ s.bank.toNat * 0x4000 + s.offset.toNat % 0x4000 ∧ 0 < s.romSize) := by decide

/-- A DECOMP and a COMPOSE that END ends, and a host operation. -/
theorem test_witness_SuccessEndsDoneWithoutError :
    ((decoding [0xFF#8] []).engine ≠ .idle ∧ resetNext (decoding [0xFF#8] []) = false ∧
      next (step (decoding [0xFF#8] [])) (fun t => decide (t.engine = .idle ∧ t.st ≠ .fault)) = true) ∧
    ((composing 0x8800#16 1#1 [0xFF#8] []).engine ≠ .idle ∧ resetNext (composing 0x8800#16 1#1 [0xFF#8] []) = false ∧
      next (step (composing 0x8800#16 1#1 [0xFF#8] [])) (fun t => decide (t.engine = .idle ∧ t.st ≠ .fault)) = true) ∧
    (Instr.xlat.space = .host ∧
      next (exec .xlat State.reset) (fun t => decide (t.engine = .idle ∧ t.st ≠ .fault)) = true) := by decide +kernel

theorem test_witness_ResetLeavesWhatTheSpecSays :
    Port.cmd ∈ [Port.offset, .bank, .pos, .tilein, .cmd] ∧
    Port.len ∉ [Port.st, .err, .offset, .bank, .pos, .tilein, .cmd] ∧ ∀ k, Port.len ≠ .tbl k :=
  ⟨by decide, by decide, nofun⟩

theorem test_witness_TileReadNeverFaults :
    next (step (composing 0x8800#16 1#1 [0xFF#8] [])) (fun t => decide (t.valid.win = true)) = true := by decide +kernel

theorem test_witness_HostReadsHaveNoSideEffect :
    (idle [] 0#22 [.read .st]).engine = .idle ∧ (idle [] 0#22 [.read .st]).host = [.read .st] := ⟨rfl, rfl⟩

/-- A step that is no reset, and a reset, on a state whose five registers have all been written. -/
theorem test_witness_SpecifiedReadsStaySpecifiedUntilReset :
    (let s : State := { idle [] 0#22 [.read .pos] with
        valid := { Valid.reset with offset := true, bank := true, tilein := true, pos := true, cmd := true } }
     resetNext s = false ∧ next (step s) (fun _ => true) = true ∧
       ∀ p ∈ [Port.offset, .bank, .pos, .tilein, .cmd], readIsSpecified p s = true) ∧
    (resetNext (idle [] 0#22 [.reset]) = true ∧ next (step (idle [] 0#22 [.reset])) (fun _ => true) = true ∧
      Port.offset ∈ [Port.offset, .bank, .pos, .tilein, .cmd]) := by decide +kernel

end Sys2Proof.Tests
end

section
/-! PROOFS. The address translator (spec 40): what XLAT does, and where a position outside the ROM is found. -/

namespace Sys2Proof.Machine

/-! ### XLAT -/

theorem exec_xlat (s : State) :
    exec .xlat s = .next (done { s with pos := linearOf s.offset s.bank, valid := { s.valid with pos := true } }) := rfl

/-- The mask takes the low 14 bits of OFFSET, and the 22-bit sum does not overflow (40 R100, R103). -/
theorem linearOf_toNat (offset : Half) (bank : Byte) :
    (linearOf offset bank).toNat = bank.toNat * 0x4000 + offset.toNat % 0x4000 := by
  have hmask : (offset &&& 0x3FFF#16).toNat = offset.toNat % 0x4000 := by
    rw [BitVec.toNat_and]
    exact Nat.and_two_pow_sub_one_eq_mod offset.toNat 14
  have hbank : bank.toNat < 256 := bank.isLt
  simp only [linearOf, BitVec.toNat_add, BitVec.toNat_mul, BitVec.truncate_eq_setWidth, BitVec.toNat_setWidth,
    BitVec.toNat_ofNat, hmask]
  omega

/-! ### A start position outside the ROM -/

/-- The start-position check raises where POS is at or past ROM_SIZE: EmptyInput(0) without a ROM, else OutOfRange(POS)
(00_scope R13). -/
theorem startCheck_bind_outside (e : Engine) {s : State} (g : State → Flow) (h : s.romSize ≤ s.pos.toNat) :
    ∃ kind info, (startCheck (beginDecode e s)).bind g = .trap kind info (beginDecode e s) ∧
      (0 < s.romSize → kind = .outOfRange ∧ info = s.pos.toNat) ∧
      (s.romSize = 0 → kind = .emptyInput ∧ info = 0) := by
  obtain ⟨hempty, hflow⟩ | ⟨hrom, -, hflow⟩ | ⟨hin, -⟩ := start_cases e s g
  · exact ⟨_, _, hflow, fun hpos => absurd hempty hpos.ne', fun _ => ⟨rfl, rfl⟩⟩
  · exact ⟨_, _, hflow, fun _ => ⟨rfl, rfl⟩, fun hempty => absurd hempty hrom⟩
  · exact absurd h hin.not_ge

/-- DECOMP and COMPOSE both begin with the start-position check, so both raise what it raises. -/
theorem exec_start_outside {i : Instr} (hi : i = .decomp ∨ i = .compose) {s : State} (h : s.romSize ≤ s.pos.toNat) :
    ∃ e kind info, exec i s = .next (raise kind info (beginDecode e s)) ∧
      (0 < s.romSize → kind = .outOfRange ∧ info = s.pos.toNat) ∧
      (s.romSize = 0 → kind = .emptyInput ∧ info = 0) := by
  obtain rfl | rfl := hi
  · obtain ⟨kind, info, hflow, hkind⟩ := startCheck_bind_outside .decomp (fun t => .ok (startAt t.pos.toNat t)) h
    exact ⟨.decomp, kind, info, by rw [exec_decomp, hflow, Flow.outcome_trap], hkind⟩
  · obtain ⟨kind, info, hflow, hkind⟩ := startCheck_bind_outside .compose (fun t => .ok (composeBegin t)) h
    exact ⟨.compose, kind, info, by rw [exec_compose, hflow, Flow.outcome_trap], hkind⟩

/-- Settles O55: XLAT never looks at ROM_SIZE and leaves POS outside the ROM, where the start-position check of the next
DECOMP or COMPOSE finds it (40 R104). -/
theorem positionOutsideTheRomIsFoundAtItsFirstUse : Obligations.PositionOutsideTheRomIsFoundAtItsFirstUse := by
  intro s hout
  have hpos := linearOf_toNat s.offset s.bank
  refine ⟨_, exec_xlat s, rfl, rfl, hpos, fun i hi => ?_⟩
  obtain ⟨e, kind, info, hexec, hkind⟩ := exec_start_outside hi
    (s := done { s with pos := linearOf s.offset s.bank, valid := { s.valid with pos := true } }) (hpos ▸ hout)
  exact ⟨_, hexec, rfl, hkind⟩

end Sys2Proof.Machine
end

section
/-! PROOFS. The table generator (spec 41): the first half of an inner step. -/

namespace Sys2Proof.Machine

/-! ### The rotation of GR -/

theorem byte_and_one_toNat (r : Byte) : (r &&& 1#8).toNat = r.toNat % 2 := by
  rw [BitVec.toNat_and]
  exact Nat.and_one_is_mod r.toNat

/-- The new GC is the bit that leaves GR at bit 0, not the carry from before the step (41 R112). -/
@[simp] theorem rotateRight_carry_toNat (r : Byte) : (rotateRight r).2.toNat = r.toNat % 2 := by
  simp only [rotateRight, BitVec.extractLsb'_toNat, byte_and_one_toNat, Nat.shiftRight_zero]
  omega

/-- The bit that leaves at bit 0 enters at bit 7, above the seven bits that move down: the two parts do not overlap, so
the or of 41 R112 is a sum. -/
@[simp] theorem rotateRight_value_toNat (r : Byte) :
    (rotateRight r).1.toNat = r.toNat % 2 * 128 + r.toNat / 2 := by
  have hlow : r.toNat / 2 < 2 ^ 7 := by omega
  have htop : (r.toNat % 2) <<< 7 % 2 ^ 8 = (r.toNat % 2) <<< 7 := by
    rw [Nat.shiftLeft_eq]
    omega
  calc (rotateRight r).1.toNat
      = (r.toNat % 2) <<< 7 % 2 ^ 8 ||| r.toNat >>> 1 := by
        simp only [rotateRight, BitVec.toNat_or, BitVec.toNat_shiftLeft, BitVec.toNat_ushiftRight, byte_and_one_toNat]
    _ = (r.toNat % 2) <<< 7 ||| r.toNat / 2 := by rw [htop, Nat.shiftRight_one]
    _ = (r.toNat % 2) <<< 7 + r.toNat / 2 := (Nat.shiftLeft_add_eq_or_of_lt hlow _).symm
    _ = r.toNat % 2 * 128 + r.toNat / 2 := by rw [Nat.shiftLeft_eq]

/-- The second half of an inner step does not touch GR (41 R113). -/
@[simp] theorem Gen.inner_gr (g : Gen) : g.inner.gr = (rotateRight g.gr).1 := rfl

/-- Settles O32: the rotation is circular, its carry is the bit that left, and the inner step keeps the rotated GR. -/
theorem innerStepRotatesRightCircularly : Obligations.InnerStepRotatesRightCircularly := by
  intro r
  refine ⟨rotateRight_value_toNat r, rotateRight_carry_toNat r, ?_⟩
  rintro g rfl
  exact g.inner_gr

end Sys2Proof.Machine
end

section
/-! PROOFS. The decoder and the encoder (spec 30): the two dispatches read off the fields of an opcode byte, what the
stream decoder can answer, and the statements on encodings. -/

namespace Sys2Proof

/-! ### The dispatches by the fields of the opcode byte -/

theorem opcodeS_ne_end : ∀ (T : BitVec 3) (c : BitVec 5), T ≠ 7#3 → opcodeS T c ≠ 0xFF#8 := by decide +kernel

theorem opcodeX_ne_end : ∀ (T : BitVec 3) (x : BitVec 2), T ≠ 7#3 ∨ x ≠ 3#2 → opcodeX T x ≠ 0xFF#8 := by decide +kernel

theorem opcodeX_eq_FE : ∀ (T : BitVec 3) (x : BitVec 2), opcodeX T x = 0xFE#8 ↔ T = 7#3 ∧ x = 2#2 := by decide +kernel

theorem opcodeX_bit0 : ∀ (T : BitVec 3) (x : BitVec 2), (opcodeX T x).extractLsb' 0 1 = x.extractLsb' 0 1 := by
  decide +kernel

theorem tag_cases : ∀ T : BitVec 3,
    T = 0#3 ∨ T = 1#3 ∨ T = 2#3 ∨ T = 3#3 ∨ T = 4#3 ∨ T = 5#3 ∨ T = 6#3 ∨ T = 7#3 := by decide

/-- Every opcode byte is END's, or of format S, or of format X (30 R71, R72, R78). -/
theorem opcode_cases (op : Byte) : op = 0xFF#8 ∨ (∃ T c, T ≠ 7#3 ∧ op = opcodeS T c) ∨
    ∃ T x, (T ≠ 7#3 ∨ x ≠ 3#2) ∧ op = opcodeX T x := by
  have h : ∀ op : Byte, op = 0xFF#8 ∨ (op.extractLsb' 5 3 ≠ 7#3 ∧ op = opcodeS (op.extractLsb' 5 3) (op.extractLsb' 0 5)) ∨
      ((op.extractLsb' 2 3 ≠ 7#3 ∨ op.extractLsb' 0 2 ≠ 3#2) ∧ op = opcodeX (op.extractLsb' 2 3) (op.extractLsb' 0 2)) := by
    decide +kernel
  exact (h op).imp_right (Or.imp (fun h => ⟨_, _, h⟩) fun h => ⟨_, _, h⟩)

theorem decodeStream_end (rest : List Byte) : decodeStream (0xFF#8 :: rest) = .ok (.endStream, rest) := rfl

/-- The dispatch of format S (30 R71, 42 R132). -/
theorem decodeStream_short {T : BitVec 3} (c : BitVec 5) (rest : List Byte) (hT : T ≠ 7#3) :
    decodeStream (opcodeS T c :: rest) =
      if T = 1#3 then withOne (.rpt c) rest
      else if T = 2#3 then withTwo (.pair c) rest
      else if T = 3#3 then withOne (.inc c) rest
      else if T = 4#3 then withStart (.fwd c) rest
      else if T = 5#3 then withStart (.tbl c) rest
      else if T = 6#3 then withStart (.bwd c) rest
      else withData (c.toNat + 1) (.lit c) rest := by
  simp only [decodeStream, if_neg (opcodeS_ne_end T c hT), decodeShort, countS_opcodeS, tagS_opcodeS]
  obtain rfl | rfl | rfl | rfl | rfl | rfl | rfl | rfl := tag_cases T
  case inr.inr.inr.inr.inr.inr.inr => exact absurd rfl hT
  all_goals rfl

/-- The dispatch of format X; the tag 7 is LITX.D on its two rows (30 R72, R89; 42 R135). -/
theorem decodeStream_extended {T : BitVec 3} {x : BitVec 2} (cnt : Byte) (rest : List Byte) (h : T ≠ 7#3 ∨ x ≠ 3#2) :
    decodeStream (opcodeX T x :: cnt :: rest) =
      if T = 1#3 then withOne (.rptx x cnt) rest
      else if T = 2#3 then withTwo (.pairx x cnt) rest
      else if T = 3#3 then withOne (.incx x cnt) rest
      else if T = 4#3 then withStart (.fwdx x cnt) rest
      else if T = 5#3 then withStart (.tblx x cnt) rest
      else if T = 6#3 then withStart (.bwdx x cnt) rest
      else if T = 0#3 then withData (cnt.toNat + 1) (.litx x cnt) rest
      else if x = 2#2 then withData (cnt.toNat + 1) (.litxDFE cnt) rest
      else withData (cnt.toNat + 1) (.litxD (x.extractLsb' 0 1) cnt) rest := by
  simp only [decodeStream, if_neg (opcodeX_ne_end T x h), if_pos (tagS_opcodeX T x), decodeExtended, low_opcodeX,
    tagX_opcodeX, opcodeX_bit0, opcodeX_eq_FE]
  obtain rfl | rfl | rfl | rfl | rfl | rfl | rfl | rfl := tag_cases T
  case inr.inr.inr.inr.inr.inr.inr => simp only [true_and]; rfl
  all_goals rfl

/-! ### What the stream decoder can answer -/

/-- A literal's term carries its data as the encoding's end, and is well formed when it has `n` bytes (30 R73, R74). -/
theorem wellFormed_of_literal {i : Instr} {data : List Byte} (h : Machine.literalData i = some data) :
    i.wellFormed = true ↔ data.length = i.count := by
  cases i <;> cases h <;> simp [Instr.wellFormed, literalFits, Instr.count]

/-- `n` is at most 256 (30 R74). -/
theorem count_le (i : Instr) : i.count ≤ 256 := by
  cases i <;> simp only [Instr.count] <;> omega

/-- What the stream decoder answers of `bytes`: a well-formed instruction whose encoding they begin with; or, where they
are too few, a literal whose encoding they are so far, or a missing opcode, count or operand byte. -/
def DecodedFrom (bytes : List Byte) : Decoded → Prop
  | .ok (i, rest) => i.wellFormed = true ∧ i.space = .stream ∧ encode i ++ rest = bytes
  | .error (.cutLiteral i) => bytes.length < maxLength ∧ i.space = .stream ∧ encode i = bytes ∧
      ∃ data, Machine.literalData i = some data ∧ data.length < i.count
  | .error (.reservedCommand _) => False
  | .error .noOpcode | .error .noCount | .error .noOperand => bytes.length < maxLength

theorem withOne_decodedFrom {pre : List Byte} (hpre : pre.length ≤ 2) (rest : List Byte) {k : Byte → Instr}
    (hk : ∀ b, (k b).wellFormed = true ∧ (k b).space = .stream ∧ encode (k b) = pre ++ [b]) :
    DecodedFrom (pre ++ rest) (withOne k rest) := by
  cases rest with
  | nil => show _ < _; simp [maxLength]; omega
  | cons b rest => exact ⟨(hk b).1, (hk b).2.1, by simp [(hk b).2.2]⟩

theorem withTwo_decodedFrom {pre : List Byte} (hpre : pre.length ≤ 2) (rest : List Byte) {k : Byte → Byte → Instr}
    (hk : ∀ b c, (k b c).wellFormed = true ∧ (k b c).space = .stream ∧ encode (k b c) = pre ++ [b, c]) :
    DecodedFrom (pre ++ rest) (withTwo k rest) := by
  match rest with
  | [] => show _ < _; simp [maxLength]; omega
  | [_] => show _ < _; simp [maxLength]; omega
  | b :: c :: rest => exact ⟨(hk b c).1, (hk b c).2.1, by simp [(hk b c).2.2]⟩

theorem withStart_decodedFrom {pre : List Byte} (hpre : pre.length ≤ 2) (rest : List Byte) {k : Half → Instr}
    (hk : ∀ a, (k a).wellFormed = true ∧ (k a).space = .stream ∧ encode (k a) = pre ++ [startHi a, startLo a]) :
    DecodedFrom (pre ++ rest) (withStart k rest) :=
  withTwo_decodedFrom hpre rest fun hi lo => by simpa using hk (startOf hi lo)

theorem withData_decodedFrom {pre : List Byte} (hpre : pre.length ≤ 2) (rest : List Byte) {n : Nat} {k : List Byte → Instr}
    (hk : ∀ data, Machine.literalData (k data) = some data ∧ (k data).count = n ∧ (k data).space = .stream ∧
      encode (k data) = pre ++ data) :
    DecodedFrom (pre ++ rest) (withData n k rest) := by
  unfold withData
  split
  · next h =>
    obtain ⟨hlit, hcount, hspace, hencode⟩ := hk (rest.take n)
    exact ⟨(wellFormed_of_literal hlit).2 (by simp [hcount, h]), hspace, by simp [hencode]⟩
  · next h =>
    obtain ⟨hlit, hcount, hspace, hencode⟩ := hk rest
    have hle := count_le (k rest)
    refine ⟨?_, hspace, hencode, rest, hlit, by omega⟩
    simp only [List.length_append, maxLength]
    omega

/-- The two dispatches reach only the four operand forms. -/
theorem decodeStream_decodedFrom (bytes : List Byte) : DecodedFrom bytes (decodeStream bytes) := by
  cases bytes with
  | nil => exact Nat.zero_lt_succ _
  | cons op rest =>
    obtain rfl | ⟨T, c, hT, rfl⟩ | ⟨T, x, hTx, rfl⟩ := opcode_cases op
    · exact ⟨rfl, rfl, rfl⟩
    · rw [decodeStream_short c rest hT]
      obtain rfl | rfl | rfl | rfl | rfl | rfl | rfl | rfl := tag_cases T
      · exact withData_decodedFrom (pre := [_]) (by simp) rest fun _ => ⟨rfl, rfl, rfl, rfl⟩
      · exact withOne_decodedFrom (pre := [_]) (by simp) rest fun _ => ⟨rfl, rfl, rfl⟩
      · exact withTwo_decodedFrom (pre := [_]) (by simp) rest fun _ _ => ⟨rfl, rfl, rfl⟩
      · exact withOne_decodedFrom (pre := [_]) (by simp) rest fun _ => ⟨rfl, rfl, rfl⟩
      · exact withStart_decodedFrom (pre := [_]) (by simp) rest fun _ => ⟨rfl, rfl, rfl⟩
      · exact withStart_decodedFrom (pre := [_]) (by simp) rest fun _ => ⟨rfl, rfl, rfl⟩
      · exact withStart_decodedFrom (pre := [_]) (by simp) rest fun _ => ⟨rfl, rfl, rfl⟩
      · exact absurd rfl hT
    · cases rest with
      | nil =>
        simp only [decodeStream, if_neg (opcodeX_ne_end T x hTx), if_pos (tagS_opcodeX T x)]
        show 1 < 258
        omega
      | cons cnt rest =>
        rw [decodeStream_extended cnt rest hTx]
        obtain rfl | rfl | rfl | rfl | rfl | rfl | rfl | rfl := tag_cases T
        · exact withData_decodedFrom (pre := [_, _]) (by simp) rest fun _ => ⟨rfl, rfl, rfl, rfl⟩
        · exact withOne_decodedFrom (pre := [_, _]) (by simp) rest fun _ => ⟨rfl, rfl, rfl⟩
        · exact withTwo_decodedFrom (pre := [_, _]) (by simp) rest fun _ _ => ⟨rfl, rfl, rfl⟩
        · exact withOne_decodedFrom (pre := [_, _]) (by simp) rest fun _ => ⟨rfl, rfl, rfl⟩
        · exact withStart_decodedFrom (pre := [_, _]) (by simp) rest fun _ => ⟨rfl, rfl, rfl⟩
        · exact withStart_decodedFrom (pre := [_, _]) (by simp) rest fun _ => ⟨rfl, rfl, rfl⟩
        · exact withStart_decodedFrom (pre := [_, _]) (by simp) rest fun _ => ⟨rfl, rfl, rfl⟩
        · simp only [BitVec.reduceEq, if_false]
          split
          · next hx =>
            subst hx
            exact withData_decodedFrom (pre := [_, _]) (by simp) rest fun _ => ⟨rfl, rfl, rfl, rfl⟩
          · next hx =>
            have hlow : ∀ x : BitVec 2, x ≠ 2#2 → x ≠ 3#2 → (x.extractLsb' 0 1).zeroExtend 2 = x := by decide
            refine withData_decodedFrom (pre := [_, _]) (by simp) rest fun data => ⟨rfl, rfl, rfl, ?_⟩
            simp [encode, Instr.opcode, Instr.tail, hlow x hx (by simpa using hTx)]

/-! ### The statements on encodings -/

theorem withStart_split (k : Half → Instr) (start : Half) (rest : List Byte) :
    withStart k (startHi start :: startLo start :: rest) = .ok (k start, rest) := by
  simp [withStart, withTwo]

/-- Settles O1: the dispatch on the opcode byte of each row reaches the operand form of that row. -/
theorem encodeThenDecode : Obligations.EncodeThenDecode := by
  intro i rest hwf
  have hdata : ∀ data, Machine.literalData i = some data → data.length = i.count := fun data h =>
    (wellFormed_of_literal h).1 hwf
  cases i with
  | lit c data => exact (decodeStream_short (T := 0#3) c _ (by decide)).trans (withData_append (hdata _ rfl))
  | rpt c b => exact decodeStream_short (T := 1#3) c _ (by decide)
  | pair c b1 b2 => exact decodeStream_short (T := 2#3) c _ (by decide)
  | inc c seed => exact decodeStream_short (T := 3#3) c _ (by decide)
  | fwd c start => exact (decodeStream_short (T := 4#3) c _ (by decide)).trans (withStart_split _ _ _)
  | tbl c start => exact (decodeStream_short (T := 5#3) c _ (by decide)).trans (withStart_split _ _ _)
  | bwd c start => exact (decodeStream_short (T := 6#3) c _ (by decide)).trans (withStart_split _ _ _)
  | litx x c data => exact (decodeStream_extended (T := 0#3) c _ (.inl (by decide))).trans (withData_append (hdata _ rfl))
  | rptx x c b => exact decodeStream_extended (T := 1#3) c _ (.inl (by decide))
  | pairx x c b1 b2 => exact decodeStream_extended (T := 2#3) c _ (.inl (by decide))
  | incx x c seed => exact decodeStream_extended (T := 3#3) c _ (.inl (by decide))
  | fwdx x c start => exact (decodeStream_extended (T := 4#3) c _ (.inl (by decide))).trans (withStart_split _ _ _)
  | tblx x c start => exact (decodeStream_extended (T := 5#3) c _ (.inl (by decide))).trans (withStart_split _ _ _)
  | bwdx x c start => exact (decodeStream_extended (T := 6#3) c _ (.inl (by decide))).trans (withStart_split _ _ _)
  | litxD x c data =>
    have hx : ∀ x : BitVec 1, x.zeroExtend 2 ≠ 3#2 ∧ x.zeroExtend 2 ≠ 2#2 ∧ (x.zeroExtend 2).extractLsb' 0 1 = x := by decide
    obtain ⟨h3, h2, hlow⟩ := hx x
    refine (decodeStream_extended (T := 7#3) c _ (.inr h3)).trans ?_
    simp only [BitVec.reduceEq, if_false, if_neg h2, hlow]
    exact withData_append (hdata _ rfl)
  | litxDFE c data =>
    show decodeStream (opcodeX 7#3 2#2 :: c :: (data ++ rest)) = _
    exact (decodeStream_extended c _ (.inr (by decide))).trans (withData_append (hdata _ rfl))
  | endStream => rfl
  | xlat => rfl
  | gentbl => rfl
  | decomp => rfl
  | compose => rfl
  | tslot => rfl

/-- What the command decoder reads is the one byte of a host operation (30 R88). -/
theorem decodeCommand_eq_ok {bytes rest : List Byte} {i : Instr} (h : decodeCommand bytes = .ok (i, rest)) :
    i.wellFormed = true ∧ i.space = .host ∧ encode i ++ rest = bytes := by
  cases bytes with
  | nil => cases h
  | cons code bytes =>
    simp only [decodeCommand] at h
    split_ifs at h <;> cases h
    all_goals
      subst code
      exact ⟨rfl, rfl, rfl⟩

theorem decodeStream_eq_ok {bytes rest : List Byte} {i : Instr} (h : decodeStream bytes = .ok (i, rest)) :
    i.wellFormed = true ∧ i.space = .stream ∧ encode i ++ rest = bytes := by
  have hfrom := decodeStream_decodedFrom bytes
  rwa [h] at hfrom

/-- Settles O2. -/
theorem decodeThenEncode : Obligations.DecodeThenEncode := by
  intro sp bytes i rest h
  cases sp with
  | stream => exact decodeStream_eq_ok h
  | host => exact decodeCommand_eq_ok h

/-- The encoding of a well-formed instruction has the length of the table of 30 R77. -/
theorem encode_length (i : Instr) : Laws.Length.Statement i := by
  cases i with
  | lit c data => exact Laws.Length.lit c data
  | rpt c b => exact Laws.Length.rpt c b
  | pair c b1 b2 => exact Laws.Length.pair c b1 b2
  | inc c seed => exact Laws.Length.inc c seed
  | fwd c start => exact Laws.Length.fwd c start
  | tbl c start => exact Laws.Length.tbl c start
  | bwd c start => exact Laws.Length.bwd c start
  | litx x c data => exact Laws.Length.litx x c data
  | rptx x c b => exact Laws.Length.rptx x c b
  | pairx x c b1 b2 => exact Laws.Length.pairx x c b1 b2
  | incx x c seed => exact Laws.Length.incx x c seed
  | fwdx x c start => exact Laws.Length.fwdx x c start
  | tblx x c start => exact Laws.Length.tblx x c start
  | bwdx x c start => exact Laws.Length.bwdx x c start
  | litxD x c data => exact Laws.Length.litxD x c data
  | litxDFE c data => exact Laws.Length.litxDFE c data
  | endStream => exact Laws.Length.endStream
  | xlat => exact Laws.Length.xlat
  | gentbl => exact Laws.Length.gentbl
  | decomp => exact Laws.Length.decomp
  | compose => exact Laws.Length.compose
  | tslot => exact Laws.Length.tslot

/-- Settles O4: the bytes read are the encoding of the instruction, which has the length of the table. -/
theorem decoderTakesTheTableLength : Obligations.DecoderTakesTheTableLength := by
  intro sp bytes i rest h
  obtain ⟨hwf, -, hbytes⟩ := decodeThenEncode sp bytes i rest h
  rw [← hbytes, List.length_append, encode_length i hwf]

/-- The ranges of 30 R78, row by row: the opcode bytes of a row lie in the range that names it. -/
theorem mnemonic_eq_rowOf_opcode {i : Instr} (h : i.space = .stream) : Machine.mnemonic i = Machine.rowOf i.opcode := by
  have short : ∀ c : BitVec 5, "LIT" = Machine.rowOf (opcodeS 0#3 c) ∧ "RPT" = Machine.rowOf (opcodeS 1#3 c) ∧
      "PAIR" = Machine.rowOf (opcodeS 2#3 c) ∧ "INC" = Machine.rowOf (opcodeS 3#3 c) ∧
      "FWD" = Machine.rowOf (opcodeS 4#3 c) ∧ "TBL" = Machine.rowOf (opcodeS 5#3 c) ∧
      "BWD" = Machine.rowOf (opcodeS 6#3 c) := by decide +kernel
  have extended : ∀ x : BitVec 2, "LITX" = Machine.rowOf (opcodeX 0#3 x) ∧ "RPTX" = Machine.rowOf (opcodeX 1#3 x) ∧
      "PAIRX" = Machine.rowOf (opcodeX 2#3 x) ∧ "INCX" = Machine.rowOf (opcodeX 3#3 x) ∧
      "FWDX" = Machine.rowOf (opcodeX 4#3 x) ∧ "TBLX" = Machine.rowOf (opcodeX 5#3 x) ∧
      "BWDX" = Machine.rowOf (opcodeX 6#3 x) := by decide +kernel
  have degenerate : ∀ x : BitVec 1, "LITX.D" = Machine.rowOf (opcodeX 7#3 (x.zeroExtend 2)) := by decide +kernel
  simp only [forall_and] at short extended
  obtain ⟨hlit, hrpt, hpair, hinc, hfwd, htbl, hbwd⟩ := short
  obtain ⟨hlitx, hrptx, hpairx, hincx, hfwdx, htblx, hbwdx⟩ := extended
  cases i with
  | lit c _ => exact hlit c
  | rpt c _ => exact hrpt c
  | pair c _ _ => exact hpair c
  | inc c _ => exact hinc c
  | fwd c _ => exact hfwd c
  | tbl c _ => exact htbl c
  | bwd c _ => exact hbwd c
  | litx x _ _ => exact hlitx x
  | rptx x _ _ => exact hrptx x
  | pairx x _ _ _ => exact hpairx x
  | incx x _ _ => exact hincx x
  | fwdx x _ _ => exact hfwdx x
  | tblx x _ _ => exact htblx x
  | bwdx x _ _ => exact hbwdx x
  | litxD x _ _ => exact degenerate x
  | litxDFE _ _ => rfl
  | endStream => rfl
  | xlat => cases h
  | gentbl => cases h
  | decomp => cases h
  | compose => cases h
  | tslot => cases h

/-- Settles O3: too few bytes follow an opcode byte only where fewer than 257 do (30 R79), and the instruction read encodes
to the byte. -/
theorem everyOpcodeByteSelectsItsRow : Obligations.EveryOpcodeByteSelectsItsRow := by
  intro op tail htail
  have hfrom := decodeStream_decodedFrom (op :: tail)
  have hlong : ¬(op :: tail).length < maxLength := by simp only [List.length_cons, maxLength]; omega
  change ∃ i rest, decodeStream (op :: tail) = _ ∧ _
  revert hfrom
  cases decodeStream (op :: tail) with
  | ok d =>
    obtain ⟨i, rest⟩ := d
    rintro ⟨-, hspace, hbytes⟩
    have hop : i.opcode = op := (List.cons.inj hbytes).1
    exact ⟨i, rest, rfl, hop, hop ▸ mnemonic_eq_rowOf_opcode hspace⟩
  | error e =>
    intro hfrom
    cases e with
    | cutLiteral i => exact absurd hfrom.1 hlong
    | reservedCommand code => exact hfrom.elim
    | noOpcode => exact absurd hfrom hlong
    | noCount => exact absurd hfrom hlong
    | noOperand => exact absurd hfrom hlong

/-- Settles O5. -/
theorem sampleWordsDecode : Obligations.SampleWordsDecode := ⟨rfl, rfl, rfl, rfl, rfl, rfl, rfl⟩

end Sys2Proof
end

section
/-! PROOFS. The table generator (spec 41): the eight inner steps reverse the bits of GR, so the loop appends the bit
reversal of 0, 1, …, 255 and ends by itself; the table is the listing of R118, and its own inverse. -/

namespace Sys2Proof.Machine

/-! ### The second half of an inner step -/

@[simp] theorem Gen.inner_ga (g : Gen) : g.inner.ga = (rotateLeftThrough g.ga (rotateRight g.gr).2).1 := rfl

@[simp] theorem Gen.inner_gc (g : Gen) : g.inner.gc = (rotateLeftThrough g.ga (rotateRight g.gr).2).2 := rfl

/-- The 9 bits that hold GA and the carry beside each other (41 R113): the carry enters below, nothing is lost above. -/
theorem rotateLeftThrough_wide_toNat (a : Byte) (carry : BitVec 1) :
    ((a.zeroExtend 9 <<< 1) ||| carry.zeroExtend 9 : BitVec 9).toNat = 2 * a.toNat + carry.toNat := by
  have hcarry : carry.toNat < 2 ^ 1 := carry.isLt
  have hshift : (a.toNat % 2 ^ 9) <<< 1 % 2 ^ 9 = a.toNat <<< 1 := by
    rw [Nat.shiftLeft_eq, Nat.shiftLeft_eq]
    omega
  have hlow : carry.toNat % 2 ^ 9 = carry.toNat := Nat.mod_eq_of_lt (by omega)
  simp only [BitVec.toNat_or, BitVec.toNat_shiftLeft, BitVec.truncate_eq_setWidth, BitVec.toNat_setWidth]
  rw [hshift, hlow, ← Nat.shiftLeft_add_eq_or_of_lt hcarry, Nat.shiftLeft_eq, pow_one, Nat.mul_comm]

theorem rotateLeftThrough_value_toNat (a : Byte) (carry : BitVec 1) :
    (rotateLeftThrough a carry).1.toNat = (2 * a.toNat + carry.toNat) % 256 := by
  simp only [rotateLeftThrough, BitVec.extractLsb'_toNat, rotateLeftThrough_wide_toNat, Nat.shiftRight_zero]

theorem rotateLeftThrough_carry_toNat (a : Byte) (carry : BitVec 1) :
    (rotateLeftThrough a carry).2.toNat = a.toNat / 128 := by
  have hcarry : carry.toNat < 2 := carry.isLt
  have ha : a.toNat < 256 := a.isLt
  simp only [rotateLeftThrough, BitVec.extractLsb'_toNat, rotateLeftThrough_wide_toNat, Nat.shiftRight_eq_div_pow]
  omega

/-- Settles O33: the carry of the first half is bit 0 of GR, and enters GA below. -/
theorem innerStepRotatesLeftThroughCarry : Obligations.InnerStepRotatesLeftThroughCarry := by
  intro g
  rw [Gen.inner_ga, Gen.inner_gc, rotateLeftThrough_value_toNat, rotateLeftThrough_carry_toNat, rotateRight_carry_toNat]
  exact ⟨rfl, rfl⟩

/-! ### Bit by bit -/

/-- Bit 0 of GR enters at the top (41 R112). -/
theorem rotateRight_getLsbD (r : Byte) (i : Nat) (hi : i < 8) :
    (rotateRight r).1.getLsbD i = r.getLsbD ((i + 1) % 8) := by
  revert r
  interval_cases i <;> decide +kernel

/-- The carry enters GA at the bottom (41 R113). -/
theorem rotateLeftThrough_getLsbD (a : Byte) (c : BitVec 1) (i : Nat) (hi : i < 8) :
    (rotateLeftThrough a c).1.getLsbD i = if i = 0 then c.getLsbD 0 else a.getLsbD (i - 1) := by
  revert a c
  interval_cases i <;> decide +kernel

theorem rotateRight_carry (r : Byte) : (rotateRight r).2.getLsbD 0 = r.getLsbD 0 := by
  revert r; decide +kernel

theorem Gen.inners_gr (n : Nat) (g : Gen) (i : Nat) (hi : i < 8) : (Gen.inners n g).gr.getLsbD i = g.gr.getLsbD ((i + n) % 8) := by
  induction n generalizing g with
  | zero => rw [Gen.inners, Nat.add_zero, Nat.mod_eq_of_lt hi]
  | succ n ih =>
    rw [Gen.inners, ih, Gen.inner_gr, rotateRight_getLsbD _ _ (Nat.mod_lt _ (by decide)), Nat.mod_add_mod, Nat.add_assoc]

/-- After `n` inner steps the low `n` bits of GA are the bits of GR from bit `n - 1` down, above them the old low bits. -/
theorem Gen.inners_ga (n : Nat) (hn : n ≤ 8) (g : Gen) (i : Nat) (hi : i < 8) :
    (Gen.inners n g).ga.getLsbD i = if i < n then g.gr.getLsbD (n - 1 - i) else g.ga.getLsbD (i - n) := by
  induction n generalizing g with
  | zero => rfl
  | succ n ih =>
    rw [Gen.inners, ih (by omega), Gen.inner_gr, Gen.inner_ga]
    obtain h | rfl | h := Nat.lt_trichotomy i n
    · rw [if_pos h, if_pos (by omega), rotateRight_getLsbD _ _ (by omega)]
      congr 1
      omega
    · rw [if_neg (by omega), if_pos (by omega), rotateLeftThrough_getLsbD _ _ _ (by omega), if_pos (by omega), rotateRight_carry]
      congr 1
      omega
    · rw [if_neg (by omega), if_neg (by omega), rotateLeftThrough_getLsbD _ _ _ (by omega), if_neg (by omega),
        Nat.sub_sub]

theorem reverse_getLsbD (x : Byte) (i : Nat) (hi : i < 8) : x.reverse.getLsbD i = x.getLsbD (7 - i) := by
  rw [BitVec.getLsbD_reverse, BitVec.getMsbD, decide_eq_true hi, Bool.true_and]

@[simp] theorem Gen.eight_gr (g : Gen) : g.eight.gr = g.gr := by
  refine BitVec.eq_of_getLsbD_eq fun i hi => ?_
  rw [Gen.eight, Gen.inners_gr 8 _ i hi, Nat.add_mod_right, Nat.mod_eq_of_lt hi]

@[simp] theorem Gen.eight_ga (g : Gen) : g.eight.ga = g.gr.reverse := by
  refine BitVec.eq_of_getLsbD_eq fun i hi => ?_
  rw [Gen.eight, Gen.inners_ga 8 le_rfl _ i hi, if_pos hi, reverse_getLsbD _ i hi]

/-- Settles O35. -/
theorem eightInnerStepsReverseTheBits : Obligations.EightInnerStepsReverseTheBits := fun g =>
  ⟨g.eight_gr, fun i hi => by rw [Gen.eight_ga, reverse_getLsbD _ i hi]⟩

/-! ### The loop -/

theorem Gen.inners_gn (n : Nat) (g : Gen) : (Gen.inners n g).gn = g.gn := by
  induction n generalizing g with
  | zero => rfl
  | succ n ih => exact ih g.inner

@[simp] theorem Gen.eight_gn (g : Gen) : g.eight.gn = g.gn := Gen.inners_gn 8 _

@[simp] theorem Gen.bump_ga (g : Gen) : g.bump.ga = g.ga + 1#8 := rfl
@[simp] theorem Gen.bump_gr (g : Gen) : g.bump.gr = g.gr + 1#8 := rfl
@[simp] theorem Gen.bump_gn (g : Gen) : g.bump.gn = g.gn + 1#9 := rfl

/-- Entry `k` of the table (41 R117). -/
def tableEntry (k : Nat) : Byte := (BitVec.ofNat 8 k).reverse

/-- GA becomes 0 after the append of entry 255 and after no other (41 R115). -/
theorem tableEntry_succ_eq_zero {k : Nat} (hk : k < 256) : tableEntry k + 1#8 = 0#8 ↔ k = 255 := by
  have h : ∀ b : Byte, b.reverse + 1#8 = 0#8 ↔ b = 255#8 := by decide +kernel
  rw [tableEntry, h, ← BitVec.toNat_inj, BitVec.toNat_ofNat, Nat.mod_eq_of_lt hk]
  rfl

/-- With `m` entries to go, the loop appends them and ends by itself, however many more iterations are allowed. -/
theorem Gen.loop_from (m k : Nat) (hk : k + m = 256) (g : Gen) (hgr : g.gr = BitVec.ofNat 8 k)
    (hgn : g.gn = BitVec.ofNat 9 k) (hga : g.ga = 0#8 ↔ m = 0) :
    ∃ e : Gen, e.ga = 0#8 ∧ e.gn = 256#9 ∧
      ∀ n, m ≤ n → Gen.loop n g = ((List.range' k m).map tableEntry, e) := by
  induction m generalizing k g with
  | zero =>
    have hzero : g.ga = 0#8 := hga.2 rfl
    refine ⟨g, hzero, by rw [hgn, ← hk]; rfl, fun n _ => ?_⟩
    cases n with
    | zero => rfl
    | succ n => rw [Gen.loop, if_pos hzero]; rfl
  | succ m ih =>
    have hnext : g.eight.bump.ga = 0#8 ↔ m = 0 := by
      rw [Gen.bump_ga, Gen.eight_ga, hgr]
      exact (tableEntry_succ_eq_zero (by omega)).trans (by omega)
    obtain ⟨e, hea, hen, hloop⟩ := ih (k + 1) (by omega) g.eight.bump
      (by rw [Gen.bump_gr, Gen.eight_gr, hgr, BitVec.ofNat_add]) (by rw [Gen.bump_gn, Gen.eight_gn, hgn, BitVec.ofNat_add])
      hnext
    refine ⟨e, hea, hen, fun n hn => ?_⟩
    obtain ⟨n, rfl⟩ : ∃ n', n = n' + 1 := ⟨n - 1, by omega⟩
    have hne : g.ga ≠ 0#8 := fun h => absurd (hga.1 h) (by omega)
    rw [Gen.loop, if_neg hne, hloop n (by omega), Gen.eight_ga, hgr]
    rfl

/-- A run appends the whole table, from any registers (41 R111, R115, R117). -/
theorem Gen.run_spec (g : Gen) : ∃ e : Gen, e.ga = 0#8 ∧ e.gn = 256#9 ∧
    ∀ n, 256 ≤ n → Gen.loop n g.begin = ((List.range 256).map tableEntry, e) := by
  rw [List.range_eq_range']
  exact Gen.loop_from 256 0 rfl g.begin rfl rfl (by simp [Gen.begin])

theorem Gen.run_bytes (g : Gen) : g.run.1 = (List.range 256).map tableEntry := by
  obtain ⟨e, -, -, hloop⟩ := g.run_spec
  rw [Gen.run, Config.tblLen, hloop 256 le_rfl]

/-- Settles O34. -/
theorem generatorStopsAfter256Appends : Obligations.GeneratorStopsAfter256Appends := by
  intro g n hn
  obtain ⟨e, hga, hgn, hloop⟩ := g.run_spec
  have hrun : g.run = ((List.range 256).map tableEntry, e) := hloop 256 le_rfl
  rw [hrun]
  exact ⟨hloop n hn, by simp, hga, hgn⟩

/-! ### The table -/

theorem read_writeList_table {m : Memory} (h : m.wf) (a : Nat) :
    (m.writeList 0 ((List.range 256).map tableEntry)).read a = if a < 256 then tableEntry a else m.read a := by
  rw [Memory.read_writeList h]
  simp

/-- Settles O27: the bytes of the run are written from address 0 on. -/
theorem gentblWritesBitReversal : Obligations.GentblWritesBitReversal := by
  intro s hwf
  have hread : ∀ a, (s.tbl.writeList 0 s.gen.run.1).read a = if a < 256 then tableEntry a else s.tbl.read a := by
    rw [Gen.run_bytes]
    exact read_writeList_table hwf
  obtain ⟨-, -, hga, hgn⟩ := generatorStopsAfter256Appends s.gen 256 le_rfl
  refine ⟨_, exec_gentbl s, fun k i hi => ?_, fun a ha => ?_, hga, hgn, rfl⟩
  · rw [done_tbl, hread, if_pos k.isLt, tableEntry, BitVec.ofNat_toNat, BitVec.setWidth_eq, reverse_getLsbD k i hi]
  · rw [done_tbl, hread, if_neg (by omega)]

/-- The listing of 41 R118 is the table of R117. -/
theorem tblListing_eq : Config.tblListing = (List.range 256).map tableEntry := by decide +kernel

theorem read_tblListing (i : Byte) : (Memory.ofBytes 0 Config.tblListing).read i.toNat = i.reverse := by
  have hi : i.toNat < 256 := i.isLt
  rw [tblListing_eq, Memory.read_ofBytes]
  simp [tableEntry, hi]

/-- Settles O36: reversing the bits twice gives the byte back. -/
theorem tableIsItsOwnInverse : Obligations.TableIsItsOwnInverse := by
  intro s hs i
  rw [tblRead, tblRead, hs.tbl_eq, read_tblListing, read_tblListing, BitVec.reverse_reverse_eq]

/-- GENTBL leaves a table that is the listing as it is. -/
theorem writeList_run_tblListing (g : Gen) :
    (Memory.ofBytes 0 Config.tblListing).writeList 0 g.run.1 = Memory.ofBytes 0 Config.tblListing := by
  have hwf := Memory.ofBytes_wf 0 Config.tblListing
  refine Memory.eq_of_read (Memory.writeList_wf _ _ hwf) hwf fun a => ?_
  rw [Gen.run_bytes, read_writeList_table hwf]
  split
  · next ha =>
    rw [tblListing_eq, Memory.read_ofBytes]
    simp [ha]
  · rfl

end Sys2Proof.Machine
end

section
/-! PROOFS. The host's side: its moves and reads (10_state R42, R47), reset (70 R280), and the operations it starts, XLAT,
GENTBL, TSLOT and the starts of DECOMP and COMPOSE (spec 40, 41, 42, 44). -/

namespace Sys2Proof.Machine

/-! ### The host's moves -/

/-- Between operations the host's next move is made on the state without it. -/
theorem step_move {s : State} {m : HostMove} {moves : List HostMove} (he : s.engine = .idle) (h : s.host = m :: moves) :
    step s = hostStep m { s with host := moves } := by
  rw [step_idle he, hostTurn, h]

/-- A reset is made at any time (70 R280). -/
theorem step_reset {s : State} {moves : List HostMove} (h : s.host = .reset :: moves) :
    step s = .next (resetBlock { s with host := moves }) := by
  have hreset : resetNext s = true := by rw [resetNext, h]
  rw [step, stepBody, if_pos hreset, hostTurn, h]
  rfl

theorem resetNext_iff {s : State} : resetNext s = true ↔ ∃ moves, s.host = .reset :: moves := by
  unfold resetNext
  split
  · next moves h => exact ⟨fun _ => ⟨moves, h⟩, fun _ => rfl⟩
  · next h => exact ⟨nofun, fun ⟨moves, hm⟩ => absurd hm (h moves)⟩

/-- Settles O7: a write of CMD is decoded as one command byte. -/
theorem stepRunsTheCommandOrRefusesIt : Obligations.StepRunsTheCommandOrRefusesIt := by
  intro s code moves he h
  rw [step_move he h]
  simp only [hostStep, decode, decodeCommand]
  split_ifs <;> rfl

/-- Settles O8. -/
theorem hostWritesStoreTheirValue : Obligations.HostWritesStoreTheirValue := by
  intro s moves he
  refine ⟨fun v h => step_move he h, fun v h => step_move he h, fun v h => step_move he h, fun v h => step_move he h,
    fun image h => ⟨_, step_move he h, rfl, fun p hp => ?_, rfl⟩, fun h => ?_⟩
  · exact (Memory.read_ofBytes 0 image p).trans (dif_pos ⟨Nat.zero_le p, hp⟩)
  · rw [step_idle he, hostTurn, h]

theorem read_ofBytes_zero (bs : List Byte) (a : Nat) : (Memory.ofBytes 0 bs).read a = bs.getD a 0#8 := by
  rw [Memory.read_ofBytes]
  by_cases h : a < bs.length
  · simp [h]
  · simp [h]

/-- Settles O9. -/
theorem resetStopsAnyOperation : Obligations.ResetStopsAnyOperation := fun _ _ h =>
  ⟨_, step_reset h, rfl, rfl, rfl, fun k _ => read_ofBytes_zero _ k, rfl, rfl, rfl, rfl, rfl⟩

/-! ### The host's reads -/

theorem readValid_true (p : Port) (v : Nat) : readValid true p v = .value v := rfl

theorem readValid_false (p : Port) (v : Nat) : readValid false p v = .refused (.invalidResult p) := rfl

theorem readValid_eq_value_iff (b : Bool) (p : Port) (n : Nat) (v : Int) :
    readValid b p n = .value v ↔ b = true ∧ (n : Int) = v := by
  cases b with
  | false => exact ⟨nofun, nofun⟩
  | true => rw [readValid_true, ReadResult.value.injEq]; exact (and_iff_right rfl).symm

/-- A byte of OUT is read while OUT is valid and the index is below LEN, and never otherwise (10_state R47). -/
theorem hostRead_out_eq_value_iff (i : Nat) (s : State) (v : Int) :
    hostRead (.out i) s = .value v ↔
      i < s.params.outCap ∧ (s.valid.out = true ∧ i < s.len) ∧ ((s.out.read i).toNat : Int) = v := by
  rw [hostRead]
  split
  · next h => exact ⟨nofun, fun h' => absurd h'.1 (by omega)⟩
  · next h => rw [readValid_eq_value_iff, Bool.and_eq_true, decide_eq_true_iff, and_iff_right (Nat.lt_of_not_le h)]

/-- A byte of WIN is read while WIN is valid, and never otherwise (10_state R47). -/
theorem hostRead_win_eq_value_iff (i : Nat) (s : State) (v : Int) :
    hostRead (.win i) s = .value v ↔ i < 0x1800 ∧ s.valid.win = true ∧ ((s.win.read i).toNat : Int) = v := by
  rw [hostRead, Config.winSize]
  by_cases h : 0x1800 ≤ i
  · rw [if_pos h]
    exact ⟨nofun, fun h' => absurd h'.1 (by omega)⟩
  · rw [if_neg h, readValid_eq_value_iff, and_iff_right (Nat.lt_of_not_le h)]

/-- Settles O51. -/
theorem invalidResultsAreNeverRead : Obligations.InvalidResultsAreNeverRead := by
  intro s v
  refine ⟨fun hout p hp => ?_, fun i hi => ?_, fun hwin p hp => ?_, fun hslot => ?_, fun hst => ?_⟩
  · obtain rfl | rfl | ⟨i, rfl⟩ := hp
    · rw [hostRead, hout, readValid_false]; nofun
    · rw [hostRead, hout, readValid_false]; nofun
    · rw [Ne, hostRead_out_eq_value_iff, hout]; simp
  · rw [Ne, hostRead_out_eq_value_iff]; omega
  · obtain rfl | rfl | ⟨i, rfl⟩ := hp
    · rw [hostRead, hwin, readValid_false]; nofun
    · rw [hostRead, hwin, readValid_false]; nofun
    · rw [Ne, hostRead_win_eq_value_iff, hwin]; simp
  · rw [hostRead, hslot, readValid_false]; nofun
  · rw [hostRead, if_neg hst]; nofun

/-- Settles O52. -/
theorem validResultsReadAsTheyAre : Obligations.ValidResultsReadAsTheyAre := by
  intro s
  refine ⟨?_, ?_, fun hst => ?_, fun hout => ⟨?_, ?_, fun i hlen hcap => ?_⟩, fun hwin => ⟨?_, ?_, fun i hi => ?_⟩,
    fun i => rfl, fun hslot => ?_, rfl, rfl, rfl, rfl, rfl⟩
  · rw [hostRead]; cases s.st <;> rfl
  · rw [hostRead]; cases s.err <;> rfl
  · rw [hostRead, if_pos hst]
  · rw [hostRead, hout, readValid_true]
  · rw [hostRead, hout, readValid_true]
  · exact (hostRead_out_eq_value_iff i s _).2 ⟨hcap, ⟨hout, hlen⟩, rfl⟩
  · rw [hostRead, hwin, readValid_true]
  · rw [hostRead, hwin, readValid_true]
  · exact (hostRead_win_eq_value_iff i s _).2 ⟨hi, hwin, rfl⟩
  · rw [hostRead, hslot, readValid_true]

/-- Reads that all give a value give the list of the values. -/
theorem hostReads_map {α : Type} (s : State) (port : α → Port) (value : α → Int) (xs : List α)
    (h : ∀ x ∈ xs, hostRead (port x) s = .value (value x)) : hostReads s (xs.map port) = .ok (xs.map value) := by
  induction xs with
  | nil => rfl
  | cons x xs ih =>
    rw [List.map_cons, hostReads, h x (by simp), ih fun y hy => h y (by simp [hy])]
    rfl

/-- Settles O53: the last byte of the last slot is 0xFFF, inside the window. -/
theorem tileReadNeverFaults : Obligations.TileReadNeverFaults := by
  intro s hwin
  refine hostReads_map s _ _ _ fun j hj => ?_
  have hslot : s.slot.toNat < 256 := s.slot.isLt
  have hj : j < 16 := List.mem_range.1 hj
  have hoff : slotOffset s.slot + j = 16 * s.slot.toNat + j := by rw [slotOffset, Config.tileBytes, Nat.mul_comm]
  rw [hoff]
  exact (hostRead_win_eq_value_iff _ s _).2 ⟨by omega, hwin, rfl⟩

/-- A host read does not look at the moves still to come. -/
theorem hostRead_host (p : Port) (s : State) (moves : List HostMove) : hostRead p { s with host := moves } = hostRead p s := by
  cases p <;> rfl

/-- Settles O54. -/
theorem hostReadsHaveNoSideEffect : Obligations.HostReadsHaveNoSideEffect := by
  intro s p moves he h
  rw [step_move he h]
  cases hread : hostRead p s <;> simp only [hostStep, hostRead_host, hread]

/-- Settles O50. -/
theorem resetLeavesWhatTheSpecSays : Obligations.ResetLeavesWhatTheSpecSays := by
  refine ⟨rfl, rfl, rfl, rfl, rfl, fun k => ?_, fun p hp => ?_, fun p hp htbl v => ?_⟩
  · rw [← read_ofBytes_zero]
    rfl
  · simp only [List.mem_cons, List.not_mem_nil, or_false] at hp
    obtain rfl | rfl | rfl | rfl | rfl := hp
    all_goals exact ⟨⟨_, rfl⟩, rfl⟩
  · cases p with
    | offset | bank | tilein | pos | cmd | st | err => simp at hp
    | errPos => nofun
    | slot => nofun
    | vstart => nofun
    | baseSel => nofun
    | cur => nofun
    | len => nofun
    | out i => rw [Ne, hostRead_out_eq_value_iff]; exact fun h => nomatch h.2.1
    | tbl k => exact absurd rfl (htbl k)
    | win i => rw [Ne, hostRead_win_eq_value_iff]; exact fun h => nomatch h.2.1

/-! ### XLAT and TSLOT -/

/-- The low 14 bits of POS are those of OFFSET, the bits above are BANK (40 R101). -/
theorem linearOf_fields (offset : Half) (bank : Byte) :
    (linearOf offset bank).extractLsb' 14 8 = bank ∧ (linearOf offset bank).extractLsb' 0 14 = offset.extractLsb' 0 14 := by
  have hbank : bank.toNat < 256 := bank.isLt
  constructor
  · apply BitVec.eq_of_toNat_eq
    rw [BitVec.extractLsb'_toNat, linearOf_toNat, Nat.shiftRight_eq_div_pow]
    omega
  · apply BitVec.eq_of_toNat_eq
    rw [BitVec.extractLsb'_toNat, BitVec.extractLsb'_toNat, linearOf_toNat, Nat.shiftRight_zero, Nat.shiftRight_zero]
    omega

/-- Settles O25. -/
theorem xlatTranslatesTheAddress : Obligations.XlatTranslatesTheAddress := by
  refine ⟨rfl, fun s => ⟨_, exec_xlat s, linearOf_toNat s.offset s.bank, ?_, ?_, rfl⟩, by decide⟩
  · exact (linearOf_fields s.offset s.bank).1
  · exact (linearOf_fields s.offset s.bank).2

/-- TSLOT flips bit 7 of the tile index (44 R192). -/
theorem slotOf_spec : ∀ t : Byte, slotOf t = t ^^^ 0x80#8 ∧
    (slotOf t).toNat = (if 0x7F < t.toNat then t.toNat % 0x80 else t.toNat + 0x80) ∧ slotOf (slotOf t) = t := by
  decide +kernel

theorem exec_tslot (s : State) :
    exec .tslot s = .next (done { s with slot := slotOf s.tilein, valid := { s.valid with slot := true } }) := rfl

/-- Settles O26. -/
theorem tslotMapsTheTileIndex : Obligations.TslotMapsTheTileIndex := by
  refine ⟨rfl, fun s => ?_, fun b => (slotOf_spec b).2.2, rfl, rfl, rfl, rfl⟩
  obtain ⟨hxor, hmap, -⟩ := slotOf_spec s.tilein
  exact ⟨_, exec_tslot s, hmap, hxor, rfl⟩

/-- Settles O38. -/
theorem xlatGentblTslotNeverRaise : Obligations.XlatGentblTslotNeverRaise := by
  rintro s i (rfl | rfl | rfl)
  · exact ⟨_, exec_xlat s, rfl, rfl, rfl, rfl, rfl, rfl, rfl, rfl, rfl, rfl⟩
  · exact ⟨_, exec_gentbl s, rfl, rfl, rfl, rfl, rfl, rfl, rfl, rfl, rfl, rfl⟩
  · exact ⟨_, exec_tslot s, rfl, rfl, rfl, rfl, rfl, rfl, rfl, rfl, rfl, rfl⟩

/-! ### The starts of DECOMP and COMPOSE -/

/-- The control byte's VSTART does not wrap (44 R182). -/
theorem vstartOf_toNat (cb : Byte) : (vstartOf cb).toNat = 0x9630 - 16 * cb.toNat := by
  have hcb : cb.toNat < 256 := cb.isLt
  have hshift : (cb.zeroExtend 16 <<< 4 : Half).toNat = 16 * cb.toNat := by
    simp only [BitVec.truncate_eq_setWidth, BitVec.toNat_shiftLeft, BitVec.toNat_setWidth, Nat.shiftLeft_eq]
    omega
  rw [vstartOf, BitVec.toNat_sub, hshift, BitVec.toNat_ofNat]
  omega

/-- Settles O31: VSTART lies below 0x8800 from control byte 0xE4 on. -/
theorem controlByteFixesThePad : Obligations.ControlByteFixesThePad := by
  intro cb
  have hcb : cb.toNat < 256 := cb.isLt
  have hv := vstartOf_toNat cb
  refine ⟨hv, by omega, by omega, by omega, fun h => ⟨?_, by omega⟩, fun h => ⟨?_, by omega⟩⟩
  · rw [baseSelOf, if_neg (by omega)]
  · rw [baseSelOf, if_pos (by omega)]

theorem exec_decomp_ok {s : State} (h : s.pos.toNat < s.romSize) :
    exec .decomp s = .next (startAt s.pos.toNat (beginDecode .decomp s)) := by
  rw [exec_decomp, startCheck_ok (by exact h)]
  rfl

theorem exec_compose_ok {s : State} (h : s.pos.toNat < s.romSize) :
    exec .compose s = .next (composeBegin (beginDecode .compose s)) := by
  rw [exec_compose, startCheck_ok (by exact h)]
  rfl

/-- Settles O28. -/
theorem decompStartsTheDecode : Obligations.DecompStartsTheDecode := fun _ h => exec_decomp_ok h

/-- Settles O29. -/
theorem composeReadsTheControlByte : Obligations.ComposeReadsTheControlByte := by
  intro s h cb
  have hv : vstartOf (s.rom.read s.pos.toNat) = BitVec.ofNat 16 (0x9630 - cb * 16) := by
    apply BitVec.eq_of_toNat_eq
    rw [vstartOf_toNat, BitVec.toNat_ofNat]
    omega
  have hbase : baseSelOf (vstartOf (s.rom.read s.pos.toNat)) = if 0x9630 - cb * 16 < 0x8800 then 0#1 else 1#1 := by
    rw [baseSelOf, vstartOf_toNat, Nat.mul_comm]
  rw [exec_compose_ok h, composeBegin, romRead, beginDecode_rom, beginDecode_pos, hbase, hv]
  rfl

/-- An error of the start-position check is taken from the state before it, with the results of the kind not valid. -/
theorem raise_beginDecode_only (kind : ErrKind) (info : Int) (e : Engine) (s : State) :
    OnlyErrorFields s (raise kind info (beginDecode e s)) := by
  cases e <;> rfl

/-- Settles O30. -/
theorem startPositionIsChecked : Obligations.StartPositionIsChecked := by
  intro s i hi h
  have raises : ∀ (e : Engine) (g : State → Flow), ∃ t, ((startCheck (beginDecode e s)).bind g).outcome = .next t ∧
      OnlyErrorFields s t ∧ (e = .compose → t.valid.win = false) ∧ t.cur = s.cur ∧ t.len = s.len ∧ t.out = s.out ∧
      t.work = s.work ∧ (s.romSize = 0 → InError t .emptyInput 0) ∧ (0 < s.romSize → InError t .outOfRange s.pos.toNat) := by
    intro e g
    obtain ⟨kind, info, hflow, hrange, hempty⟩ := startCheck_bind_outside e g h
    refine ⟨_, by rw [hflow, Flow.outcome_trap], raise_beginDecode_only kind info e s, ?_, rfl, rfl, rfl, rfl, fun h0 => ?_, fun h0 => ?_⟩
    · rintro rfl
      rfl
    · exact ⟨rfl, (hempty h0).1, (hempty h0).2, rfl, withoutResults_out _ _⟩
    · exact ⟨rfl, (hrange h0).1, (hrange h0).2, rfl, withoutResults_out _ _⟩
  obtain rfl | rfl := hi
  · obtain ⟨t, hexec, hfields, -, hrest⟩ := raises .decomp (fun t => .ok (startAt t.pos.toNat t))
    exact ⟨t, hexec, hfields, nofun, hrest⟩
  · obtain ⟨t, hexec, hfields, hwin, hrest⟩ := raises .compose (fun t => .ok (composeBegin t))
    exact ⟨t, hexec, hfields, fun _ => hwin rfl, hrest⟩

end Sys2Proof.Machine
end

section
/-! PROOFS. What the stream instructions append when nothing raises (spec 43): the bytes, the cursor, the working registers
and the frame. -/

namespace Sys2Proof.Machine

/-! ### The behaviours that read only ROM -/

/-- A flow that only extends OUT appends those bytes, and changes CUR and the working registers besides. -/
theorem appends_of_extend {s : State} {f : Flow} {bs : List Byte} {cur : Nat} {w : Work} (hwf : s.out.wf)
    (hf : f = .ok (extend s bs cur w)) :
    ∃ t, f.outcome = .next t ∧ Appended s t bs ∧ OnlyStreamFields s t ∧ t.cur = cur ∧ t.work = w :=
  ⟨_, by rw [hf, Flow.outcome_ok], extend_appended hwf bs cur w, extend_only s bs cur w, rfl, rfl⟩

/-- Settles O10. -/
theorem literalCopiesAppendTheirData : Obligations.LiteralCopiesAppendTheirData := by
  intro s data hwf hcap
  refine ⟨fun c hn => ?_, fun x c hn => ?_, fun x c hn => ?_, fun c hn => ?_⟩
  · rw [exec_lit, headS_eq, ← hn, BitVec.toNat_ofNat, Nat.zero_mod, Nat.zero_mul, Nat.zero_add]
    exact appends_of_extend hwf (literal_ok data _ hcap)
  · rw [exec_litx, headX_eq, ← hn, BitVec.toNat_ofNat, Nat.zero_mod, Nat.zero_mul, Nat.add_zero]
    exact appends_of_extend hwf (literal_ok data _ hcap)
  · have hx : (x.zeroExtend 2).toNat = x.toNat := by revert x; decide
    rw [exec_litxD, headX_eq, ← hn, hx]
    exact appends_of_extend hwf (literal_ok data _ hcap)
  · rw [exec_litxDFE, headX_eq, ← hn]
    exact appends_of_extend hwf (literal_ok data _ hcap)

/-- Settles O11. -/
theorem repeatedByteAppendsItNTimes : Obligations.RepeatedByteAppendsItNTimes := by
  intro s b hwf
  refine ⟨fun c hcap => ?_, fun x c hcap => ?_⟩
  · rw [exec_rpt, headS_eq]
    exact appends_of_extend hwf (repeatByte_ok _ b _ hcap)
  · rw [exec_rptx, headX_eq]
    exact appends_of_extend hwf (repeatByte_ok _ b _ hcap)

/-- Settles O12. -/
theorem repeatedPairAppendsItNTimes : Obligations.RepeatedPairAppendsItNTimes := by
  intro s b1 b2 hwf
  refine ⟨fun c hcap => ?_, fun x c hcap => ?_⟩
  · rw [exec_pair, headS_eq, ← pairBytes_eq]
    exact appends_of_extend hwf (repeatPair_ok _ b1 b2 _ hcap)
  · rw [exec_pairx, headX_eq, ← pairBytes_eq]
    exact appends_of_extend hwf (repeatPair_ok _ b1 b2 _ hcap)

theorem add_ofNat_eq (b : Byte) (n : Nat) : b + BitVec.ofNat 8 n = BitVec.ofNat 8 (b.toNat + n) := by
  rw [BitVec.ofNat_add, BitVec.ofNat_toNat, BitVec.setWidth_eq]

/-- Settles O13. -/
theorem incrementingRunCountsModulo256 : Obligations.IncrementingRunCountsModulo256 := by
  intro s seed hwf
  refine ⟨fun c hcap => ?_, fun x c hcap => ?_⟩
  · rw [exec_inc, headS_eq, ← runBytes_eq, ← add_ofNat_eq]
    exact appends_of_extend hwf (countUp_ok _ seed _ hcap)
  · rw [exec_incx, headX_eq, ← runBytes_eq, ← add_ofNat_eq]
    exact appends_of_extend hwf (countUp_ok _ seed _ hcap)

/-! ### The self-copies -/

/-- The working registers at the end of a self-copy of `n` bytes whose index ends at `idx`. -/
def copyWork (w : Work) (n : Nat) (start : Half) (idx : Int) : Work :=
  { w with
    idx := idx, b1 := BitVec.ofNat 8 (start.toNat / 256), b2 := BitVec.ofNat 8 start.toNat
    k := BitVec.ofNat 9 n }

/-- A self-copy from a head `h` whose reads all succeed: byte `j` it appends is the mapped byte that stands at
`start + j * move` at the end. -/
theorem copy_ok {map : State → Byte → Byte} {f : Byte → Byte} {move : Int} (n : Nat) (start : Half) (h : State)
    (hmap : ∀ t v, t.tbl = h.tbl → map t v = f v) (hwf : h.out.wf) (hcap : h.len + n ≤ h.params.outCap)
    (hreads : ∀ j : Nat, j < n → 0 ≤ (start.toNat : Int) + j * move ∧ (start.toNat : Int) + j * move < h.len + j) :
    ∃ bs, bs.length = n ∧
      iterate (copyBody map move) n (readStart start h) = .ok (extend h bs (h.cur + 2)
        (copyWork h.work n start (start.toNat + n * move))) ∧
      ∀ (j : Nat) (hj : j < bs.length), bs[j] = f ((h.out.writeList h.len bs).read (start.toNat + j * move : Int).toNat) := by
  rw [readStart_eq]
  obtain ⟨bs, hlen, hok, hget⟩ := copyLoop_ok (move := move) n
    (startK (setWork { h.work with
      idx := (start.toNat : Int), b1 := BitVec.ofNat 8 (start.toNat / 256), b2 := BitVec.ofNat 8 start.toNat }
      (consume (consume h)))) hmap hwf hcap hreads
  refine ⟨bs, hlen, hok.trans ?_, hget⟩
  simp [extend, copyWork, startK, setWork, consume]

/-- A forward self-copy inside OUT: byte `j` it appends is the mapped byte that stands at `start + j` at the end. -/
theorem copyUp_ok {map : State → Byte → Byte} {f : Byte → Byte} (n : Nat) (start : Half) (h : State)
    (hmap : ∀ t v, t.tbl = h.tbl → map t v = f v) (hwf : h.out.wf) (hcap : h.len + n ≤ h.params.outCap)
    (hstart : start.toNat < h.len) :
    ∃ bs, bs.length = n ∧
      iterate (copyBody map 1) n (readStart start h) = .ok (extend h bs (h.cur + 2) (copyWork h.work n start (start.toNat + n))) ∧
      ∀ (j : Nat) (hj : j < bs.length), bs[j] = f ((h.out.writeList h.len bs).read (start.toNat + j)) := by
  obtain ⟨bs, hlen, hok, hget⟩ := copy_ok (move := 1) n start h hmap hwf hcap (fun j _ => by omega)
  rw [mul_one] at hok
  refine ⟨bs, hlen, hok, fun j hj => ?_⟩
  have hidx : ((start.toNat : Int) + j * 1).toNat = start.toNat + j := by omega
  rw [hget j hj, hidx]

/-- What the two forward copies do from a head that has left OUT, LEN and the parameters as they were. -/
theorem copyUp_appends {map : State → Byte → Byte} {f : Byte → Byte} (n : Nat) (start : Half) (s : State) (w : Work)
    (cur : Nat) (hmap : ∀ t v, t.tbl = s.tbl → map t v = f v) (hwf : s.out.wf) (hcap : s.len + n ≤ s.params.outCap)
    (hstart : start.toNat < s.len) :
    ∃ t, (iterate (copyBody map 1) n (readStart start (setWork w { s with cur := cur }))).outcome = .next t ∧
      t.len = s.len + n ∧ (∀ j, j < n → t.out.read (s.len + j) = f (t.out.read (start.toNat + j))) ∧
      (∀ a, a < s.len ∨ s.len + n ≤ a → t.out.read a = s.out.read a) ∧ OnlyStreamFields s t ∧ t.cur = cur + 2 ∧
      t.work = copyWork w n start (start.toNat + n) := by
  obtain ⟨bs, rfl, hok, hget⟩ := copyUp_ok n start (setWork w { s with cur := cur }) hmap hwf hcap hstart
  obtain ⟨hlen, hnew, hold⟩ := extend_appended (s := s) hwf bs (cur + 2) (copyWork w bs.length start (start.toNat + bs.length))
  exact ⟨_, congrArg Flow.outcome hok, hlen, fun j hj => (hnew j hj).trans (hget j hj), hold, rfl, rfl, rfl⟩

/-- Settles O14. -/
theorem forwardCopyReadsItsOwnOutput : Obligations.ForwardCopyReadsItsOwnOutput := by
  intro s start hwf hstart
  refine ⟨fun c hcap => ?_, fun x c hcap => ?_⟩
  · rw [exec_fwd, headS_eq]
    exact copyUp_appends (f := id) _ start s _ _ (fun _ _ _ => rfl) hwf hcap hstart
  · rw [exec_fwdx, headX_eq]
    exact copyUp_appends (f := id) _ start s _ _ (fun _ _ _ => rfl) hwf hcap hstart

/-- Settles O15: a byte whose index has reached what was appended is one period older. -/
theorem forwardCopyRepeatsWithPeriod : Obligations.ForwardCopyRepeatsWithPeriod := by
  intro s c x cx start hwf hstart
  have periodic : ∀ (t : State) (n : Nat), (∀ j, j < n → t.out.read (s.len + j) = t.out.read (start.toNat + j)) →
      (∀ a, a < s.len ∨ s.len + n ≤ a → t.out.read a = s.out.read a) →
      ∀ j, j < n → t.out.read (s.len + j) = s.out.read (start.toNat + j % (s.len - start.toNat)) := by
    intro t n hnew hold j
    induction j using Nat.strong_induction_on with
    | _ j ih =>
      intro hj
      rw [hnew j hj]
      by_cases hlt : start.toNat + j < s.len
      · rw [hold _ (.inl hlt), Nat.mod_eq_of_lt (by omega)]
      · have hback : start.toNat + j = s.len + (j - (s.len - start.toNat)) := by omega
        rw [hback, ih _ (by omega) (by omega), ← Nat.mod_eq_sub_mod (by omega)]
  obtain ⟨hfwd, hfwdx⟩ := forwardCopyReadsItsOwnOutput s start hwf hstart
  refine ⟨fun hcap => ?_, fun hcap => ?_⟩
  · obtain ⟨t, hexec, -, hnew, hold, -⟩ := hfwd c hcap
    exact ⟨t, hexec, periodic t _ hnew hold⟩
  · obtain ⟨t, hexec, -, hnew, hold, -⟩ := hfwdx x cx hcap
    exact ⟨t, hexec, periodic t _ hnew hold⟩

/-- Settles O16: TBL does not change while the bytes are appended. -/
theorem tableCopyMapsEachByteRead : Obligations.TableCopyMapsEachByteRead := by
  intro s start hwf hstart
  have hmap : ∀ (t : State) v, t.tbl = s.tbl → tblRead v t = s.tbl.read v.toNat := fun t v ht => by rw [tblRead, ht]
  refine ⟨fun c hcap => ?_, fun x c hcap => ?_⟩
  · rw [exec_tbl, headS_eq]
    exact
      copyUp_appends (f := fun v => s.tbl.read v.toNat) _ start s _ _ hmap hwf hcap hstart
  · rw [exec_tblx, headX_eq]
    exact
      copyUp_appends (f := fun v => s.tbl.read v.toNat) _ start s _ _ hmap hwf hcap hstart

/-- A backward copy inside OUT appends the old bytes from `start` down. -/
theorem copyBackward_ok (n : Nat) (start : Half) (h : State) (hwf : h.out.wf) (hcap : h.len + n ≤ h.params.outCap)
    (hstart : start.toNat < h.len) (hn : n ≤ start.toNat + 1) :
    copyBackward n start h = .ok (extend h ((List.range n).map (fun j => h.out.read (start.toNat - j))) (h.cur + 2)
      (copyWork h.work n start (start.toNat - n))) := by
  obtain ⟨bs, hlen, hok, hget⟩ := copy_ok (map := fun _ v => v) (f := id) (move := -1) n start h (fun _ _ _ => rfl) hwf hcap
    (fun j _ => by omega)
  have hbs : bs = (List.range n).map (fun j => h.out.read (start.toNat - j)) := by
    apply List.ext_getElem
    · simp [hlen]
    · intro j hj _
      have hidx : ((start.toNat : Int) + j * (-1)).toNat = start.toNat - j := by omega
      rw [hget j hj, hidx, id, Memory.read_writeList hwf, dif_neg (by omega)]
      simp
  rw [← hbs, Int.sub_eq_add_neg, ← mul_neg_one]
  exact hok

/-- Settles O17. -/
theorem backwardCopyReversesTheBytes : Obligations.BackwardCopyReversesTheBytes := by
  intro s start hwf hstart
  refine ⟨fun c hn hcap => ?_, fun x c hn hcap => ?_⟩
  · rw [exec_bwd, headS_eq]
    exact appends_of_extend hwf (copyBackward_ok _ start _ hwf hcap hstart hn)
  · rw [exec_bwdx, headX_eq]
    exact appends_of_extend hwf (copyBackward_ok _ start _ hwf hcap hstart hn)

end Sys2Proof.Machine
end

section
/-! PROOFS. The stream instructions but END as one of seven behaviours after one of two heads, and what holds of every
behaviour: what it moves when it goes through, that it does the same wherever it stands, where it fills OUT, where its
reads leave OUT, where its data runs out (spec 43, 42 R145, 60 R248). -/

namespace Sys2Proof.Machine

/-! ### Heads and behaviours -/

/-- What a stream instruction but END does after its head (43 R151 to R158). -/
inductive Behaviour where
  | literal (data : List Byte)
  | repeatByte (b : Byte)
  | repeatPair (b1 b2 : Byte)
  | countUp (seed : Byte)
  | copyForward (start : Half)
  | copyTable (start : Half)
  | copyBackward (start : Half)

/-- The behaviour with count `n`. -/
def Behaviour.run (n : Nat) : Behaviour → State → Flow
  | .literal data => Machine.literal n data
  | .repeatByte b => Machine.repeatByte n b
  | .repeatPair b1 b2 => Machine.repeatPair n b1 b2
  | .countUp seed => Machine.countUp n seed
  | .copyForward start => Machine.copyForward n start
  | .copyTable start => Machine.copyTable n start
  | .copyBackward start => Machine.copyBackward n start

/-- How many operand bytes it takes (30 R73). -/
def Behaviour.operands : Behaviour → Nat
  | .literal data => data.length
  | .repeatByte _ | .countUp _ => 1
  | .repeatPair _ _ | .copyForward _ | .copyTable _ | .copyBackward _ => 2

/-- How many bytes it appends with count `n` (43 R163). -/
def Behaviour.appended (n : Nat) : Behaviour → Nat
  | .repeatPair _ _ => n * 2
  | .literal _ | .repeatByte _ | .countUp _ | .copyForward _ | .copyTable _ | .copyBackward _ => n

/-- The operand bytes are those the count asks for (30 R73, R74). -/
def Behaviour.complete (n : Nat) : Behaviour → Prop
  | .literal data => data.length = n
  | .repeatByte _ | .repeatPair _ _ | .countUp _ | .copyForward _ | .copyTable _ | .copyBackward _ => True

/-- The behaviour of each stream instruction (30 R75, R89). -/
def behaviour : Instr → Option Behaviour
  | .lit _ data | .litx _ _ data | .litxD _ _ data | .litxDFE _ data => some (.literal data)
  | .rpt _ b | .rptx _ _ b => some (.repeatByte b)
  | .pair _ b1 b2 | .pairx _ _ b1 b2 => some (.repeatPair b1 b2)
  | .inc _ seed | .incx _ _ seed => some (.countUp seed)
  | .fwd _ start | .fwdx _ _ start => some (.copyForward start)
  | .tbl _ start | .tblx _ _ start => some (.copyTable start)
  | .bwd _ start | .bwdx _ _ start => some (.copyBackward start)
  | .endStream | .xlat | .gentbl | .decomp | .compose | .tslot => none

/-- How many bytes the head takes: the opcode byte, and in format X the count byte. -/
def headSize : Instr → Nat
  | .litx _ _ _ | .rptx _ _ _ | .pairx _ _ _ _ | .incx _ _ _ | .fwdx _ _ _ | .tblx _ _ _ | .bwdx _ _ _ => 2
  | .litxD _ _ _ | .litxDFE _ _ => 2
  | .lit _ _ | .rpt _ _ | .pair _ _ _ | .inc _ _ | .fwd _ _ | .tbl _ _ | .bwd _ _ => 1
  | .endStream | .xlat | .gentbl | .decomp | .compose | .tslot => 1

/-- The working registers as the fetch of the head leaves them (42 R132, R135). -/
def headRegs (i : Instr) (w : Work) : Work :=
  match i with
  | .litx _ c _ | .rptx _ c _ | .pairx _ c _ _ | .incx _ c _ | .fwdx _ c _ | .tblx _ c _ | .bwdx _ c _
  | .litxD _ c _ | .litxDFE c _ => { w with op := i.opcode, tag := tagX i.opcode, cnt := c, n := c.zeroExtend 9 + 1#9 }
  | _ => { w with
      op := i.opcode, tag := tagS i.opcode, cnt := i.opcode &&& 0x1F#8, n := (i.opcode &&& 0x1F#8).zeroExtend 9 + 1#9 }

/-- The fetch of the head. -/
def fetchHead (i : Instr) (s : State) : State := { s with cur := s.cur + headSize i, work := headRegs i s.work }

/-- A stream instruction is END or has a behaviour. -/
theorem behaviour_of_stream {i : Instr} (h : i.space = .stream) : i = .endStream ∨ ∃ b, behaviour i = some b := by
  cases i with
  | endStream => exact .inl rfl
  | xlat => cases h
  | gentbl => cases h
  | decomp => cases h
  | compose => cases h
  | tslot => cases h
  | _ => exact .inr ⟨_, rfl⟩

/-- The meaning of a stream instruction but END: its head, then its behaviour. -/
theorem exec_behaviour {i : Instr} {b : Behaviour} (h : behaviour i = some b) (s : State) :
    exec i s = (b.run i.count (fetchHead i s)).outcome := by
  cases i <;> cases h <;> rfl

theorem length_eq {i : Instr} {b : Behaviour} (h : behaviour i = some b) (hb : b.complete i.count) :
    i.length = headSize i + b.operands := by
  cases i <;> cases h <;> simp_all [Instr.length, headSize, Behaviour.operands, Behaviour.complete, Instr.count]

theorem produced_eq {i : Instr} {b : Behaviour} (h : behaviour i = some b) : produced i = b.appended i.count := by
  cases i <;> cases h <;> simp [produced, Behaviour.appended, Instr.count, Nat.mul_comm]

theorem complete_of_wellFormed {i : Instr} {b : Behaviour} (h : behaviour i = some b) (hwf : i.wellFormed = true) :
    b.complete i.count := by
  cases i <;> cases h <;> simp_all [Instr.wellFormed, literalFits, Behaviour.complete, Instr.count]

theorem literalData_eq {i : Instr} {data : List Byte} (h : literalData i = some data) :
    behaviour i = some (.literal data) := by
  cases i <;> cases h <;> rfl

theorem fetchHead_reached (i : Instr) (s : State) : Reached s (fetchHead i s) :=
  ⟨rfl, Nat.le_add_right _ _, le_refl _, id, id, id⟩

theorem run_within (b : Behaviour) (n : Nat) (s : State) : Within s (b.run n s) := by
  cases b with
  | literal data => exact literal_within n data s
  | repeatByte b => exact repeatByte_within n b s
  | repeatPair b1 b2 => exact repeatPair_within n b1 b2 s
  | countUp seed => exact countUp_within n seed s
  | copyForward start => exact copyForward_within n start s
  | copyTable start => exact copyTable_within n start s
  | copyBackward start => exact copyBackward_within n start s

/-! ### What moves when nothing raises (43 R163) -/

theorem Flow.bind_eq_ok {f : Flow} {g : State → Flow} {t : State} (h : f.bind g = .ok t) : ∃ u, f = .ok u ∧ g u = .ok t := by
  cases f with
  | ok u => exact ⟨u, rfl, h⟩
  | trap e i u => cases h

theorem emit_eq_ok {v : Byte} {s t : State} (h : emit v s = .ok t) : t = push v s := by
  unfold emit at h
  split at h <;> cases h
  rfl

/-- `t` stands where `s` stands, with `m` more bytes in OUT. -/
def Grown (m : Nat) (s t : State) : Prop := t.cur = s.cur ∧ t.len = s.len + m

theorem loopK_grown {body : State → Flow} {m : Nat} (hbody : ∀ s t, body (tickK s) = .ok t → Grown m s t) (n : Nat) (s t : State)
    (h : loopK body n s = .ok t) : Grown (n * m) s t := by
  induction n generalizing s with
  | zero => cases h; exact ⟨rfl, by rw [Nat.zero_mul, Nat.add_zero]⟩
  | succ n ih =>
    obtain ⟨u, hu, ht⟩ := Flow.bind_eq_ok h
    obtain ⟨hcur, hlen⟩ := hbody s u hu
    obtain ⟨hcur', hlen'⟩ := ih u ht
    exact ⟨hcur'.trans hcur, by rw [hlen', hlen, Nat.succ_mul]; omega⟩

theorem iterate_grown {body : State → Flow} {m : Nat} (hbody : ∀ s t, body (tickK s) = .ok t → Grown m s t) {n : Nat}
    {s t : State} (h : iterate body n s = .ok t) : Grown (n * m) s t :=
  loopK_grown hbody n (startK s) t h

theorem copyBody_grown {map : State → Byte → Byte} {move : Int} (s t : State) (h : copyBody map move (tickK s) = .ok t) :
    Grown 1 s t := by
  unfold copyBody outRead at h
  split at h
  · cases h
  · obtain ⟨u, hu, ht⟩ := Flow.bind_eq_ok h
    cases emit_eq_ok hu
    cases ht
    exact ⟨rfl, rfl⟩

theorem literalLoop_grown (n : Nat) (data : List Byte) (s t : State) (h : literalLoop n data s = .ok t) :
    t.cur = s.cur + n ∧ t.len = s.len + n := by
  induction n generalizing data s with
  | zero => cases h; exact ⟨rfl, rfl⟩
  | succ n ih =>
    cases data with
    | nil => cases h
    | cons b data =>
      obtain ⟨u, hu, ht⟩ := Flow.bind_eq_ok h
      cases emit_eq_ok hu
      obtain ⟨hcur, hlen⟩ := ih _ _ ht
      simp only [push_cur, consume_cur, tickK_cur, push_len, consume_len, tickK_len] at hcur hlen
      exact ⟨by omega, by omega⟩

/-- A behaviour that goes through has taken its operand bytes and appended what its count says. -/
theorem run_grown {b : Behaviour} {n : Nat} (hb : b.complete n) {s t : State} (h : b.run n s = .ok t) :
    t.cur = s.cur + b.operands ∧ t.len = s.len + b.appended n := by
  have copies : ∀ (map : State → Byte → Byte) (move : Int) (start : Half),
      iterate (copyBody map move) n (readStart start s) = .ok t → t.cur = s.cur + 2 ∧ t.len = s.len + n := fun map move start h => by
    simpa [Grown] using iterate_grown copyBody_grown h
  cases b with
  | literal data =>
    obtain rfl : data.length = n := hb
    exact literalLoop_grown _ data (startK s) t h
  | repeatByte b =>
    have hgrown := iterate_grown (m := 1) (fun s t h => by cases emit_eq_ok h; exact ⟨rfl, rfl⟩) h
    simpa [Grown, Behaviour.operands, Behaviour.appended] using hgrown
  | repeatPair b1 b2 =>
    refine iterate_grown (m := 2) (fun s t h => ?_) h
    obtain ⟨u, hu, ht⟩ := Flow.bind_eq_ok h
    cases emit_eq_ok hu
    cases emit_eq_ok ht
    exact ⟨rfl, rfl⟩
  | countUp seed =>
    have hgrown := iterate_grown (m := 1) (fun s t h => by
      obtain ⟨u, hu, ht⟩ := Flow.bind_eq_ok h
      cases emit_eq_ok hu
      cases ht
      exact ⟨rfl, rfl⟩) h
    simpa [Grown, Behaviour.operands, Behaviour.appended] using hgrown
  | copyForward start => exact copies _ _ start h
  | copyTable start => exact copies _ _ start h
  | copyBackward start => exact copies _ _ start h

/-- A well-formed stream instruction but END that goes through has moved CUR by its length and LEN by what it produces. -/
theorem behaviour_accounts {i : Instr} {b : Behaviour} (h : behaviour i = some b) (hb : b.complete i.count) {s t : State}
    (ht : b.run i.count (fetchHead i s) = .ok t) : t.cur = s.cur + i.length ∧ t.len = s.len + produced i := by
  obtain ⟨hcur, hlen⟩ := run_grown hb ht
  rw [length_eq h hb, produced_eq h, hcur, hlen, ← Nat.add_assoc]
  exact ⟨rfl, rfl⟩

/-! ### The same wherever it stands (42 R145) -/

/-- The machine with its cursor `d` positions further on. -/
def moved (d : Nat) (s : State) : State := { s with cur := s.cur + d }

@[simp] theorem moved_work (d : Nat) (s : State) : (moved d s).work = s.work := rfl
@[simp] theorem moved_len (d : Nat) (s : State) : (moved d s).len = s.len := rfl
@[simp] theorem moved_params (d : Nat) (s : State) : (moved d s).params = s.params := rfl
@[simp] theorem padOf_moved (d : Nat) (s : State) : padOf (moved d s) = padOf s := rfl
@[simp] theorem moved_out (d : Nat) (s : State) : (moved d s).out = s.out := rfl

/-- What a part leads to, `d` positions further on. -/
def Flow.moved (d : Nat) : Flow → Flow
  | .ok s => .ok (Machine.moved d s)
  | .trap e info s => .trap e info (Machine.moved d s)

theorem moved_outcome (d : Nat) (f : Flow) : ∃ t, f.outcome = .next t ∧ (f.moved d).outcome = .next (moved d t) := by
  cases f with
  | ok s => exact ⟨s, rfl, rfl⟩
  | trap e info s => exact ⟨raise e info s, rfl, rfl⟩

theorem moved_bind (d : Nat) (f : Flow) {g : State → Flow} (hg : ∀ s, g (moved d s) = (g s).moved d) :
    (f.moved d).bind g = (f.bind g).moved d := by
  cases f with
  | ok s => exact hg s
  | trap e info s => rfl

theorem consume_moved (d : Nat) (s : State) : consume (moved d s) = moved d (consume s) := by
  simp only [consume, moved, Nat.add_right_comm]

theorem emit_moved (d : Nat) (v : Byte) (s : State) : emit v (moved d s) = (emit v s).moved d := by
  by_cases h : s.params.outCap ≤ s.len
  · rw [emit_full h, emit_full (by exact h)]; rfl
  · rw [emit_ok (s := s) (by omega), emit_ok (by exact Nat.lt_of_not_le h)]; rfl

theorem copyBody_moved {map : State → Byte → Byte} (hmap : ∀ d s v, map (moved d s) v = map s v) (move : Int) (d : Nat)
    (s : State) : copyBody map move (moved d s) = (copyBody map move s).moved d := by
  by_cases h : s.work.idx < 0 ∨ (s.len : Int) ≤ s.work.idx
  · rw [copyBody, copyBody, outRead_out h, outRead_out (by exact h)]; rfl
  · have h0 : 0 ≤ s.work.idx := by omega
    have h1 : s.work.idx < s.len := by omega
    rw [copyBody, copyBody, moved_work, outRead_ok h0 h1, outRead_ok (s := moved d s) h0 h1, moved_out, hmap, emit_moved]
    exact moved_bind d _ fun t => rfl

theorem loopK_moved {body : State → Flow} (d : Nat) (hbody : ∀ s, body (moved d s) = (body s).moved d) (n : Nat) (s : State) :
    loopK body n (moved d s) = (loopK body n s).moved d := by
  induction n generalizing s with
  | zero => rfl
  | succ n ih =>
    have hfirst : body (tickK (moved d s)) = (body (tickK s)).moved d := hbody (tickK s)
    rw [loopK, loopK, hfirst]
    exact moved_bind d _ ih

theorem iterate_moved {body : State → Flow} (d : Nat) (hbody : ∀ s, body (moved d s) = (body s).moved d) (n : Nat) (s : State) :
    iterate body n (moved d s) = (iterate body n s).moved d :=
  loopK_moved d hbody n (startK s)

theorem literalLoop_moved (d : Nat) (data : List Byte) (s : State) :
    literalLoop data.length data (moved d s) = (literalLoop data.length data s).moved d := by
  induction data generalizing s with
  | nil => rfl
  | cons b data ih =>
    have hfetch : consume (tickK (moved d s)) = moved d (consume (tickK s)) := consume_moved d (tickK s)
    rw [List.length_cons, literalLoop, literalLoop, hfetch, emit_moved]
    exact moved_bind d _ ih

theorem takeB1_moved (d : Nat) (b : Byte) (s : State) : takeB1 b (moved d s) = moved d (takeB1 b s) := by
  rw [takeB1, consume_moved]; rfl

theorem takeB2_moved (d : Nat) (b : Byte) (s : State) : takeB2 b (moved d s) = moved d (takeB2 b s) := by
  rw [takeB2, consume_moved]; rfl

theorem readStart_moved (d : Nat) (start : Half) (s : State) : readStart start (moved d s) = moved d (readStart start s) := by
  rw [readStart, takeB1_moved, takeB2_moved]; rfl

theorem fetchHead_moved (d : Nat) (i : Instr) (s : State) : fetchHead i (moved d s) = moved d (fetchHead i s) := by
  simp only [fetchHead, moved, Nat.add_right_comm]

theorem run_moved {b : Behaviour} {n : Nat} (hb : b.complete n) (d : Nat) (s : State) :
    b.run n (moved d s) = (b.run n s).moved d := by
  have copies : ∀ (map : State → Byte → Byte) (move : Int) (start : Half), (∀ d s v, map (moved d s) v = map s v) →
      iterate (copyBody map move) n (readStart start (moved d s)) =
        (iterate (copyBody map move) n (readStart start s)).moved d := by
    intro map move start hmap
    rw [readStart_moved]
    exact iterate_moved d (copyBody_moved hmap move d) n _
  cases b with
  | literal data =>
    obtain rfl : data.length = n := hb
    exact literalLoop_moved d data (startK s)
  | repeatByte b =>
    show repeatByte n b _ = _
    rw [repeatByte, takeB1_moved]
    exact iterate_moved d (fun t => emit_moved d t.work.b1 t) n _
  | repeatPair b1 b2 =>
    show repeatPair n b1 b2 _ = _
    rw [repeatPair, takeB1_moved, takeB2_moved]
    refine iterate_moved d (fun t => ?_) n _
    rw [emit_moved]
    exact moved_bind d _ fun u => emit_moved d _ u
  | countUp seed =>
    show countUp n seed _ = _
    rw [countUp, takeB1_moved]
    refine iterate_moved d (fun t => ?_) n _
    rw [emit_moved]
    exact moved_bind d _ fun u => rfl
  | copyForward start => exact copies _ _ start fun _ _ _ => rfl
  | copyTable start => exact copies _ _ start fun _ _ _ => rfl
  | copyBackward start => exact copies _ _ start fun _ _ _ => rfl

end Sys2Proof.Machine
end

section
/-! PROOFS. Where stream instructions raise (spec 43, 60): a start index outside OUT, a backward copy below index 0, the
capacity, data bytes that run out. -/

namespace Sys2Proof.Machine

/-- What the machine is in after an error raised from a state the instruction reached. -/
theorem raised_spec {s u : State} {f : Flow} {e : ErrKind} {info : Int} (hf : f = .trap e info u) (hu : OnlyStreamFields s u) :
    ∃ t, f.outcome = .next t ∧ InError t e info ∧ OnlyErrorFields s t ∧ t.len = u.len ∧ t.out = u.out :=
  ⟨_, congrArg Flow.outcome hf, ⟨rfl, rfl, rfl, rfl, withoutResults_out _ _⟩, hu.raise e info, rfl, rfl⟩

/-! ### Self-copies that start outside OUT (43 R161) -/

/-- The state before the first iteration of a self-copy. -/
def copyBegin (start : Half) (h : State) : State :=
  { h with
    cur := h.cur + 2
    work := { h.work with
      idx := start.toNat, b1 := BitVec.ofNat 8 (start.toNat / 256), b2 := BitVec.ofNat 8 start.toNat, k := 0#9 } }

theorem iterate_readStart (body : State → Flow) (n : Nat) (start : Half) (h : State) :
    iterate body n (readStart start h) = loopK body n (copyBegin start h) := by
  rw [iterate, readStart_eq]
  rfl

theorem copyBegin_only (start : Half) (h : State) : OnlyStreamFields h (copyBegin start h) := rfl

@[simp] theorem copyBegin_cur (start : Half) (h : State) : (copyBegin start h).cur = h.cur + 2 := rfl
@[simp] theorem copyBegin_len (start : Half) (h : State) : (copyBegin start h).len = h.len := rfl
@[simp] theorem copyBegin_out (start : Half) (h : State) : (copyBegin start h).out = h.out := rfl
@[simp] theorem copyBegin_tbl (start : Half) (h : State) : (copyBegin start h).tbl = h.tbl := rfl
@[simp] theorem copyBegin_params (start : Half) (h : State) : (copyBegin start h).params = h.params := rfl
@[simp] theorem copyBegin_idx (start : Half) (h : State) : (copyBegin start h).work.idx = start.toNat := rfl

theorem fetchHead_only (i : Instr) (s : State) : OnlyStreamFields s (fetchHead i s) := rfl

@[simp] theorem fetchHead_cur (i : Instr) (s : State) : (fetchHead i s).cur = s.cur + headSize i := rfl
@[simp] theorem fetchHead_len (i : Instr) (s : State) : (fetchHead i s).len = s.len := rfl
@[simp] theorem fetchHead_out (i : Instr) (s : State) : (fetchHead i s).out = s.out := rfl
@[simp] theorem fetchHead_tbl (i : Instr) (s : State) : (fetchHead i s).tbl = s.tbl := rfl
@[simp] theorem fetchHead_params (i : Instr) (s : State) : (fetchHead i s).params = s.params := rfl

theorem copy_startOutside {map : State → Byte → Byte} {move : Int} (n : Nat) (start : Half) (h : State)
    (hstart : h.len ≤ start.toNat) :
    loopK (copyBody map move) (n + 1) (copyBegin start h) = .trap .outOfRange start.toNat (tickK (copyBegin start h)) := by
  rw [loopK, copyBody, outRead_out, Flow.bind_trap]
  · simp
  · simp
    omega

/-- Settles O18: the first read comes before the first append. -/
theorem selfCopyStartOutsideRaisesOutOfRange : Obligations.SelfCopyStartOutsideRaisesOutOfRange := by
  intro s c x cx start hstart i hi
  have copies : ∀ {i : Instr} (map : State → Byte → Byte) (move : Int) (n : Nat),
      exec i s = (iterate (copyBody map move) (n + 1) (readStart start (fetchHead i s))).outcome →
      ∃ t, exec i s = .next t ∧ InError t .outOfRange start.toNat ∧ OnlyErrorFields s t ∧ t.len = s.len ∧ t.out = s.out := by
    intro i map move n hexec
    rw [hexec, iterate_readStart]
    have honly : OnlyStreamFields s (tickK (copyBegin start (fetchHead i s))) := rfl
    obtain ⟨t, hnext, herror, hfields, hlen, hout⟩ := raised_spec (copy_startOutside n start (fetchHead i s) hstart) honly
    exact ⟨t, hnext, herror, hfields, hlen.trans (by simp), hout.trans (by simp)⟩
  simp only [List.mem_cons, List.not_mem_nil, or_false] at hi
  obtain rfl | rfl | rfl | rfl | rfl | rfl := hi
  · exact copies (fun _ v => v) 1 c.toNat (exec_behaviour (b := .copyForward start) rfl s)
  · exact copies (fun t v => tblRead v t) 1 c.toNat (exec_behaviour (b := .copyTable start) rfl s)
  · exact copies (fun _ v => v) (-1) c.toNat (exec_behaviour (b := .copyBackward start) rfl s)
  · exact copies (fun _ v => v) 1 cx.toNat (exec_behaviour (b := .copyForward start) rfl s)
  · exact copies (fun t v => tblRead v t) 1 cx.toNat (exec_behaviour (b := .copyTable start) rfl s)
  · exact copies (fun _ v => v) (-1) cx.toNat (exec_behaviour (b := .copyBackward start) rfl s)

/-! ### Backward copies below index 0 (43 R158) -/

/-- Settles O19: the read that fails is the one after `start + 1` bytes, with IDX at -1. -/
theorem backwardCopyBelowZeroRaisesOutOfRange : Obligations.BackwardCopyBelowZeroRaisesOutOfRange := by
  intro s start hwf hstart hcap
  have below : ∀ (i : Instr), behaviour i = some (.copyBackward start) → start.toNat + 1 < i.count →
      ∃ t, exec i s = .next t ∧ InError t .outOfRange (-1) ∧ OnlyErrorFields s t ∧ t.len = s.len + (start.toNat + 1) := by
    intro i hi hn
    obtain ⟨u, hu, honly, hlen⟩ := copyLoop_outOfRange (map := fun _ v => v) (f := id) (move := -1) (start.toNat + 1) i.count
      (copyBegin start (fetchHead i s)) (fun _ _ _ => rfl) hwf hn hcap
      (fun j hj => by simp only [copyBegin_idx, copyBegin_len, fetchHead_len]; omega) (by simp)
    obtain ⟨t, hnext, herror, hfields, htlen, -⟩ :=
      raised_spec hu (((fetchHead_only i s).trans (copyBegin_only start _)).trans honly)
    rw [exec_behaviour hi, Behaviour.run, copyBackward, iterate_readStart]
    refine ⟨t, hnext, ?_, hfields, htlen.trans hlen⟩
    simpa using herror
  exact ⟨fun c hn => below _ rfl hn, fun x c hn => below _ rfl hn⟩

/-! ### The capacity (43 R150, R174) -/

/-- The flow has filled OUT and raised OutputOverflow. -/
def FillsUp (cap : Nat) (f : Flow) : Prop := ∃ u, f = .trap .outputOverflow cap u ∧ u.len = cap

/-- The flow has appended `m` bytes and still has room, or is at the capacity exactly. -/
def Appends (m cap : Nat) (J : State → Prop) (s : State) (f : Flow) : Prop :=
  ∃ u, f = .ok u ∧ J u ∧ u.len = s.len + m ∧ u.len ≤ cap

theorem emit_fills (v : Byte) {s : State} (h : s.len ≤ s.params.outCap) :
    FillsUp s.params.outCap (emit v s) ∨ emit v s = .ok (push v s) ∧ s.len + 1 ≤ s.params.outCap := by
  obtain hlt | heq := Nat.lt_or_eq_of_le h
  · exact .inr ⟨emit_ok hlt, hlt⟩
  · exact .inl ⟨s, by rw [emit_full heq.ge, heq], heq⟩

theorem FillsUp.bind {cap : Nat} {f : Flow} (h : FillsUp cap f) (g : State → Flow) : FillsUp cap (f.bind g) := by
  obtain ⟨u, rfl, hu⟩ := h
  exact ⟨u, rfl, hu⟩

/-- A loop whose iterations append `m` bytes each, while they fit, fills OUT when all of them together do not. -/
theorem loopK_fills {body : State → Flow} {m cap : Nat} {J : State → Prop}
    (hbody : ∀ s, J s → s.len ≤ cap → FillsUp cap (body (tickK s)) ∨ Appends m cap J s (body (tickK s)))
    (n : Nat) (s : State) (hJ : J s) (hlen : s.len ≤ cap) (hover : cap < s.len + n * m) : FillsUp cap (loopK body n s) := by
  induction n generalizing s with
  | zero => omega
  | succ n ih =>
    rw [loopK]
    obtain hfill | ⟨u, hu, hJu, hulen, hucap⟩ := hbody s hJ hlen
    · exact hfill.bind _
    · rw [hu, Flow.bind_ok]
      rw [Nat.succ_mul] at hover
      exact ih u hJu hucap (by omega)

theorem literalLoop_fills (n : Nat) (data : List Byte) (s : State) (hn : data.length ≤ n) (hlen : s.len ≤ s.params.outCap)
    (hover : s.params.outCap < s.len + data.length) : FillsUp s.params.outCap (literalLoop n data s) := by
  induction n generalizing data s with
  | zero => omega
  | succ n ih =>
    cases data with
    | nil => simp at hover; omega
    | cons b data =>
      simp only [List.length_cons] at hn hover
      rw [literalLoop]
      obtain hfill | ⟨hok, hroom⟩ := emit_fills b (s := consume (tickK s)) hlen
      · exact hfill.bind _
      · rw [hok, Flow.bind_ok]
        exact ih data (push b (consume (tickK s))) (by omega) hroom
          (by simp only [push_len, push_params, consume_len, consume_params, tickK_len, tickK_params]; omega)

/-- The capacity is the one the machine has. -/
def HasCap (cap : Nat) (s : State) : Prop := s.params.outCap = cap

theorem emitLoop_fills {cap : Nat} (n : Nat) (s : State) (hcap : s.params.outCap = cap) (hlen : s.len ≤ cap)
    (hover : cap < s.len + n) : FillsUp cap (loopK (fun t => emit t.work.b1 t) n s) := by
  refine loopK_fills (m := 1) (J := HasCap cap) (fun t ht hl => ?_) n s hcap hlen (by omega)
  subst ht
  exact (emit_fills _ (s := tickK t) hl).imp_right fun ⟨hok, hroom⟩ => ⟨_, hok, rfl, rfl, hroom⟩

theorem pairLoop_fills {cap : Nat} (n : Nat) (s : State) (hcap : s.params.outCap = cap) (hlen : s.len ≤ cap)
    (hover : cap < s.len + n * 2) : FillsUp cap (loopK (fun t => (emit t.work.b1 t).bind (fun u => emit u.work.b2 u)) n s) := by
  refine loopK_fills (m := 2) (J := HasCap cap) (fun t ht hl => ?_) n s hcap hlen hover
  subst ht
  obtain hfill | ⟨hok, hroom⟩ := emit_fills (tickK t).work.b1 (s := tickK t) hl
  · exact .inl (hfill.bind _)
  · rw [hok, Flow.bind_ok]
    exact (emit_fills _ (s := push _ (tickK t)) hroom).imp_right fun ⟨hok, hroom⟩ => ⟨_, hok, rfl, rfl, hroom⟩

theorem countLoop_fills {cap : Nat} (n : Nat) (s : State) (hcap : s.params.outCap = cap) (hlen : s.len ≤ cap)
    (hover : cap < s.len + n) : FillsUp cap (loopK (fun t => (emit t.work.b1 t).bind (fun u => .ok (bumpB1 u))) n s) := by
  refine loopK_fills (m := 1) (J := HasCap cap) (fun t ht hl => ?_) n s hcap hlen (by omega)
  subst ht
  obtain hfill | ⟨hok, hroom⟩ := emit_fills (tickK t).work.b1 (s := tickK t) hl
  · exact .inl (hfill.bind _)
  · exact .inr ⟨bumpB1 (push _ (tickK t)), by rw [hok, Flow.bind_ok], rfl, rfl, hroom⟩

/-- The capacity, and a read index of a copy that moves by `move` that stays inside OUT until OUT is full. -/
def ReadsAhead (cap : Nat) (move : Int) (s : State) : Prop :=
  s.params.outCap = cap ∧ s.work.idx < s.len ∧ 0 ≤ s.work.idx ∧ 0 ≤ s.work.idx + ((cap : Int) - s.len) * move

theorem copyLoop_fills {map : State → Byte → Byte} {cap : Nat} {move : Int} (hmove : move = 1 ∨ move = -1) (n : Nat) (s : State)
    (hJ : ReadsAhead cap move s) (hlen : s.len ≤ cap) (hover : cap < s.len + n) :
    FillsUp cap (loopK (copyBody map move) n s) := by
  refine loopK_fills (m := 1) (J := ReadsAhead cap move) (fun t ht hl => ?_) n s hJ hlen (by omega)
  obtain ⟨rfl, hin, h0, hahead⟩ := ht
  rw [copyBody, outRead_ok (by exact h0) (by exact hin)]
  obtain hfill | ⟨hok, hroom⟩ := emit_fills (map (tickK t) ((tickK t).out.read (tickK t).work.idx.toNat)) (s := tickK t) hl
  · exact .inl (hfill.bind _)
  · refine .inr ⟨moveIdx move (push _ (tickK t)), by rw [hok, Flow.bind_ok], ⟨rfl, ?_⟩, rfl, hroom⟩
    simp only [moveIdx_work, push_work, tickK_work, moveIdx_len, push_len, tickK_len, tickK_params] at hroom ⊢
    push_cast
    obtain rfl | rfl := hmove
    · omega
    · omega

/-- A behaviour whose reads stay inside OUT and whose bytes do not all fit fills OUT. -/
def Behaviour.readsAhead (s : State) : Behaviour → Prop
  | .copyForward start | .copyTable start => start.toNat < s.len
  | .copyBackward start => start.toNat < s.len ∧ s.params.outCap - s.len ≤ start.toNat
  | .literal _ | .repeatByte _ | .repeatPair _ _ | .countUp _ => True

theorem run_fills {b : Behaviour} {n : Nat} (hb : b.complete n) {s : State} (hreads : b.readsAhead s)
    (hlen : s.len ≤ s.params.outCap) (hover : s.params.outCap < s.len + b.appended n) : FillsUp s.params.outCap (b.run n s) := by
  cases b with
  | literal data => exact literalLoop_fills n data (startK s) hb.le hlen (by rw [hb]; exact hover)
  | repeatByte b => exact emitLoop_fills n (startK (takeB1 b s)) rfl hlen hover
  | repeatPair b1 b2 =>
    exact pairLoop_fills n (startK (takeB2 b2 (takeB1 b1 s))) (by simp) (by simpa using hlen)
      (by simpa [Behaviour.appended] using hover)
  | countUp seed => exact countLoop_fills n (startK (takeB1 seed s)) rfl hlen hover
  | copyForward start =>
    have hstart : start.toNat < s.len := hreads
    rw [Behaviour.run, copyForward, iterate_readStart]
    refine copyLoop_fills (.inl rfl) n (copyBegin start s) ⟨rfl, ?_⟩ hlen hover
    simp only [copyBegin_idx, copyBegin_len]
    omega
  | copyTable start =>
    have hstart : start.toNat < s.len := hreads
    rw [Behaviour.run, copyTable, iterate_readStart]
    refine copyLoop_fills (.inl rfl) n (copyBegin start s) ⟨rfl, ?_⟩ hlen hover
    simp only [copyBegin_idx, copyBegin_len]
    omega
  | copyBackward start =>
    obtain ⟨hstart, hfill⟩ : start.toNat < s.len ∧ s.params.outCap - s.len ≤ start.toNat := hreads
    rw [Behaviour.run, copyBackward, iterate_readStart]
    refine copyLoop_fills (.inr rfl) n (copyBegin start s) ⟨rfl, ?_⟩ hlen hover
    simp only [copyBegin_idx, copyBegin_len]
    omega

/-- The reads of an instruction stay inside OUT when those of its behaviour do. -/
theorem readsAhead_of_readsStayInside {i : Instr} {b : Behaviour} (h : behaviour i = some b) {s : State}
    (hreads : ReadsStayInside s i) : b.readsAhead s := by
  cases i <;> cases h <;> exact hreads

/-- An instruction that fills OUT raises OutputOverflow(OUT_CAP) there. -/
theorem exec_of_fillsUp {i : Instr} {b : Behaviour} (h : behaviour i = some b) {s : State}
    (hfill : FillsUp s.params.outCap (b.run i.count (fetchHead i s))) :
    ∃ t, exec i s = .next t ∧ InError t .outputOverflow s.params.outCap ∧ OnlyErrorFields s t ∧ t.len = s.params.outCap := by
  obtain ⟨u, hu, hlen⟩ := hfill
  have hwithin := run_within b i.count (fetchHead i s)
  rw [hu] at hwithin
  obtain ⟨t, hnext, herror, hfields, htlen, -⟩ := raised_spec hu ((fetchHead_only i s).trans hwithin.1.only)
  exact ⟨t, (exec_behaviour h s).trans hnext, herror, hfields, htlen.trans hlen⟩

/-- Settles O20. -/
theorem crossingTheCapacityRaisesOutputOverflow : Obligations.CrossingTheCapacityRaisesOutputOverflow := by
  intro s i hspace hwf hreads hlen hover
  obtain rfl | ⟨b, hb⟩ := behaviour_of_stream hspace
  · exact absurd hover (Nat.not_lt.2 hlen)
  · rw [produced_eq hb] at hover
    exact exec_of_fillsUp hb (run_fills (complete_of_wellFormed hb hwf) (readsAhead_of_readsStayInside hb hreads) hlen hover)

end Sys2Proof.Machine
end

section
/-! PROOFS. END (42 R134, 44 R185 to R189), and what holds of every stream instruction, END included. -/

namespace Sys2Proof.Machine

/-! ### END -/

/-- Settles O22. -/
theorem endOfDecompIsDone : Obligations.EndOfDecompIsDone := fun _ he => exec_endStream_decomp he

/-- A slot written over a window, from address `o` to `e` (44 R188). -/
theorem read_slot {m : Memory} (h : m.wf) (tile : List Byte) (o e : Nat) (he : e = o + tile.length) (a : Nat) :
    (m.writeList o tile).read a = if h : o ≤ a ∧ a < e then tile[a - o] else m.read a := by
  rw [Memory.read_writeList h]
  by_cases ha : o ≤ a ∧ a < e
  · rw [dif_pos ha, dif_pos (by omega)]
  · rw [dif_neg ha, dif_neg (by omega)]

/-- The three fixed slots lie over the rest of the window (44 R188). -/
theorem read_fixedSlots {m : Memory} (h : m.wf) (p : Params) (a : Nat) :
    (fixedSlots p m).read a =
      if h : 0xFD0 ≤ a ∧ a < 0xFE0 then p.fixed7D[a - 0xFD0]
      else if h : 0xFE0 ≤ a ∧ a < 0xFF0 then p.fixed7E[a - 0xFE0]
      else if 0xFF0 ≤ a ∧ a < 0x1000 then 0#8
      else m.read a := by
  have hwfD := Memory.writeList_wf (slotOffset 0xFD#8) p.fixed7D.toList h
  have hwfE := Memory.writeList_wf (slotOffset 0xFE#8) p.fixed7E.toList hwfD
  have hD : slotOffset 0xFD#8 = 0xFD0 := rfl
  have hE : slotOffset 0xFE#8 = 0xFE0 := rfl
  have hF : slotOffset 0xFF#8 = 0xFF0 := rfl
  rw [hD] at hwfD hwfE
  rw [hE] at hwfE
  rw [fixedSlots, hD, hE, hF, read_slot hwfE Config.fixed7F 0xFF0 0x1000 rfl,
    read_slot hwfD p.fixed7E.toList 0xFE0 0xFF0 (by rw [Vector.length_toList]),
    read_slot h p.fixed7D.toList 0xFD0 0xFE0 (by rw [Vector.length_toList])]
  have hblank : ∀ (i : Nat) (hi : i < Config.fixed7F.length), Config.fixed7F[i] = 0#8 := fun _ _ => List.getElem_replicate _
  by_cases h1 : 0xFD0 ≤ a ∧ a < 0xFE0
  · have h2 : ¬(0xFE0 ≤ a ∧ a < 0xFF0) := by omega
    have h3 : ¬(0xFF0 ≤ a ∧ a < 0x1000) := by omega
    rw [dif_neg h3, dif_neg h2, dif_pos h1, dif_pos h1, Vector.getElem_toList]
  rw [dif_neg h1, dif_neg h1]
  by_cases h2 : 0xFE0 ≤ a ∧ a < 0xFF0
  · have h3 : ¬(0xFF0 ≤ a ∧ a < 0x1000) := by omega
    rw [dif_neg h3, dif_pos h2, dif_pos h2, Vector.getElem_toList]
  rw [dif_neg h2, dif_neg h2]
  by_cases h3 : 0xFF0 ≤ a ∧ a < 0x1000
  · rw [dif_pos h3, if_pos h3, hblank]
  · rw [dif_neg h3, if_neg h3]

/-- The window of a COMPOSE whose data ends at LEN. -/
def windowOf (s : State) : Memory := fixedSlots s.params (s.out.padded s.len (padOf s))

theorem read_windowOf {s : State} (h : s.out.wf) (a : Nat) : (windowOf s).read a =
    if h : 0xFD0 ≤ a ∧ a < 0xFE0 then s.params.fixed7D[a - 0xFD0]
    else if h : 0xFE0 ≤ a ∧ a < 0xFF0 then s.params.fixed7E[a - 0xFE0]
    else if 0xFF0 ≤ a ∧ a < 0x1000 then 0#8
    else if a < padOf s then 0#8
    else if a < padOf s + s.len then s.out.read (a - padOf s)
    else 0#8 := by
  have hpad : (s.out.padded s.len (padOf s)).read a =
      if a < padOf s then 0#8 else if a < padOf s + s.len then s.out.read (a - padOf s) else 0#8 := by
    rw [Memory.read_padded]
    by_cases hlow : a < padOf s
    · rw [if_neg (by omega), if_pos hlow]
    · by_cases hhigh : a < padOf s + s.len
      · rw [if_pos (by omega), if_neg hlow, if_pos hhigh]
      · rw [if_neg (by omega), if_neg hlow, if_neg hhigh]
  rw [windowOf, read_fixedSlots (Memory.padded_wf h _ _), hpad]

/-- A COMPOSE ended by END with the window `w` (44 R189). -/
def composed (w : Memory) (s : State) : State :=
  done { headE s with win := w, valid := { s.valid with out := true, win := true } }

@[simp] theorem composed_win (w : Memory) (s : State) : (composed w s).win = w := rfl

theorem composed_eq (w : Memory) (s : State) : composed w s = { s with
    cur := s.cur + 1, work := { s.work with op := 0xFF#8 }, st := .done, err := .none, engine := .idle
    win := w, valid := { s.valid with out := true, win := true } } := rfl

theorem padOf_headE (s : State) : padOf (headE s) = padOf s := rfl

theorem exec_endStream_fits {s : State} (he : s.engine = .compose) (h : padOf s + s.len ≤ 0x1800) :
    exec .endStream s = .next (composed (windowOf s) s) := by
  rw [exec_endStream_compose he, finishCompose_ok (by exact h), Flow.outcome_ok, padOf_headE, headE_params, headE_out,
    headE_len, ← windowOf]
  generalize windowOf s = w
  rfl

theorem exec_endStream_over {s : State} (he : s.engine = .compose) (h : 0x1800 < padOf s + s.len) :
    exec .endStream s = .next (raise .windowOverflow ((padOf s + s.len : Nat) : Int) (headE s)) := by
  rw [exec_endStream_compose he, finishCompose_over (by exact h)]
  rfl

/-- Settles O23. -/
theorem endOfComposeFillsTheWindow : Obligations.EndOfComposeFillsTheWindow := by
  intro s he hwf pad hfit
  have hpad : pad = padOf s := rfl
  clear_value pad
  subst hpad
  refine ⟨_, exec_endStream_fits he hfit, fun a _ => ?_, ?_⟩
  · rw [composed_win, read_windowOf hwf]
  · rw [composed_win, composed_eq]

/-- Settles O24. -/
theorem endOfComposeRaisesWindowOverflow : Obligations.EndOfComposeRaisesWindowOverflow := by
  intro s he pad
  refine ⟨fun hover => ?_, fun hfit => ⟨_, exec_endStream_fits (s := s) he (Nat.le_of_eq hfit), rfl, rfl, rfl⟩⟩
  refine ⟨_, exec_endStream_over he hover, ⟨rfl, rfl, rfl, rfl, withoutResults_out _ _⟩,
    (headE_reached s).only.raise _ _, ?_, rfl⟩
  rw [raise_valid, headE_engine, he, withoutResults_win_compose]

/-! ### What a stream instruction leads to -/

/-- What a stream instruction can lead to: the decode goes on with CUR further on; END has ended a DECOMP, or a COMPOSE
whose data fits; or an access has raised. -/
inductive Ran (s : State) : State → Prop
  | on {t : State} (h : Reached s t) (hcur : s.cur < t.cur) : Ran s t
  | doneDecomp (he : s.engine = .decomp) : Ran s (finishDecomp (headE s))
  | doneCompose (he : s.engine = .compose) (hfit : padOf s + s.len ≤ 0x1800) : Ran s (composed (windowOf s) s)
  | raised {e : ErrKind} {info : Int} {u : State} (h : Reached s u) (hkind : e ≠ .none ∧ e ≠ .unknownLevelIndex) :
      Ran s (raise e info u)

theorem endStream_ran (s : State) : ∃ t, exec .endStream s = .next t ∧ Ran s t := by
  cases he : s.engine with
  | idle => exact ⟨_, exec_endStream_idle he, .on (headE_reached s) (Nat.lt_succ_self _)⟩
  | decomp => exact ⟨_, exec_endStream_decomp he, .doneDecomp he⟩
  | compose =>
    obtain hover | hfit := Nat.lt_or_ge 0x1800 (padOf s + s.len)
    · exact ⟨_, exec_endStream_over he hover, .raised (headE_reached s) ⟨nofun, nofun⟩⟩
    · exact ⟨_, exec_endStream_fits he hfit, .doneCompose he hfit⟩

theorem headSize_pos (i : Instr) : 0 < headSize i := by
  cases i <;> exact Nat.zero_lt_succ _

/-- Every stream instruction, well formed or not, leads to one of the four. -/
theorem exec_stream_ran {i : Instr} (h : i.space = .stream) (s : State) : ∃ t, exec i s = .next t ∧ Ran s t := by
  obtain rfl | ⟨b, hb⟩ := behaviour_of_stream h
  · exact endStream_ran s
  · rw [exec_behaviour hb]
    have hwithin := run_within b i.count (fetchHead i s)
    revert hwithin
    cases b.run i.count (fetchHead i s) with
    | ok t =>
      intro (hreached : Reached _ t)
      have hcur : s.cur + headSize i ≤ t.cur := hreached.cur
      exact ⟨t, rfl, .on ((fetchHead_reached i s).trans hreached) (by have := headSize_pos i; omega)⟩
    | trap e info u =>
      rintro ⟨hreached, hkind⟩
      refine ⟨_, rfl, .raised ((fetchHead_reached i s).trans hreached) ?_⟩
      obtain rfl | rfl | rfl := hkind
      all_goals exact ⟨nofun, nofun⟩

theorem ran_of_exec {i : Instr} (h : i.space = .stream) {s t : State} (ht : exec i s = .next t) : Ran s t := by
  obtain ⟨u, hu, hran⟩ := exec_stream_ran h s
  rw [hu] at ht
  cases ht
  exact hran

/-- Settles O44: what raises is excluded, and END appends nothing. -/
theorem lengthsAndCountsAccountForEveryByte : Obligations.LengthsAndCountsAccountForEveryByte := by
  intro s t i hspace hwf ht hok
  obtain rfl | ⟨b, hb⟩ := behaviour_of_stream hspace
  · cases he : s.engine with
    | idle => rw [exec_endStream_idle he] at ht; cases ht; exact ⟨rfl, rfl⟩
    | decomp => rw [exec_endStream_decomp he] at ht; cases ht; exact ⟨rfl, rfl⟩
    | compose =>
      obtain hover | hfit := Nat.lt_or_ge 0x1800 (padOf s + s.len)
      · rw [exec_endStream_over he hover] at ht
        cases ht
        exact absurd ⟨rfl, rfl⟩ hok
      · rw [exec_endStream_fits he hfit] at ht
        cases ht
        exact ⟨rfl, rfl⟩
  · rw [exec_behaviour hb] at ht
    cases hrun : b.run i.count (fetchHead i s) with
    | ok u =>
      rw [hrun] at ht
      cases ht
      exact behaviour_accounts hb (complete_of_wellFormed hb hwf) hrun
    | trap e info u =>
      rw [hrun] at ht
      cases ht
      exact absurd ⟨rfl, rfl⟩ hok

theorem windowOf_moved (d : Nat) (s : State) : windowOf (moved d s) = windowOf s := by
  rw [windowOf, moved_params, moved_out, moved_len, padOf_moved, ← windowOf]

/-- Settles O45. -/
theorem meaningIsPositionIndependent : Obligations.MeaningIsPositionIndependent := by
  intro s i d hspace hwf
  obtain rfl | ⟨b, hb⟩ := behaviour_of_stream hspace
  · have hhead : headE (moved d s) = moved d (headE s) := by rw [headE, consume_moved]; rfl
    show ∃ t, exec .endStream s = .next t ∧ exec .endStream (moved d s) = .next (moved d t)
    cases he : s.engine with
    | idle => exact ⟨_, exec_endStream_idle he, (exec_endStream_idle (s := moved d s) he).trans (by rw [hhead])⟩
    | decomp => exact ⟨_, exec_endStream_decomp he, (exec_endStream_decomp (s := moved d s) he).trans (by rw [hhead]; rfl)⟩
    | compose =>
      obtain hover | hfit := Nat.lt_or_ge 0x1800 (padOf s + s.len)
      · exact ⟨_, exec_endStream_over he hover, (exec_endStream_over (s := moved d s) he hover).trans (by rw [hhead]; rfl)⟩
      · exact ⟨_, exec_endStream_fits he hfit, (exec_endStream_fits (s := moved d s) he hfit).trans (by
          rw [windowOf_moved]
          generalize windowOf s = w
          rw [composed, hhead]
          rfl)⟩
  · obtain ⟨t, ht, hmoved⟩ := moved_outcome d (b.run i.count (fetchHead i s))
    refine ⟨t, (exec_behaviour hb s).trans ht, ?_⟩
    rw [← run_moved (complete_of_wellFormed hb hwf), ← fetchHead_moved] at hmoved
    exact (exec_behaviour hb (moved d s)).trans hmoved

end Sys2Proof.Machine
end

section
/-! PROOFS. The step: what a turn of the decode loop can do (42 R132, R133), that every decode ends, the frames of a step,
and the invariant. -/

namespace Sys2Proof.Machine

/-! ### One turn of the decode loop -/

/-- What a turn of the decode loop does: an instruction read whole; a literal copy whose data the ROM cuts off; or bytes
that end before the instruction's operands do. -/
inductive Turn (s : State) : Prop
  | whole (i : Instr) (rest : List Byte) (hdecode : decode .stream (streamWindow s) = .ok (i, rest))
      (hwf : i.wellFormed = true) (hspace : i.space = .stream) (hbytes : encode i ++ rest = streamWindow s)
      (hstep : streamStep s = exec i s)
  | cut (i : Instr) (data : List Byte) (hdecode : decode .stream (streamWindow s) = .error (.cutLiteral i))
      (hdata : literalData i = some data) (hcount : data.length < i.count) (hspace : i.space = .stream)
      (hbytes : encode i = streamWindow s) (hshort : (streamWindow s).length < maxLength) (hstep : streamStep s = exec i s)
  | short (e : DecodeError) (hdecode : decode .stream (streamWindow s) = .error e) (he : ∀ i, e ≠ .cutLiteral i)
      (hshort : (streamWindow s).length < maxLength) (hstep : streamStep s = truncated s)

theorem streamStep_turn (s : State) : Turn s := by
  have hfrom : DecodedFrom (streamWindow s) (decode .stream (streamWindow s)) := decodeStream_decodedFrom _
  cases hdecode : decode .stream (streamWindow s) with
  | ok d =>
    obtain ⟨i, rest⟩ := d
    rw [hdecode] at hfrom
    obtain ⟨hwf, hspace, hbytes⟩ := hfrom
    exact .whole i rest hdecode hwf hspace hbytes (by rw [streamStep, hdecode])
  | error e =>
    rw [hdecode] at hfrom
    cases e with
    | cutLiteral i =>
      obtain ⟨hshort, hspace, hbytes, data, hdata, hcount⟩ := hfrom
      exact .cut i data hdecode hdata hcount hspace hbytes hshort (by rw [streamStep, hdecode])
    | reservedCommand code => exact hfrom.elim
    | noOpcode => exact .short _ hdecode nofun hfrom (by rw [streamStep, hdecode])
    | noCount => exact .short _ hdecode nofun hfrom (by rw [streamStep, hdecode])
    | noOperand => exact .short _ hdecode nofun hfrom (by rw [streamStep, hdecode])

/-- Settles O6. -/
theorem stepRunsTheDecodedStreamInstruction : Obligations.StepRunsTheDecodedStreamInstruction := by
  intro s i rest he hr hdecode
  rw [step_stream he hr, streamStep, streamWindow, hdecode]

/-- Fewer bytes than the longest instruction are all that is left of the ROM. -/
theorem window_ends {s : State} (hcur : s.cur ≤ s.romSize) (hshort : (streamWindow s).length < maxLength) :
    s.cur + (streamWindow s).length = s.romSize := by
  have hlength : (streamWindow s).length = min maxLength (s.romSize - s.cur) := romBytes_length s s.cur maxLength hcur
  omega

/-- The state in which a `Fetch` found no byte. -/
def fetchedAll (s : State) : State := { s with cur := s.cur + (streamWindow s).length }

theorem fetchedAll_reached (s : State) : Reached s (fetchedAll s) := ⟨rfl, Nat.le_add_right _ _, le_refl _, id, id, id⟩

theorem truncated_eq (s : State) :
    truncated s = .next (raise .truncatedStream ((s.cur + (streamWindow s).length : Nat) : Int) (fetchedAll s)) := rfl

/-- Inside a decode every step has a next state, and it is one of the four of `Ran`. -/
theorem streamStep_ran (s : State) : ∃ t, streamStep s = .next t ∧ Ran s t := by
  obtain ⟨i, -, -, -, hspace, -, hstep⟩ | ⟨i, -, -, -, -, hspace, -, -, hstep⟩ | ⟨-, -, -, -, hstep⟩ := streamStep_turn s
  · rw [hstep]
    exact exec_stream_ran hspace s
  · rw [hstep]
    exact exec_stream_ran hspace s
  · exact ⟨_, hstep.trans (truncated_eq s), .raised (fetchedAll_reached s) ⟨nofun, nofun⟩⟩

theorem ran_of_step {s t : State} (he : s.engine ≠ .idle) (hr : resetNext s = false) (h : step s = .next t) : Ran s t := by
  obtain ⟨u, hu, hran⟩ := streamStep_ran s
  rw [step_stream he hr, hu] at h
  cases h
  exact hran

/-! ### Bytes that run out (42 R133, 43 R151) -/

/-- The bytes of a literal so far. -/
theorem encode_literal_length {i : Instr} {data : List Byte} (h : literalData i = some data) :
    (encode i).length = headSize i + data.length := by
  cases i <;> cases h <;> simp [encode, Instr.tail, headSize] <;> omega

/-- A literal whose data runs out appends what is there and finds no byte after it. -/
theorem literalLoop_cut (n : Nat) (data : List Byte) (s : State) (hn : data.length < n)
    (hfit : s.len + data.length ≤ s.params.outCap) :
    ∃ u, literalLoop n data s = .trap .truncatedStream ((s.cur + data.length : Nat) : Int) u := by
  induction n generalizing data s with
  | zero => omega
  | succ n ih =>
    cases data with
    | nil => exact ⟨s, rfl⟩
    | cons b data =>
      simp only [List.length_cons] at hn hfit
      obtain ⟨u, hu⟩ := ih data (push b (consume (tickK s))) (by omega) (by simp; omega)
      refine ⟨u, ?_⟩
      rw [literalLoop, emit_ok (by simp; omega), Flow.bind_ok, hu]
      simp only [push_cur, consume_cur, tickK_cur, List.length_cons, Nat.add_assoc, Nat.add_comm 1]

/-- A cut literal raises, at the end of its data or at the capacity. -/
theorem exec_cutLiteral {i : Instr} {data : List Byte} (h : literalData i = some data) (hcount : data.length < i.count)
    {s : State} (hlen : s.len ≤ s.params.outCap) :
    ∃ t, exec i s = .next t ∧ OnlyErrorFields s t ∧
      (s.len + data.length ≤ s.params.outCap → InError t .truncatedStream ((s.cur + (encode i).length : Nat) : Int)) ∧
      (s.params.outCap < s.len + data.length → InError t .outputOverflow s.params.outCap) := by
  have hb := literalData_eq h
  have hwithin := run_within (.literal data) i.count (fetchHead i s)
  obtain hfit | hover := Nat.lt_or_ge s.params.outCap (s.len + data.length) |>.symm
  · obtain ⟨u, hu⟩ := literalLoop_cut i.count data (startK (fetchHead i s)) hcount hfit
    have hrun : (Behaviour.literal data).run i.count (fetchHead i s) = .trap .truncatedStream _ u := hu
    rw [hrun] at hwithin
    obtain ⟨t, ht, herror, hfields, -⟩ := raised_spec hrun ((fetchHead_only i s).trans hwithin.1.only)
    refine ⟨t, (exec_behaviour hb s).trans ht, hfields, fun _ => ?_, fun hover => absurd hfit (by omega)⟩
    rw [encode_literal_length h, ← Nat.add_assoc]
    exact herror
  · have hfill : FillsUp s.params.outCap ((Behaviour.literal data).run i.count (fetchHead i s)) :=
      literalLoop_fills i.count data (startK (fetchHead i s)) hcount.le hlen hover
    obtain ⟨t, ht, herror, hfields, -⟩ := exec_of_fillsUp hb hfill
    exact ⟨t, ht, hfields, fun hfit => absurd hfit (by omega), fun _ => herror⟩

/-- Settles O21. -/
theorem missingBytesRaiseTruncatedStream : Obligations.MissingBytesRaiseTruncatedStream := by
  intro s e he hr hcur hlen hdecode
  rw [step_stream he hr]
  change decode .stream (streamWindow s) = _ at hdecode
  obtain ⟨_, _, hok, -⟩ | ⟨i, data, herr, hdata, hcount, -, hbytes, hshort, hstep⟩ | ⟨e', herr, hne, hshort, hstep⟩ :=
    streamStep_turn s
  · cases hok.symm.trans hdecode
  · cases herr.symm.trans hdecode
    obtain ⟨t, ht, hfields, hcut, hover⟩ := exec_cutLiteral hdata hcount hlen
    rw [hbytes, window_ends hcur hshort] at hcut
    exact ⟨t, hstep.trans ht, hfields, data, hdata, hbytes, hcut, hover⟩
  · cases herr.symm.trans hdecode
    have hraise := truncated_eq s
    rw [window_ends hcur hshort] at hraise
    refine ⟨_, hstep.trans hraise, (fetchedAll_reached s).only.raise _ _, ?_⟩
    have herror : InError (raise .truncatedStream s.romSize (fetchedAll s)) .truncatedStream s.romSize :=
      ⟨rfl, rfl, rfl, rfl, withoutResults_out _ _⟩
    cases e with
    | cutLiteral i => exact absurd rfl (hne i)
    | _ => exact ⟨herror, rfl, rfl⟩

/-! ### Every decode ends (42 R138, 70 R284) -/

theorem two_le_length {i : Instr} {b : Behaviour} (h : behaviour i = some b) : 2 ≤ i.length := by
  cases i <;> cases h <;> simp only [Instr.length] <;> omega

theorem literalLoop_ok_length {n : Nat} {data : List Byte} {s t : State} (h : literalLoop n data s = .ok t) :
    n ≤ data.length := by
  induction n generalizing data s with
  | zero => exact Nat.zero_le _
  | succ n ih =>
    cases data with
    | nil => cases h
    | cons b data =>
      obtain ⟨u, -, ht⟩ := Flow.bind_eq_ok h
      exact Nat.succ_le_succ (ih ht)

/-- After END no operation runs. -/
theorem endStream_engine {s t : State} (h : exec .endStream s = .next t) : t.engine = .idle := by
  cases he : s.engine with
  | idle => rw [exec_endStream_idle he] at h; cases h; exact he
  | decomp => rw [exec_endStream_decomp he] at h; cases h; rfl
  | compose =>
    obtain hover | hfit := Nat.lt_or_ge 0x1800 (padOf s + s.len)
    · rw [exec_endStream_over he hover] at h; cases h; rfl
    · rw [exec_endStream_fits he hfit] at h; cases h; rfl

/-- The state after the raise has no operation running, so a turn after which one runs is an instruction but END, read
whole, that went through. -/
theorem streamStep_goesOn {s t : State} (h : streamStep s = .next t) (ht : t.engine ≠ .idle) :
    ∃ i b rest, encode i ++ rest = streamWindow s ∧ i.wellFormed = true ∧ behaviour i = some b ∧
      b.run i.count (fetchHead i s) = .ok t := by
  have goesOn : ∀ {i b}, behaviour i = some b → exec i s = .next t → b.run i.count (fetchHead i s) = .ok t := by
    intro i b hb hexec
    rw [exec_behaviour hb] at hexec
    cases hrun : b.run i.count (fetchHead i s) with
    | ok u => rw [hrun] at hexec; cases hexec; rfl
    | trap e info u => rw [hrun] at hexec; cases hexec; exact absurd rfl ht
  obtain ⟨i, rest, -, hwf, hspace, hbytes, hstep⟩ | ⟨i, data, -, hdata, hcount, -, -, -, hstep⟩ | ⟨-, -, -, -, hstep⟩ :=
    streamStep_turn s
  · rw [hstep] at h
    obtain rfl | ⟨b, hb⟩ := behaviour_of_stream hspace
    · exact absurd (endStream_engine h) ht
    · exact ⟨i, b, rest, hbytes, hwf, hb, goesOn hb h⟩
  · rw [hstep] at h
    have hle := literalLoop_ok_length (goesOn (literalData_eq hdata) h)
    omega
  · rw [hstep, truncated_eq] at h
    cases h
    exact absurd rfl ht

/-- A turn after which the decode goes on has moved CUR by two bytes at least, inside the ROM. -/
theorem step_goesOn {s t : State} (he : s.engine ≠ .idle) (hr : resetNext s = false) (hcur : s.cur ≤ s.romSize)
    (h : step s = .next t) (ht : t.engine ≠ .idle) : s.cur + 2 ≤ t.cur ∧ t.cur ≤ s.romSize := by
  rw [step_stream he hr] at h
  obtain ⟨i, b, rest, hbytes, hwf, hb, hrun⟩ := streamStep_goesOn h ht
  obtain ⟨hmoved, -⟩ := behaviour_accounts hb (complete_of_wellFormed hb hwf) hrun
  have htwo := two_le_length hb
  have hlength : (streamWindow s).length = min maxLength (s.romSize - s.cur) := romBytes_length s s.cur maxLength hcur
  have hread : i.length + rest.length = (streamWindow s).length := by
    rw [← hbytes, List.length_append, encode_length i hwf]
  omega

/-- A decode that does not go on has ended (70 R284). -/
theorem ran_ended {s t : State} (he : s.engine ≠ .idle) (h : Ran s t) (ht : t.engine = .idle) : DecodeEnded t := by
  cases h with
  | on h _ => exact absurd (h.only.engine.symm.trans ht) he
  | doneDecomp _ => exact ⟨rfl, .inl rfl⟩
  | doneCompose _ _ => exact ⟨rfl, .inl rfl⟩
  | raised _ _ => exact ⟨rfl, .inr rfl⟩

/-- A decode that goes on is the same decode, over the same ROM, with the same moves to come. -/
theorem ran_goesOn {s t : State} (h : Ran s t) (ht : t.engine ≠ .idle) : Reached s t := by
  cases h with
  | on h _ => exact h
  | doneDecomp _ => exact absurd rfl ht
  | doneCompose _ _ => exact absurd rfl ht
  | raised _ _ => exact absurd rfl ht

theorem resetNext_eq {s t : State} (h : t.host = s.host) : resetNext t = resetNext s := by
  rw [resetNext, resetNext, h]

theorem run_succ {s t : State} (k : Nat) (h : step s = .next t) : core.run (k + 1) s = core.run k t := by
  have hstep : core.step s = .next t := h
  simp only [Host.Core.run, hstep]

/-- Settles O46, by induction on the bytes left: a step that does not end the decode takes two of them. -/
theorem everyDecodeEnds : Obligations.EveryDecodeEnds := by
  intro s he hr hcur
  induction hleft : s.romSize - s.cur using Nat.strong_induction_on generalizing s with
  | _ left ih =>
    obtain ⟨t, ht, hran⟩ := streamStep_ran s
    rw [← step_stream he hr] at ht
    by_cases hidle : t.engine = .idle
    · exact ⟨1, t, by omega, run_succ 0 ht, ran_ended he hran hidle⟩
    · obtain ⟨htwo, hin⟩ := step_goesOn he hr hcur ht hidle
      have honly := (ran_goesOn hran hidle).only
      rw [← honly.romSize] at hin hleft
      obtain ⟨k, u, hk, hrun, hended⟩ := ih (t.romSize - t.cur) (by omega) t hidle
        ((resetNext_eq honly.host).trans hr) hin rfl
      exact ⟨k + 1, u, by omega, (run_succ k ht).trans hrun, hended⟩

/-! ### What a step inside a decode leaves as it was -/

theorem OnlyStreamFields.win {s t : State} (h : OnlyStreamFields s t) : t.win = s.win := by
  unfold OnlyStreamFields at h
  rw [h]

theorem OnlyStreamFields.errPos {s t : State} (h : OnlyStreamFields s t) : t.errPos = s.errPos := by
  unfold OnlyStreamFields at h
  rw [h]

theorem OnlyErrorFields.win {s t : State} (h : OnlyErrorFields s t) : t.win = s.win := by
  unfold OnlyErrorFields at h
  rw [h]

/-- The fields a step inside a decode can change (20_memory R66, 60 R250). -/
theorem ran_frame {s t : State} (h : Ran s t) :
    t = { s with cur := t.cur, len := t.len, out := t.out, work := t.work, win := t.win, st := t.st, err := t.err,
                 errPos := t.errPos, engine := t.engine,
                 valid := { s.valid with out := t.valid.out, win := t.valid.win } } := by
  cases h with
  | on h _ =>
    obtain ⟨honly, -⟩ := h
    unfold OnlyStreamFields at honly
    rw [honly]
  | doneDecomp _ => rfl
  | doneCompose _ _ => rw [composed_eq]
  | @raised e info u h _ =>
    have hfields := h.only.raise e info
    have hwin : (raise e info u).win = s.win := OnlyErrorFields.win hfields
    rw [hwin]
    exact hfields

theorem frame_of_ran {s t : State} (h : Ran s t) : t.rom = s.rom ∧ t.romSize = s.romSize ∧ t.params = s.params := by
  rw [ran_frame h]
  exact ⟨rfl, rfl, rfl⟩

/-- Settles O41. -/
theorem streamsReachOnlyTheirSpaces : Obligations.StreamsReachOnlyTheirSpaces := by
  intro s t he hr hstep
  have hran := ran_of_step he hr hstep
  refine ⟨ran_frame hran, fun hnot => ?_, fun hgoes => ?_⟩
  · cases hran with
    | on h _ => exact h.only.win
    | doneDecomp _ => rfl
    | doneCompose hc _ => exact absurd ⟨hc, rfl, rfl⟩ hnot
    | raised h _ => exact h.only.win
  · have honly := (ran_goesOn hran hgoes).only
    exact ⟨honly.engine, honly.st, honly.err, honly.errPos, honly.valid⟩

/-- Settles O43. -/
theorem cursorNeverRewinds : Obligations.CursorNeverRewinds := by
  intro s t he hr hstep
  cases ran_of_step he hr hstep with
  | on h hcur => exact ⟨h.cur, h.len, .inr hcur⟩
  | doneDecomp _ => exact ⟨Nat.le_succ _, le_rfl, .inr (Nat.lt_succ_self _)⟩
  | doneCompose _ _ => exact ⟨Nat.le_succ _, le_rfl, .inr (Nat.lt_succ_self _)⟩
  | raised h _ => exact ⟨h.cur, h.len, .inl ⟨rfl, rfl⟩⟩

/-! ### What a host operation can do -/

@[simp] theorem composeBegin_st (t : State) : (composeBegin t).st = t.st := by rw [composeBegin, startAt_st]
@[simp] theorem composeBegin_engine (t : State) : (composeBegin t).engine = t.engine := by
  rw [composeBegin, startAt_engine]

@[simp] theorem composeBegin_rom (t : State) : (composeBegin t).rom = t.rom := by rw [composeBegin, startAt_rom]
@[simp] theorem composeBegin_romSize (t : State) : (composeBegin t).romSize = t.romSize := by
  rw [composeBegin, startAt_romSize]
@[simp] theorem composeBegin_params (t : State) : (composeBegin t).params = t.params := by
  rw [composeBegin, startAt_params]
@[simp] theorem composeBegin_valid (t : State) : (composeBegin t).valid = t.valid := by rw [composeBegin, startAt_valid]

/-- What a host operation can lead to: XLAT, GENTBL and TSLOT have ended DONE; a decode has started; or the start-position
check has raised. -/
inductive HostRan (s : State) : Instr → State → Prop
  | xlat : HostRan s .xlat (done { s with pos := linearOf s.offset s.bank, valid := { s.valid with pos := true } })
  | gentbl : HostRan s .gentbl (done { s with tbl := s.tbl.writeList 0 s.gen.run.1, gen := s.gen.run.2 })
  | tslot : HostRan s .tslot (done { s with slot := slotOf s.tilein, valid := { s.valid with slot := true } })
  | decomp (h : s.pos.toNat < s.romSize) : HostRan s .decomp (startAt s.pos.toNat (beginDecode .decomp s))
  | compose (h : s.pos.toNat < s.romSize) : HostRan s .compose (composeBegin (beginDecode .compose s))
  | raised {i : Instr} {e : Engine} {kind : ErrKind} {info : Int}
      (hi : i = .decomp ∧ e = .decomp ∨ i = .compose ∧ e = .compose) (hkind : kind = .emptyInput ∨ kind = .outOfRange) :
      HostRan s i (raise kind info (beginDecode e s))

theorem start_ran (s : State) {i : Instr} {e : Engine} (hi : i = .decomp ∧ e = .decomp ∨ i = .compose ∧ e = .compose)
    {g : State → State} (hexec : exec i s = ((startCheck (beginDecode e s)).bind (fun t => .ok (g t))).outcome)
    (hstart : s.pos.toNat < s.romSize → HostRan s i (g (beginDecode e s))) : ∃ t, exec i s = .next t ∧ HostRan s i t := by
  rw [hexec]
  obtain ⟨-, hflow⟩ | ⟨-, -, hflow⟩ | ⟨hin, hflow⟩ := start_cases e s (fun t => .ok (g t))
  · rw [hflow]
    exact ⟨_, rfl, .raised hi (.inl rfl)⟩
  · rw [hflow]
    exact ⟨_, rfl, .raised hi (.inr rfl)⟩
  · rw [hflow]
    exact ⟨_, rfl, hstart hin⟩

theorem hostRan_of_exec {i : Instr} (h : i.space = .host) {s t : State} (ht : exec i s = .next t) : HostRan s i t := by
  have hran : ∃ u, exec i s = .next u ∧ HostRan s i u := by
    cases i with
    | xlat => exact ⟨_, exec_xlat s, .xlat⟩
    | gentbl => exact ⟨_, exec_gentbl s, .gentbl⟩
    | tslot => exact ⟨_, exec_tslot s, .tslot⟩
    | decomp => exact start_ran s (.inl ⟨rfl, rfl⟩) (exec_decomp s) .decomp
    | compose => exact start_ran s (.inr ⟨rfl, rfl⟩) (exec_compose s) .compose
    | _ => cases h
  obtain ⟨u, hu, hran⟩ := hran
  rw [hu] at ht
  cases ht
  exact hran

/-- Settles O37. -/
theorem errorsKeepTableAndHostRegisters : Obligations.ErrorsKeepTableAndHostRegisters := by
  intro s t i hi hexec
  obtain ⟨hspace, hrunning⟩ | hstart := hi
  · have hnot : i ≠ .compose := by rintro rfl; cases hspace
    cases ran_of_exec hspace hexec with
    | on h _ =>
      rw [h.only.st, h.only.engine]
      exact ⟨fun hst hst' => absurd hst' hst, fun he hst => absurd (hrunning.resolve_left (not_not.2 he)) (not_not.2 hst)⟩
    | doneDecomp _ => exact ⟨nofun, nofun⟩
    | doneCompose _ _ => exact ⟨nofun, nofun⟩
    | @raised e info u h hkind =>
      refine ⟨fun _ _ => rfl, fun _ _ => ⟨h.only.raise e info, hkind.1, hkind.2, withoutResults_out _ _, fun hc => ?_⟩⟩
      obtain ⟨-, hc⟩ := hc.resolve_left hnot
      rw [raise_valid, h.only.engine, hc, withoutResults_win_compose]
  · have hspace : i.space = .host := by obtain rfl | rfl := hstart <;> rfl
    cases hostRan_of_exec hspace hexec with
    | xlat => simp at hstart
    | gentbl => simp at hstart
    | tslot => simp at hstart
    | decomp _ => exact ⟨fun hst hst' => absurd hst' hst, nofun⟩
    | compose _ =>
      rw [composeBegin_st, composeBegin_engine, beginDecode_st, beginDecode_engine]
      exact ⟨fun hst hst' => absurd hst' hst, nofun⟩
    | @raised _ e kind info hi hkind =>
      have hne : kind ≠ .none ∧ kind ≠ .unknownLevelIndex := by
        obtain rfl | rfl := hkind <;> exact ⟨nofun, nofun⟩
      refine ⟨fun _ _ => rfl, fun _ _ => ⟨raise_beginDecode_only kind info e s, hne.1, hne.2, withoutResults_out _ _, fun hc => ?_⟩⟩
      obtain ⟨rfl, rfl⟩ | ⟨rfl, rfl⟩ := hi
      · simp [Instr.space] at hc
      · rfl

/-- Settles O56. -/
theorem successEndsDoneWithoutError : Obligations.SuccessEndsDoneWithoutError := by
  intro s t hrun hidle hst
  have hends : t.st = .done ∧ t.err = .none := by
    obtain ⟨he, hr, hstep⟩ | ⟨i, hspace, hexec⟩ := hrun
    · cases ran_of_step he hr hstep with
      | on h _ => exact absurd (h.only.engine.symm.trans hidle) he
      | doneDecomp _ => exact ⟨rfl, rfl⟩
      | doneCompose _ _ => exact ⟨rfl, rfl⟩
      | raised _ _ => exact absurd rfl hst
    · cases hostRan_of_exec hspace hexec with
      | xlat => exact ⟨rfl, rfl⟩
      | gentbl => exact ⟨rfl, rfl⟩
      | tslot => exact ⟨rfl, rfl⟩
      | decomp _ => cases hidle
      | compose _ => cases hidle
      | raised _ _ => exact absurd rfl hst
  exact ⟨hends.1, hends.2, fun v => (invalidResultsAreNeverRead t v).2.2.2.2 hst⟩

end Sys2Proof.Machine
end

section
/-! PROOFS. Every step, of the host's moves too: what each can do, and what every one keeps (10_state sections 7 and 8). -/

namespace Sys2Proof.Machine

/-! ### What a step can do -/

/-- What a move of the host can lead to: a register is written and marked; a command has run; a ROM image is supplied; a
value is read; or the block is reset. -/
inductive HostMoved (s : State) : HostMove → State → Prop
  | wroteOffset (v : Half) : HostMoved s (.writeOffset v) { s with offset := v, valid := { s.valid with offset := true } }
  | wroteBank (v : Byte) : HostMoved s (.writeBank v) { s with bank := v, valid := { s.valid with bank := true } }
  | wrotePos (v : LinearPos) : HostMoved s (.writePos v) { s with pos := v, valid := { s.valid with pos := true } }
  | wroteTilein (v : Byte) : HostMoved s (.writeTilein v) { s with tilein := v, valid := { s.valid with tilein := true } }
  | command {code : Byte} {i : Instr} {t : State}
      (h : HostRan { s with cmd := code, valid := { s.valid with cmd := true } } i t) : HostMoved s (.writeCmd code) t
  | supplied (image : List Byte) :
      HostMoved s (.supplyRom image) { s with rom := Memory.ofBytes 0 image, romSize := image.length }
  | read (p : Port) (v : Int) : HostMoved s (.read p) { s with readData := some v }
  | reset : HostMoved s .reset (resetBlock s)

theorem hostMoved_of_hostStep {m : HostMove} {s t : State} (h : hostStep m s = .next t) : HostMoved s m t := by
  cases m with
  | writeOffset v => cases h; exact .wroteOffset v
  | writeBank v => cases h; exact .wroteBank v
  | writePos v => cases h; exact .wrotePos v
  | writeTilein v => cases h; exact .wroteTilein v
  | writeCmd code =>
    simp only [hostStep] at h
    cases hdecode : decode .host [code] with
    | ok d =>
      obtain ⟨i, rest⟩ := d
      rw [hdecode] at h
      exact .command (hostRan_of_exec (decodeCommand_eq_ok (bytes := [code]) hdecode).2.1 h)
    | error e => rw [hdecode] at h; cases h
  | supplyRom image => cases h; exact .supplied image
  | read p =>
    simp only [hostStep] at h
    cases hread : hostRead p s with
    | value v => rw [hread] at h; cases h; exact .read p v
    | fault r => rw [hread] at h; cases h
    | refused r => rw [hread] at h; cases h
  | reset => cases h; exact .reset

/-- What a step can do (00_scope R9, 70 R280): a reset; inside a decode one turn of it; between operations a move of the
host, or nothing where there is none. -/
inductive Stepped (s : State) : State → Prop
  | reset {moves : List HostMove} (h : s.host = .reset :: moves) : Stepped s (resetBlock { s with host := moves })
  | turn {t : State} (he : s.engine ≠ .idle) (hr : resetNext s = false) (h : Ran s t) : Stepped s t
  | rested (he : s.engine = .idle) (h : s.host = []) : Stepped s s
  | moved {t : State} {m : HostMove} {moves : List HostMove} (he : s.engine = .idle) (hr : resetNext s = false)
      (h : s.host = m :: moves) (hm : HostMoved { s with host := moves } m t) : Stepped s t

theorem stepped_of_step {s t : State} (h : step s = .next t) : Stepped s t := by
  cases hr : resetNext s with
  | true =>
    obtain ⟨moves, hhost⟩ := resetNext_iff.1 hr
    rw [step_reset hhost] at h
    cases h
    exact .reset hhost
  | false =>
    by_cases he : s.engine = .idle
    · cases hhost : s.host with
      | nil =>
        rw [step_idle he, hostTurn, hhost] at h
        cases h
        exact .rested he hhost
      | cons m moves =>
        rw [step_move he hhost] at h
        exact .moved he hr hhost (hostMoved_of_hostStep h)
    · exact .turn he hr (ran_of_step he hr h)

/-! ### ROM and the parameters -/

theorem hostRan_rom {s t : State} {i : Instr} (h : HostRan s i t) :
    t.rom = s.rom ∧ t.romSize = s.romSize ∧ t.params = s.params := by
  cases h with
  | compose _ =>
    exact ⟨composeBegin_rom _, composeBegin_romSize _, composeBegin_params _⟩
  | _ => exact ⟨rfl, rfl, rfl⟩

/-- Settles O42. -/
theorem romIsNeverWritten : Obligations.RomIsNeverWritten := by
  intro s t hstep
  cases stepped_of_step hstep with
  | reset _ => exact ⟨rfl, fun _ => ⟨rfl, rfl⟩⟩
  | turn _ _ hran =>
    obtain ⟨hrom, hsize, hparams⟩ := frame_of_ran hran
    exact ⟨hparams, fun _ => ⟨hrom, hsize⟩⟩
  | rested _ _ => exact ⟨rfl, fun _ => ⟨rfl, rfl⟩⟩
  | moved _ _ hhost hm =>
    cases hm with
    | command hran =>
      obtain ⟨hrom, hsize, hparams⟩ := hostRan_rom hran
      exact ⟨hparams, fun _ => ⟨hrom, hsize⟩⟩
    | supplied image => exact ⟨rfl, fun hnot => absurd hhost (hnot image _)⟩
    | _ => exact ⟨rfl, fun _ => ⟨rfl, rfl⟩⟩

/-! ### The marks of what the host has written (93 U6) -/

/-- No mark of `v` is missing in `w`. -/
structure MarksKept (v w : Valid) : Prop where
  offset : v.offset = true → w.offset = true
  bank : v.bank = true → w.bank = true
  tilein : v.tilein = true → w.tilein = true
  pos : v.pos = true → w.pos = true
  cmd : v.cmd = true → w.cmd = true

theorem MarksKept.refl (v : Valid) : MarksKept v v := ⟨id, id, id, id, id⟩

theorem MarksKept.specified {s t : State} (h : MarksKept s.valid t.valid) (p : Port) (hp : readIsSpecified p s = true) :
    readIsSpecified p t = true := by
  cases p with
  | offset => exact h.offset hp
  | bank => exact h.bank hp
  | tilein => exact h.tilein hp
  | pos => exact h.pos hp
  | cmd => exact h.cmd hp
  | _ => rfl

theorem withoutResults_marks (v : Valid) (e : Engine) : MarksKept v (v.withoutResults e) := by
  cases e <;> exact ⟨id, id, id, id, id⟩

theorem ran_marks {s t : State} (h : Ran s t) : MarksKept s.valid t.valid := by
  rw [ran_frame h]
  exact ⟨id, id, id, id, id⟩

theorem hostRan_marks {s t : State} {i : Instr} (h : HostRan s i t) : MarksKept s.valid t.valid := by
  cases h with
  | xlat => exact ⟨id, id, id, fun _ => rfl, id⟩
  | gentbl => exact .refl _
  | tslot => exact ⟨id, id, id, id, id⟩
  | decomp _ => exact withoutResults_marks s.valid .decomp
  | compose _ =>
    rw [composeBegin_valid]
    exact withoutResults_marks s.valid .compose
  | @raised _ e kind info _ _ =>
    rw [show (raise kind info (beginDecode e s)).valid = (s.valid.withoutResults e).withoutResults e from rfl]
    cases e <;> exact ⟨id, id, id, id, id⟩

/-- Settles O57. -/
theorem specifiedReadsStaySpecifiedUntilReset : Obligations.SpecifiedReadsStaySpecifiedUntilReset := by
  intro s t p hstep
  cases stepped_of_step hstep with
  | reset hhost =>
    have hr : resetNext s = true := resetNext_iff.2 ⟨_, hhost⟩
    refine ⟨fun hno => absurd (hr.symm.trans hno) nofun, fun _ hp => ?_⟩
    simp only [List.mem_cons, List.not_mem_nil, or_false] at hp
    obtain rfl | rfl | rfl | rfl | rfl := hp
    all_goals rfl
  | turn _ hr hran => exact ⟨fun _ => (ran_marks hran).specified p, fun hyes => absurd (hr.symm.trans hyes) nofun⟩
  | rested _ hhost =>
    have hr : resetNext s = false := by rw [resetNext, hhost]
    exact ⟨fun _ => id, fun hyes => absurd (hr.symm.trans hyes) nofun⟩
  | moved _ hr hhost hm =>
    refine ⟨fun _ => MarksKept.specified ?_ p, fun hyes => absurd (hr.symm.trans hyes) nofun⟩
    cases hm with
    | wroteOffset v => exact ⟨fun _ => rfl, id, id, id, id⟩
    | wroteBank v => exact ⟨id, fun _ => rfl, id, id, id⟩
    | wrotePos v => exact ⟨id, id, id, fun _ => rfl, id⟩
    | wroteTilein v => exact ⟨id, id, fun _ => rfl, id, id⟩
    | command hran =>
      obtain ⟨hoffset, hbank, htilein, hpos, hcmd⟩ := hostRan_marks hran
      exact ⟨hoffset, hbank, htilein, hpos, fun _ => hcmd rfl⟩
    | supplied image => exact .refl _
    | read p v => exact .refl _
    | reset => exact absurd (resetNext_iff.2 ⟨_, hhost⟩) (by rw [hr]; exact nofun)

/-! ### The invariant -/

theorem inv_reset (params : Params) (rom : Memory) (romSize : Nat) (host : List HostMove) (hwf : rom.wf)
    (hin : rom.within romSize) :
    Inv { State.reset with params := params, rom := rom, romSize := romSize, host := host } where
  rom_wf := hwf
  rom_in := hin
  out_wf := Memory.wf_nil
  out_in := nofun
  tbl_eq := rfl
  win_wf := Memory.wf_nil
  win_in := nofun
  len_le := Nat.zero_le _
  err_st := ⟨fun _ => nofun, fun _ => rfl⟩
  err_ok := nofun
  cur_le := fun h => absurd rfl h
  no_out := fun h => absurd rfl h
  no_win := nofun
  window := nofun

/-- Settles O39. -/
theorem invariantHoldsAtReset : Obligations.InvariantHoldsAtReset := inv_reset _ _ _ _ Memory.wf_nil nofun

/-- A stream instruction that goes on keeps the invariant while its cursor stays in the ROM. -/
theorem inv_reached {s t : State} (hs : Inv s) (h : Reached s t) (hcur : s.engine ≠ .idle → t.cur ≤ s.romSize) : Inv t := by
  obtain ⟨honly, -, -, hcap, hwf, hin⟩ := h
  have hwf := hwf hs.out_wf
  have hin := hin hs.out_in
  have hcap := hcap hs.len_le
  unfold OnlyStreamFields at honly
  generalize t.cur = cur, t.len = len, t.out = out, t.work = work at *
  subst honly
  exact { hs with out_wf := hwf, out_in := hin, len_le := hcap, cur_le := hcur }

theorem withoutResults_win {v : Valid} {e : Engine} (h : (v.withoutResults e).win = true) : v.win = true := by
  cases e with
  | compose => cases h
  | decomp => exact h
  | idle => exact h

/-- An error taken after accesses of a stream instruction keeps the invariant; its cursor is read by nothing. -/
theorem inv_raise {s u : State} (hs : Inv s) (h : Reached s u) {e : ErrKind} (he : e ≠ .none ∧ e ≠ .unknownLevelIndex) (info : Int) :
    Inv (raise e info u) := by
  obtain ⟨honly, -, -, hcap, hwf, hin⟩ := h
  have hwf := hwf hs.out_wf
  have hin := hin hs.out_in
  have hcap := hcap hs.len_le
  unfold OnlyStreamFields at honly
  generalize u.cur = cur, u.len = len, u.out = out, u.work = work at *
  subst honly
  exact { hs with
    out_wf := hwf
    out_in := hin
    len_le := hcap
    err_st := ⟨fun h => absurd h he.1, fun h => absurd rfl h⟩
    err_ok := he.2
    cur_le := fun h => absurd rfl h
    no_out := fun h => absurd rfl h
    no_win := nofun
    window := fun h => hs.window (.inr (withoutResults_win (h.resolve_left nofun))) }

/-- The end of an operation keeps the invariant, whatever it has marked as valid but the window. -/
theorem inv_done {s : State} (hs : Inv s) : Inv (done s) :=
  { hs with
    err_st := ⟨fun _ => nofun, fun _ => rfl⟩
    err_ok := nofun
    cur_le := fun h => absurd rfl h
    no_out := fun h => absurd rfl h
    no_win := nofun
    window := fun h => hs.window (.inr (h.resolve_left nofun)) }

/-- The window a COMPOSE ends with is canonical and inside its space. -/
theorem windowOf_wf {s : State} (h : s.out.wf) : (windowOf s).wf := fixedSlots_wf (Memory.padded_wf h _ _)

theorem windowOf_within {s : State} (hfit : padOf s + s.len ≤ Config.winSize) : (windowOf s).within Config.winSize :=
  fixedSlots_within fun c hc => Nat.lt_of_lt_of_le (Memory.padded_within s.out s.len (padOf s) c hc) hfit

theorem inv_doneDecomp {s : State} (hs : Inv s) : Inv (finishDecomp (headE s)) :=
  { hs with
    err_st := ⟨fun _ => nofun, fun _ => rfl⟩
    err_ok := nofun
    cur_le := fun h => absurd rfl h
    no_out := fun h => absurd rfl h
    no_win := nofun
    window := fun h => hs.window (.inr (h.resolve_left nofun)) }

theorem inv_composed {s : State} (hs : Inv s) (he : s.engine = .compose) {w : Memory} (hwf : w.wf)
    (hin : w.within Config.winSize) : Inv (composed w s) :=
  { hs with
    win_wf := hwf
    win_in := hin
    err_st := ⟨fun _ => nofun, fun _ => rfl⟩
    err_ok := nofun
    cur_le := fun h => absurd rfl h
    no_out := fun h => absurd rfl h
    no_win := nofun
    window := fun _ => hs.window (.inl he) }

theorem inv_ran {s t : State} (hs : Inv s) (h : Ran s t) (hcur : t.engine ≠ .idle → t.cur ≤ s.romSize) : Inv t := by
  cases h with
  | on h _ => exact inv_reached hs h fun he => hcur (by rwa [h.only.engine])
  | doneDecomp _ => exact inv_doneDecomp hs
  | doneCompose he hfit => exact inv_composed hs he (windowOf_wf hs.out_wf) (windowOf_within hfit)
  | raised h hkind => exact inv_raise hs h hkind _

theorem inv_decompStart {s : State} (hs : Inv s) (h : s.pos.toNat < s.romSize) :
    Inv (startAt s.pos.toNat (beginDecode .decomp s)) :=
  { hs with
    len_le := Nat.zero_le _
    cur_le := fun _ => h.le
    no_out := fun _ => rfl
    no_win := nofun
    window := fun h => hs.window (.inr (h.resolve_left nofun)) }

/-- VSTART and BASESEL of any control byte are legal (44 R182, R183). -/
theorem vstartOf_legal (cb : Byte) : baseSelOf (vstartOf cb) = baseSelOf (vstartOf cb) ∧ 0x8640 ≤ (vstartOf cb).toNat ∧
    (vstartOf cb).toNat ≤ 0x9630 ∧ (vstartOf cb).toNat % 16 = 0 := by
  obtain ⟨-, hlow, hhigh, haligned, -⟩ := controlByteFixesThePad cb
  exact ⟨rfl, hlow, hhigh, haligned⟩

theorem inv_composeStart {s : State} (hs : Inv s) (h : s.pos.toNat < s.romSize) :
    Inv (composeBegin (beginDecode .compose s)) := by
  have hlegal := vstartOf_legal (romRead s.pos.toNat s)
  rw [composeBegin, romRead, beginDecode_rom, beginDecode_pos, ← romRead]
  generalize vstartOf (romRead s.pos.toNat s) = v at hlegal
  exact { hs with
    len_le := Nat.zero_le _
    cur_le := fun _ => h
    no_out := fun _ => rfl
    no_win := fun _ => rfl
    window := fun _ => hlegal }

theorem inv_startRaised {s : State} (hs : Inv s) {e : Engine} {kind : ErrKind} (hkind : kind ≠ .none ∧ kind ≠ .unknownLevelIndex)
    (info : Int) : Inv (raise kind info (beginDecode e s)) :=
  { hs with
    err_st := ⟨fun h => absurd h hkind.1, fun h => absurd rfl h⟩
    err_ok := hkind.2
    cur_le := fun h => absurd rfl h
    no_out := fun h => absurd rfl h
    no_win := nofun
    window := fun h => hs.window (.inr (withoutResults_win (withoutResults_win (h.resolve_left nofun)))) }

theorem inv_hostRan {s t : State} {i : Instr} (hs : Inv s) (h : HostRan s i t) : Inv t := by
  cases h with
  | xlat => exact inv_done { hs with }
  | gentbl =>
    have htbl : s.tbl.writeList 0 s.gen.run.1 = Memory.ofBytes 0 Config.tblListing := by
      rw [hs.tbl_eq, writeList_run_tblListing]
    exact inv_done { hs with tbl_eq := htbl }
  | tslot => exact inv_done { hs with }
  | decomp h => exact inv_decompStart hs h
  | compose h => exact inv_composeStart hs h
  | raised _ hkind =>
    refine inv_startRaised hs ?_ _
    obtain rfl | rfl := hkind
    · exact ⟨nofun, nofun⟩
    · exact ⟨nofun, nofun⟩

theorem inv_hostMoved {s t : State} {m : HostMove} (hs : Inv s) (he : s.engine = .idle) (h : HostMoved s m t) : Inv t := by
  cases h with
  | wroteOffset v => exact { hs with }
  | wroteBank v => exact { hs with }
  | wrotePos v => exact { hs with }
  | wroteTilein v => exact { hs with }
  | command hran =>
    refine inv_hostRan ?_ hran
    exact { hs with }
  | supplied image =>
    have hin := Memory.ofBytes_within 0 image
    rw [Nat.zero_add] at hin
    exact { hs with rom_wf := Memory.ofBytes_wf 0 image, rom_in := hin, cur_le := fun h => absurd he h }
  | read p v => exact { hs with }
  | reset => exact inv_reset _ _ _ _ hs.rom_wf hs.rom_in

/-- Settles O40: a turn of the decode that goes on has moved CUR inside the ROM. -/
theorem invariantKeptByEveryStep : Obligations.InvariantKeptByEveryStep := by
  intro s t hs hstep
  cases stepped_of_step hstep with
  | reset _ => exact inv_reset _ _ _ _ hs.rom_wf hs.rom_in
  | turn he hr hran => exact inv_ran hs hran fun ht => (step_goesOn he hr (hs.cur_le he) hstep ht).2
  | rested _ _ => exact hs
  | @moved _ _ moves he _ _ hm =>
    refine inv_hostMoved (s := { s with host := moves }) ?_ he hm
    exact { hs with }

end Sys2Proof.Machine
end

section
/-! PROOFS. A decode against the source's software, one instruction: what of a machine the software holds, and that each
behaviour does to it what the loops over a growable buffer do (00_scope R12, R14; spec 43). -/

namespace Sys2Proof.Machine

/-! ### The part of a machine that the software decoder holds -/

/-- The cursor and the buffer of a machine. -/
def softOf (s : State) : Soft := { cur := s.cur, buf := (List.range s.len).map s.out.read }

/-- What a flow is to the software: the cursor and buffer it ends with, or the error it raises. -/
def Flow.soft : Flow → Except SoftError Soft
  | .ok s => .ok (softOf s)
  | .trap e info _ => .error (e, info)

/-- The software's state `k` positions further on. -/
def Soft.past (k : Nat) (σ : Soft) : Soft := { σ with cur := σ.cur + k }

theorem softOf_eq_iff {s t : State} :
    softOf s = softOf t ↔ s.cur = t.cur ∧ s.len = t.len ∧ ∀ a, a < s.len → s.out.read a = t.out.read a := by
  unfold softOf
  rw [Soft.mk.injEq]
  refine and_congr_right fun _ => ⟨fun h => ?_, fun ⟨hlen, hread⟩ => ?_⟩
  · have hlen : s.len = t.len := by simpa using congrArg List.length h
    refine ⟨hlen, fun a ha => ?_⟩
    rw [← hlen, List.map_inj_left] at h
    exact h a (List.mem_range.2 ha)
  · rw [← hlen, List.map_inj_left]
    exact fun a ha => hread a (List.mem_range.1 ha)

theorem softOf_buf_length (s : State) : (softOf s).buf.length = s.len := by simp [softOf]

theorem softOf_buf_getElem (s : State) (a : Nat) (h : a < (softOf s).buf.length) : (softOf s).buf[a] = s.out.read a := by
  simp [softOf]

/-- Appending a byte to OUT appends it to the buffer. -/
theorem softOf_push (v : Byte) {s : State} (hwf : s.out.wf) :
    softOf (push v s) = { softOf s with buf := (softOf s).buf ++ [v] } := by
  have hold : (List.range s.len).map (s.out.write s.len v).read = (List.range s.len).map s.out.read :=
    List.map_congr_left fun a ha => by
      rw [Memory.read_write hwf, if_neg (List.mem_range.1 ha).ne]
  have hnew : (s.out.write s.len v).read s.len = v := by rw [Memory.read_write hwf, if_pos rfl]
  rw [softOf, push_cur, push_len, push_out, List.range_succ, List.map_append, List.map_singleton, hold, hnew, softOf]

/-! ### The accesses -/

/-- `Emit` on both sides, then what follows it. -/
theorem soft_emit_bind (v : Byte) {s : State} (hwf : s.out.wf) {g : State → Flow} {g' : Soft → Except SoftError Soft}
    (hg : (g (push v s)).soft = g' (softOf (push v s))) :
    ((emit v s).bind g).soft = (softOf s).emit s.params.outCap v >>= g' := by
  obtain hroom | hfull := Nat.lt_or_ge s.len s.params.outCap
  · rw [emit_ok hroom, Flow.bind_ok, hg, softOf_push v hwf, Soft.emit, if_pos (by rwa [softOf_buf_length])]
    rfl
  · rw [emit_full hfull, Flow.bind_trap, Soft.emit, if_neg (by rw [softOf_buf_length]; omega), softOf_buf_length]
    rfl

/-- `Emit` on both sides. -/
theorem soft_emit (v : Byte) {s : State} (hwf : s.out.wf) : (emit v s).soft = (softOf s).emit s.params.outCap v := by
  have hbind := soft_emit_bind v hwf (g := .ok) (g' := .ok) rfl
  have hflow : (emit v s).bind .ok = emit v s := by cases emit v s <;> rfl
  have hsoft : (softOf s).emit s.params.outCap v >>= .ok = (softOf s).emit s.params.outCap v := by
    cases (softOf s).emit s.params.outCap v <;> rfl
  rwa [hflow, hsoft] at hbind

/-- `OutRead` on both sides, then what follows it. -/
theorem soft_outRead (i : Int) (s : State) {k : Byte → Flow} {k' : Byte → Except SoftError Soft}
    (hk : ∀ v, (k v).soft = k' v) : (outRead i s k).soft = (softOf s).read i >>= k' := by
  by_cases hneg : i < 0
  · rw [outRead_out (.inl hneg), Soft.read, if_pos hneg]
    rfl
  rw [Soft.read, if_neg hneg]
  by_cases hin : i < s.len
  · have hlt : i.toNat < (softOf s).buf.length := by rw [softOf_buf_length]; omega
    rw [outRead_ok (by omega) hin, List.getElem?_eq_getElem hlt, softOf_buf_getElem, hk]
    rfl
  · rw [outRead_out (.inr (by omega)), List.getElem?_eq_none (by rw [softOf_buf_length]; omega)]
    rfl

/-! ### The loops -/

/-- `ExecLIT` over the data bytes that are there. -/
def Soft.literal (cap : Nat) : Nat → List Byte → Soft → Except SoftError Soft
  | 0, _, σ => .ok σ
  | _ + 1, [], σ => .error (.truncatedStream, σ.cur)
  | n + 1, b :: data, σ => (σ.past 1).emit cap b >>= Soft.literal cap n data

theorem soft_literalLoop (n : Nat) (data : List Byte) (s : State) (hwf : s.out.wf) :
    (literalLoop n data s).soft = Soft.literal s.params.outCap n data (softOf s) := by
  induction n generalizing data s with
  | zero => rfl
  | succ n ih =>
    cases data with
    | nil => rfl
    | cons b data => exact soft_emit_bind b (s := consume (tickK s)) hwf (ih data (push b _) (Memory.write_wf _ _ hwf))

theorem soft_emitLoop (n : Nat) (s : State) (hwf : s.out.wf) :
    (loopK (fun t => emit t.work.b1 t) n s).soft = Soft.rpt s.params.outCap s.work.b1 n (softOf s) := by
  induction n generalizing s with
  | zero => rfl
  | succ n ih => exact soft_emit_bind s.work.b1 (s := tickK s) hwf (ih (push _ (tickK s)) (Memory.write_wf _ _ hwf))

theorem soft_pairLoop (n : Nat) (s : State) (hwf : s.out.wf) :
    (loopK (fun t => (emit t.work.b1 t).bind (fun u => emit u.work.b2 u)) n s).soft =
      Soft.pair s.params.outCap s.work.b1 s.work.b2 n (softOf s) := by
  induction n generalizing s with
  | zero => rfl
  | succ n ih =>
    have hwf1 := Memory.write_wf s.len s.work.b1 hwf
    rw [loopK, Flow.bind_assoc]
    exact soft_emit_bind s.work.b1 (s := tickK s) hwf (soft_emit_bind s.work.b2 (s := push s.work.b1 (tickK s)) hwf1
      (ih (push _ (push _ (tickK s))) (Memory.write_wf _ _ hwf1)))

theorem soft_countLoop (n : Nat) (s : State) (hwf : s.out.wf) :
    (loopK (fun t => (emit t.work.b1 t).bind (fun u => .ok (bumpB1 u))) n s).soft =
      Soft.inc s.params.outCap s.work.b1 n (softOf s) := by
  induction n generalizing s with
  | zero => rfl
  | succ n ih =>
    rw [loopK, Flow.bind_assoc]
    exact soft_emit_bind s.work.b1 (s := tickK s) hwf (ih (bumpB1 (push _ (tickK s))) (Memory.write_wf _ _ hwf))

/-- A self-copy whose map of bytes is `f` in every state with this TBL. -/
theorem soft_copyLoop {map : State → Byte → Byte} {f : Byte → Byte} {move : Int} (n : Nat) (s : State)
    (hmap : ∀ t v, t.tbl = s.tbl → map t v = f v) (hwf : s.out.wf) :
    (loopK (copyBody map move) n s).soft = Soft.copy s.params.outCap f move s.work.idx n (softOf s) := by
  induction n generalizing s with
  | zero => rfl
  | succ n ih =>
    have hbind : ∀ (k : Byte → Flow) (g : State → Flow), (outRead s.work.idx (tickK s) k).bind g =
        outRead s.work.idx (tickK s) fun v => (k v).bind g := by
      intro k g
      unfold outRead
      split <;> rfl
    rw [loopK, copyBody, tickK_work, hbind]
    refine soft_outRead s.work.idx (tickK s) fun v => ?_
    rw [Flow.bind_assoc, hmap (tickK s) v rfl]
    exact soft_emit_bind (f v) (s := tickK s) hwf
      (ih (moveIdx move (push _ (tickK s))) hmap (Memory.write_wf _ _ hwf))

/-! ### The behaviours -/

/-- The behaviour in the software, with the map `tbl` of the table copies. -/
def Behaviour.soft (tbl : Byte → Byte) (cap n : Nat) (σ : Soft) : Behaviour → Except SoftError Soft
  | .literal data => Soft.literal cap n data σ
  | .repeatByte b => Soft.rpt cap b n (σ.past 1)
  | .repeatPair b1 b2 => Soft.pair cap b1 b2 n (σ.past 2)
  | .countUp seed => Soft.inc cap seed n (σ.past 1)
  | .copyForward start => Soft.copy cap (fun b => b) 1 start.toNat n (σ.past 2)
  | .copyTable start => Soft.copy cap tbl 1 start.toNat n (σ.past 2)
  | .copyBackward start => Soft.copy cap (fun b => b) (-1) start.toNat n (σ.past 2)

/-- The bytes TBL holds. -/
def tableOf (s : State) (b : Byte) : Byte := s.tbl.read b.toNat

theorem run_soft (b : Behaviour) (n : Nat) {s : State} (hwf : s.out.wf) :
    (b.run n s).soft = b.soft (tableOf s) s.params.outCap n (softOf s) := by
  cases b with
  | literal data => exact soft_literalLoop n data (startK s) hwf
  | repeatByte b => exact soft_emitLoop n (startK (takeB1 b s)) hwf
  | repeatPair b1 b2 =>
    have hloop := soft_pairLoop n (startK (takeB2 b2 (takeB1 b1 s))) (by simpa using hwf)
    have hsoft : softOf (startK (takeB2 b2 (takeB1 b1 s))) = (softOf s).past 2 := by simp [softOf, Soft.past]
    simp only [startK_params, takeB2_params, takeB1_params, startK_work, takeB2_work, takeB1_work, hsoft] at hloop
    exact hloop
  | countUp seed => exact soft_countLoop n (startK (takeB1 seed s)) hwf
  | copyForward start =>
    rw [Behaviour.run, copyForward, iterate_readStart]
    exact soft_copyLoop n (copyBegin start s) (fun _ _ _ => rfl) hwf
  | copyTable start =>
    rw [Behaviour.run, copyTable, iterate_readStart]
    exact soft_copyLoop n (copyBegin start s) (fun t v ht => by rw [tblRead, ht]; rfl) hwf
  | copyBackward start =>
    rw [Behaviour.run, copyBackward, iterate_readStart]
    exact soft_copyLoop n (copyBegin start s) (fun _ _ _ => rfl) hwf

end Sys2Proof.Machine
end

section
/-! PROOFS. A decode against the source's software, one turn of its loop: the software fetches byte by byte what the decoder
reads at once (42 R132 to R136). -/

namespace Sys2Proof.Machine

/-! ### The decoder reads no further than the longest instruction -/

/-- Whether an instruction is found, and which, depends on the first `maxLength` bytes only (30 R79). -/
theorem decodeStream_take (bytes : List Byte) :
    (∃ i rest rest', decodeStream (bytes.take maxLength) = .ok (i, rest) ∧ decodeStream bytes = .ok (i, rest')) ∨
      decodeStream (bytes.take maxLength) = decodeStream bytes := by
  have hfrom := decodeStream_decodedFrom (bytes.take maxLength)
  cases hdecode : decodeStream (bytes.take maxLength) with
  | ok d =>
    obtain ⟨i, rest⟩ := d
    rw [hdecode] at hfrom
    obtain ⟨hwf, hspace, hbytes⟩ := hfrom
    have hwhole : encode i ++ (rest ++ bytes.drop maxLength) = bytes := by
      rw [← List.append_assoc, hbytes, List.take_append_drop]
    have hread : decode i.space (encode i ++ (rest ++ bytes.drop maxLength)) = _ := encodeThenDecode i _ hwf
    rw [hspace, hwhole] at hread
    exact .inl ⟨i, rest, _, rfl, hread⟩
  | error e =>
    have hshort : (bytes.take maxLength).length < maxLength := by
      rw [hdecode] at hfrom
      cases e with
      | cutLiteral i => exact hfrom.1
      | reservedCommand code => exact hfrom.elim
      | noOpcode => exact hfrom
      | noCount => exact hfrom
      | noOperand => exact hfrom
    rw [List.length_take] at hshort
    rw [← hdecode, List.take_of_length_le (by omega)]
    exact .inr rfl

/-! ### What the software does with what the decoder reads -/

/-- The software's turn once its instruction is known; the flag says that it was END. -/
def softExec (tbl : Byte → Byte) (cap : Nat) (σ : Soft) (i : Instr) : Except SoftError (Bool × Soft) :=
  match behaviour i with
  | none => .ok (true, σ.past 1)
  | some b => b.soft tbl cap i.count (σ.past (headSize i)) >>= fun τ => .ok (false, τ)

/-- The software's turn by what the decoder reads; where bytes are missing the `Fetch` at `last` finds none. -/
def softDecoded (tbl : Byte → Byte) (cap last : Nat) (σ : Soft) : Decoded → Except SoftError (Bool × Soft)
  | .ok (i, _) | .error (.cutLiteral i) => softExec tbl cap σ i
  | .error _ => .error (.truncatedStream, last)

theorem softDecoded_take (tbl : Byte → Byte) (cap last : Nat) (σ : Soft) (bytes : List Byte) :
    softDecoded tbl cap last σ (decodeStream (bytes.take maxLength)) = softDecoded tbl cap last σ (decodeStream bytes) := by
  obtain ⟨i, rest, rest', htake, hwhole⟩ | hsame := decodeStream_take bytes
  · rw [htake, hwhole]
    rfl
  · rw [hsame]

/-! ### Fetching -/

/-- `bytes` is what `rom` holds from the cursor on. -/
def Ahead (rom : List Byte) (σ : Soft) (bytes : List Byte) : Prop := σ.cur ≤ rom.length ∧ rom.drop σ.cur = bytes

theorem fetch_cons {rom bytes : List Byte} {σ : Soft} {b : Byte} (h : Ahead rom σ (b :: bytes)) :
    σ.fetch rom = .ok (b, σ.past 1) ∧ Ahead rom (σ.past 1) bytes := by
  obtain ⟨-, hdrop⟩ := h
  have hget : rom[σ.cur]? = some b := by rw [← List.head?_drop, hdrop]; rfl
  have hlt : σ.cur < rom.length := (List.getElem?_eq_some_iff.1 hget).1
  refine ⟨by rw [Soft.fetch, hget]; rfl, hlt, ?_⟩
  rw [Soft.past, ← List.drop_drop, hdrop, List.drop_one, List.tail_cons]

theorem fetch_nil {rom : List Byte} {σ : Soft} (h : Ahead rom σ []) : σ.fetch rom = .error (.truncatedStream, rom.length) := by
  obtain ⟨hle, hdrop⟩ := h
  have hend : σ.cur = rom.length := Nat.le_antisymm hle (List.drop_eq_nil_iff.1 hdrop)
  rw [Soft.fetch, hend, List.getElem?_eq_none (Nat.le_refl _)]

/-- The data of a literal, fetched byte by byte or all at once. -/
theorem soft_lit (cap n : Nat) {rom bytes : List Byte} {σ : Soft} (h : Ahead rom σ bytes) :
    Soft.lit rom cap n σ = Soft.literal cap n (bytes.take n) σ := by
  induction n generalizing bytes σ with
  | zero => rfl
  | succ n ih =>
    cases bytes with
    | nil =>
      obtain ⟨hle, hdrop⟩ := id h
      rw [Soft.lit, fetch_nil h, ← Nat.le_antisymm hle (List.drop_eq_nil_iff.1 hdrop)]
      rfl
    | cons b bytes =>
      obtain ⟨hfetch, hahead⟩ := fetch_cons h
      rw [Soft.lit, hfetch, List.take_succ_cons, Soft.literal]
      show ((σ.past 1).emit cap b >>= fun τ => Soft.lit rom cap n τ) = _
      unfold Soft.emit
      split
      · exact ih hahead
      · rfl

/-! ### The behaviours by their tag -/

/-- A turn that was not END. -/
def goesOn (r : Except SoftError Soft) : Except SoftError (Bool × Soft) := r >>= fun τ => .ok (false, τ)

/-- `i` has the behaviour `b` with count `n`, and its head takes the software from `σ` to `τ`. -/
def Behaves (σ τ : Soft) (n : Nat) (i : Instr) (b : Behaviour) : Prop :=
  behaviour i = some b ∧ i.count = n ∧ σ.past (headSize i) = τ

theorem softExec_eq {tbl : Byte → Byte} {cap n : Nat} {σ τ : Soft} {i : Instr} {b : Behaviour} (h : Behaves σ τ n i b) :
    softExec tbl cap σ i = goesOn (b.soft tbl cap n τ) := by
  obtain ⟨hb, rfl, rfl⟩ := h
  rw [softExec, hb]
  rfl

theorem startOf_toNat (hi lo : Byte) : (startOf hi lo).toNat = hi.toNat * 256 + lo.toNat := by
  have hhi := congrArg BitVec.toNat (startHi_toNat (startOf hi lo))
  have hlo := congrArg BitVec.toNat (startLo_toNat (startOf hi lo))
  rw [startHi_startOf, BitVec.toNat_ofNat] at hhi
  rw [startLo_startOf, BitVec.toNat_ofNat] at hlo
  have hlt : (startOf hi lo).toNat < 65536 := (startOf hi lo).isLt
  omega

section
variable {rom bytes : List Byte} {cap n : Nat} {σ τ : Soft} {tbl : Byte → Byte} (h : Ahead rom τ bytes)
include h

theorem softDecoded_withOne {k : Byte → Instr} {f : Byte → Soft → Except SoftError Soft}
    (hk : ∀ b, softExec tbl cap σ (k b) = goesOn (f b (τ.past 1))) :
    softDecoded tbl cap rom.length σ (withOne k bytes) = goesOn (τ.fetch rom >>= fun d => f d.1 d.2) := by
  cases bytes with
  | nil => rw [fetch_nil h]; rfl
  | cons b bytes => rw [(fetch_cons h).1]; exact hk b

theorem softDecoded_withTwo {k : Byte → Byte → Instr} {f : Byte → Byte → Soft → Except SoftError Soft}
    (hk : ∀ b c, softExec tbl cap σ (k b c) = goesOn (f b c (τ.past 2))) :
    softDecoded tbl cap rom.length σ (withTwo k bytes) =
      goesOn (τ.fetch rom >>= fun d => d.2.fetch rom >>= fun e => f d.1 e.1 e.2) := by
  cases bytes with
  | nil => rw [fetch_nil h]; rfl
  | cons b bytes =>
    obtain ⟨hfetch, hahead⟩ := fetch_cons h
    rw [hfetch]
    show _ = goesOn ((τ.past 1).fetch rom >>= fun e => f b e.1 e.2)
    cases bytes with
    | nil => rw [fetch_nil hahead]; rfl
    | cons c bytes => rw [(fetch_cons hahead).1]; exact hk b c

theorem softDecoded_withStart {k : Half → Instr} {f : Int → Soft → Except SoftError Soft}
    (hk : ∀ a, softExec tbl cap σ (k a) = goesOn (f a.toNat (τ.past 2))) :
    softDecoded tbl cap rom.length σ (withStart k bytes) = goesOn (τ.readStart rom >>= fun d => f d.1 d.2) := by
  rw [withStart, softDecoded_withTwo h (f := fun hi lo => f ((hi.toNat * 256 + lo.toNat : Nat) : Int)) fun hi lo => by
    rw [hk, startOf_toNat]]
  rw [Soft.readStart]
  cases τ.fetch rom with
  | error e => rfl
  | ok d =>
    obtain ⟨hi, υ⟩ := d
    show goesOn (υ.fetch rom >>= _) = goesOn ((υ.fetch rom >>= _) >>= _)
    cases υ.fetch rom with
    | error e => rfl
    | ok e => rfl

theorem softDecoded_rpt {k : Byte → Instr} (hk : ∀ b, Behaves σ τ n (k b) (.repeatByte b)) :
    softDecoded tbl cap rom.length σ (withOne k bytes) = goesOn (τ.behave rom cap 0x20 n) :=
  softDecoded_withOne h (f := fun b => Soft.rpt cap b n) fun b => softExec_eq (hk b)

theorem softDecoded_pair {k : Byte → Byte → Instr} (hk : ∀ b c, Behaves σ τ n (k b c) (.repeatPair b c)) :
    softDecoded tbl cap rom.length σ (withTwo k bytes) = goesOn (τ.behave rom cap 0x40 n) :=
  softDecoded_withTwo h (f := fun b c => Soft.pair cap b c n) fun b c => softExec_eq (hk b c)

theorem softDecoded_inc {k : Byte → Instr} (hk : ∀ b, Behaves σ τ n (k b) (.countUp b)) :
    softDecoded tbl cap rom.length σ (withOne k bytes) = goesOn (τ.behave rom cap 0x60 n) :=
  softDecoded_withOne h (f := fun b => Soft.inc cap b n) fun b => softExec_eq (hk b)

theorem softDecoded_fwd {k : Half → Instr} (hk : ∀ a, Behaves σ τ n (k a) (.copyForward a)) :
    softDecoded tbl cap rom.length σ (withStart k bytes) = goesOn (τ.behave rom cap 0x80 n) :=
  softDecoded_withStart h (f := fun i => Soft.copy cap (fun b => b) 1 i n) fun a => softExec_eq (hk a)

theorem softDecoded_tbl {k : Half → Instr} (hk : ∀ a, Behaves σ τ n (k a) (.copyTable a)) :
    softDecoded BitVec.reverse cap rom.length σ (withStart k bytes) = goesOn (τ.behave rom cap 0xA0 n) :=
  softDecoded_withStart h (f := fun i => Soft.copy cap (fun b => b.reverse) 1 i n) fun a => softExec_eq (hk a)

theorem softDecoded_bwd {k : Half → Instr} (hk : ∀ a, Behaves σ τ n (k a) (.copyBackward a)) :
    softDecoded tbl cap rom.length σ (withStart k bytes) = goesOn (τ.behave rom cap 0xC0 n) :=
  softDecoded_withStart h (f := fun i => Soft.copy cap (fun b => b) (-1) i n) fun a => softExec_eq (hk a)

/-- The tag of LIT, and that of LITX.D. -/
theorem softDecoded_lit {k : List Byte → Instr} (hk : ∀ data, Behaves σ τ n (k data) (.literal data)) {tag : Nat}
    (htag : tag = 0 ∨ tag = 0xE0) :
    softDecoded tbl cap rom.length σ (withData n k bytes) = goesOn (τ.behave rom cap tag n) := by
  have hlit : τ.behave rom cap tag n = Soft.literal cap n (bytes.take n) τ := by
    rw [← soft_lit cap n h]
    obtain rfl | rfl := htag
    · rfl
    · rfl
  rw [hlit, withData]
  split
  · exact softExec_eq (hk _)
  · rw [List.take_of_length_le (by omega)]
    exact softExec_eq (hk _)

end

/-! ### The turn -/

theorem opcodeS_toNat : ∀ (T : BitVec 3) (c : BitVec 5), (opcodeS T c).toNat = T.toNat * 32 + c.toNat := by decide +kernel

theorem opcodeX_toNat : ∀ (T : BitVec 3) (x : BitVec 2), (opcodeX T x).toNat = 224 + T.toNat * 4 + x.toNat := by
  decide +kernel

/-- The software's turn is the one of what the decoder reads from the cursor on. -/
theorem turn_eq {rom bytes : List Byte} {cap : Nat} {σ : Soft} (h : Ahead rom σ bytes) :
    σ.turn rom cap = softDecoded BitVec.reverse cap rom.length σ (decodeStream bytes) := by
  cases bytes with
  | nil =>
    rw [Soft.turn, fetch_nil h]
    rfl
  | cons op bytes =>
    obtain ⟨hfetch, hahead⟩ := fetch_cons h
    have hturn : σ.turn rom cap =
        if op.toNat = 0xFF then .ok (true, σ.past 1)
        else if op.toNat / 32 = 7 then
          (σ.past 1).fetch rom >>= fun d => goesOn (d.2.behave rom cap (op.toNat / 4 % 8 * 32) (d.1.toNat + 1))
        else goesOn ((σ.past 1).behave rom cap (op.toNat / 32 * 32) (op.toNat % 32 + 1)) := by
      rw [Soft.turn, hfetch]
      rfl
    rw [hturn]
    obtain rfl | ⟨T, c, hT, rfl⟩ | ⟨T, x, hTx, rfl⟩ := opcode_cases op
    · rfl
    · have hT7 : T.toNat ≠ 7 := fun h7 => hT (BitVec.eq_of_toNat_eq h7)
      have hT8 : T.toNat < 8 := T.isLt
      have hc : c.toNat < 32 := c.isLt
      have hdiv : (T.toNat * 32 + c.toNat) / 32 = T.toNat := by omega
      have hmod : (T.toNat * 32 + c.toNat) % 32 = c.toNat := by omega
      rw [opcodeS_toNat, if_neg (by omega), hdiv, if_neg hT7, hmod, decodeStream_short c bytes hT]
      symm
      obtain rfl | rfl | rfl | rfl | rfl | rfl | rfl | rfl := tag_cases T
      · exact softDecoded_lit (k := .lit c) hahead (fun _ => ⟨rfl, rfl, rfl⟩) (.inl rfl)
      · exact softDecoded_rpt hahead fun _ => ⟨rfl, rfl, rfl⟩
      · exact softDecoded_pair hahead fun _ _ => ⟨rfl, rfl, rfl⟩
      · exact softDecoded_inc hahead fun _ => ⟨rfl, rfl, rfl⟩
      · exact softDecoded_fwd hahead fun _ => ⟨rfl, rfl, rfl⟩
      · exact softDecoded_tbl hahead fun _ => ⟨rfl, rfl, rfl⟩
      · exact softDecoded_bwd hahead fun _ => ⟨rfl, rfl, rfl⟩
      · exact absurd rfl hT
    · have hTx' : ¬(T.toNat = 7 ∧ x.toNat = 3) := fun ⟨h7, h3⟩ =>
        hTx.elim (absurd (BitVec.eq_of_toNat_eq h7)) (absurd (BitVec.eq_of_toNat_eq h3))
      have hT8 : T.toNat < 8 := T.isLt
      have hx : x.toNat < 4 := x.isLt
      have hdiv : (224 + T.toNat * 4 + x.toNat) / 4 % 8 = T.toNat := by omega
      rw [opcodeX_toNat, if_neg (by omega), if_pos (by omega), hdiv]
      symm
      cases bytes with
      | nil =>
        rw [fetch_nil hahead, decodeStream, if_neg (opcodeX_ne_end T x hTx), if_pos (tagS_opcodeX T x)]
        rfl
      | cons cnt bytes =>
        obtain ⟨hfetch, hahead⟩ := fetch_cons hahead
        rw [hfetch, decodeStream_extended cnt bytes hTx]
        obtain rfl | rfl | rfl | rfl | rfl | rfl | rfl | rfl := tag_cases T
        · exact softDecoded_lit (k := .litx x cnt) hahead (fun _ => ⟨rfl, rfl, rfl⟩) (.inl rfl)
        · exact softDecoded_rpt hahead fun _ => ⟨rfl, rfl, rfl⟩
        · exact softDecoded_pair hahead fun _ _ => ⟨rfl, rfl, rfl⟩
        · exact softDecoded_inc hahead fun _ => ⟨rfl, rfl, rfl⟩
        · exact softDecoded_fwd hahead fun _ => ⟨rfl, rfl, rfl⟩
        · exact softDecoded_tbl hahead fun _ => ⟨rfl, rfl, rfl⟩
        · exact softDecoded_bwd hahead fun _ => ⟨rfl, rfl, rfl⟩
        · simp only [BitVec.reduceEq, if_false]
          split
          · exact softDecoded_lit (k := .litxDFE cnt) hahead (fun _ => ⟨rfl, rfl, rfl⟩) (.inr rfl)
          · exact softDecoded_lit (k := .litxD (x.extractLsb' 0 1) cnt) hahead (fun _ => ⟨rfl, rfl, rfl⟩) (.inr rfl)

end Sys2Proof.Machine
end

section
/-! PROOFS. A decode depends on nothing but its inputs (42 R142), and delivers what the source's software delivers (42 R130 to
R140, 44 R180 to R191). -/

namespace Sys2Proof.Machine

/-! ### One turn of the machine and of the software -/

/-- A turn of the machine against what `r` says of the software's: both go on, or both raise the same error, or both have met
END. -/
inductive Turned (s : State) (r : Except SoftError (Bool × Soft)) : Prop
  | on {t : State} (hr : r = .ok (false, softOf t)) (hstep : streamStep s = .next t) (h : Reached s t)
  | raised {e : ErrKind} {info : Int} {u : State} (hr : r = .error (e, info)) (hstep : streamStep s = .next (raise e info u))
      (h : Reached s u)
  | endStream (hr : r = .ok (true, softOf (headE s))) (hstep : streamStep s = exec .endStream s)

theorem turned_behaviour {s : State} {i : Instr} {b : Behaviour} (hb : behaviour i = some b) (hwf : s.out.wf)
    (hstep : streamStep s = exec i s) : Turned s (softExec (tableOf s) s.params.outCap (softOf s) i) := by
  have hsoft := run_soft b i.count (s := fetchHead i s) hwf
  have hwithin := run_within b i.count (fetchHead i s)
  rw [exec_behaviour hb] at hstep
  have hexec : softExec (tableOf s) s.params.outCap (softOf s) i = goesOn (b.run i.count (fetchHead i s)).soft := by
    rw [hsoft]
    exact softExec_eq ⟨hb, rfl, rfl⟩
  rw [hexec]
  revert hwithin hstep
  cases b.run i.count (fetchHead i s) with
  | ok t => exact fun hstep h => .on rfl hstep ((fetchHead_reached i s).trans h)
  | trap e info u => exact fun hstep h => .raised rfl hstep ((fetchHead_reached i s).trans h.1)

theorem turned_exec {s : State} {i : Instr} (hspace : i.space = .stream) (hwf : s.out.wf) (hstep : streamStep s = exec i s) :
    Turned s (softExec (tableOf s) s.params.outCap (softOf s) i) := by
  obtain rfl | ⟨b, hb⟩ := behaviour_of_stream hspace
  · exact .endStream rfl hstep
  · exact turned_behaviour hb hwf hstep

/-- Every turn, against the software's turn on the same window; `last` is where the ROM ends, if it ends in the window. -/
theorem turned {s : State} (hwf : s.out.wf) {last : Nat}
    (hlast : (streamWindow s).length < maxLength → s.cur + (streamWindow s).length = last) :
    Turned s (softDecoded (tableOf s) s.params.outCap last (softOf s) (decode .stream (streamWindow s))) := by
  obtain ⟨i, rest, hdecode, -, hspace, -, hstep⟩ | ⟨i, data, hdecode, -, -, hspace, -, -, hstep⟩ |
    ⟨e, hdecode, he, hshort, hstep⟩ := streamStep_turn s
  · rw [hdecode]
    exact turned_exec hspace hwf hstep
  · rw [hdecode]
    exact turned_exec hspace hwf hstep
  · rw [hdecode]
    rw [truncated_eq, hlast hshort] at hstep
    refine .raised ?_ hstep (fetchedAll_reached s)
    cases e with
    | cutLiteral i => exact absurd rfl (he i)
    | _ => rfl

/-! ### Two machines (42 R142) -/

/-- The bytes of ROM from `p` on, ending where the ROM ends. -/
theorem romBytes_eq (s : State) (p n : Nat) :
    romBytes s p n = (List.range' p (min n (s.romSize - p))).map s.rom.read := by
  induction n generalizing p with
  | zero => rw [Nat.zero_min]; rfl
  | succ n ih =>
    rw [romBytes]
    by_cases hp : p < s.romSize
    · have hmin : min (n + 1) (s.romSize - p) = min n (s.romSize - (p + 1)) + 1 := by omega
      rw [if_pos hp, ih, hmin, List.range'_succ]
      rfl
    · rw [if_neg hp, Nat.sub_eq_zero_of_le (by omega), Nat.min_zero]
      rfl

/-- Machines that go on from machines that agree agree if they hold the same cursor and buffer. -/
theorem sameDecode_of_reached {s1 s2 t1 t2 : State} (h : SameDecode s1 s2) (h1 : Reached s1 t1) (h2 : Reached s2 t2)
    (hsoft : softOf t1 = softOf t2) : SameDecode t1 t2 := by
  obtain ⟨hengine, -, -, hrom, hsize, htbl, hparams, hbase, -⟩ := h
  obtain ⟨hcur, hlen, hout⟩ := softOf_eq_iff.1 hsoft
  have honly1 := h1.only
  have honly2 := h2.only
  unfold OnlyStreamFields at honly1 honly2
  rw [honly1, honly2]
  exact ⟨hengine, hcur, hlen, hrom, hsize, htbl, hparams, hbase, hout⟩

/-- Machines that agree on what a window is made of make the same window. -/
theorem read_windowOf_congr {s t : State} (hwfs : s.out.wf) (hwft : t.out.wf) (hparams : s.params = t.params)
    (hpad : padOf s = padOf t) (hlen : s.len = t.len) (hout : ∀ a, a < s.len → s.out.read a = t.out.read a) (a : Nat) :
    (windowOf s).read a = (windowOf t).read a := by
  have hdata : (if a < padOf t then 0#8 else if a < padOf t + t.len then s.out.read (a - padOf t) else 0#8) =
      if a < padOf t then 0#8 else if a < padOf t + t.len then t.out.read (a - padOf t) else 0#8 :=
    ite_congr rfl (fun _ => rfl) fun _ => ite_congr rfl (fun _ => hout _ (by omega)) fun _ => rfl
  rw [read_windowOf hwfs, read_windowOf hwft, hparams, hpad, hlen, hdata]

/-- Two machines that agree on what END reads end alike. -/
theorem sameResult_of_endStream {s1 s2 t1 t2 : State} (hsame : SameDecode s1 s2) (he : s1.engine ≠ .idle) (hwf1 : s1.out.wf)
    (hwf2 : s2.out.wf) (h1 : exec .endStream s1 = .next t1) (h2 : exec .endStream s2 = .next t2) :
    SameResult (decide (s1.engine = .compose)) t1 t2 := by
  obtain ⟨hengine, hcur, hlen, -, -, -, hparams, hbase, hout⟩ := hsame
  have hcur : s1.cur + 1 = s2.cur + 1 := congrArg (· + 1) hcur
  cases hc : s1.engine with
  | idle => exact absurd hc he
  | decomp =>
    rw [exec_endStream_decomp hc] at h1
    rw [exec_endStream_decomp (hengine.symm.trans hc)] at h2
    cases h1
    cases h2
    exact ⟨rfl, rfl, rfl, rfl, nofun, fun _ => ⟨hcur, hlen, hout, nofun⟩⟩
  | compose =>
    have hc2 := hengine.symm.trans hc
    obtain ⟨hvstart, hbaseSel⟩ := hbase hc
    have hpad : padOf s1 = padOf s2 := by rw [padOf, padOf, hvstart, hbaseSel]
    obtain hover | hfit := Nat.lt_or_ge 0x1800 (padOf s1 + s1.len)
    · have hover2 := hover
      rw [hpad, hlen] at hover2
      rw [exec_endStream_over hc hover] at h1
      rw [exec_endStream_over hc2 hover2] at h2
      cases h1
      cases h2
      exact ⟨rfl, rfl, rfl, rfl, fun _ => by rw [raise, raise, hpad, hlen], nofun⟩
    · have hfit2 : padOf s2 + s2.len ≤ 0x1800 := by rwa [hpad, hlen] at hfit
      rw [exec_endStream_fits hc hfit] at h1
      rw [exec_endStream_fits hc2 hfit2] at h2
      have hwin := read_windowOf_congr hwf1 hwf2 hparams hpad hlen hout
      generalize windowOf s1 = w1, windowOf s2 = w2 at *
      cases h1
      cases h2
      exact ⟨rfl, rfl, rfl, rfl, nofun, fun _ => ⟨hcur, hlen, hout, fun _ => ⟨hvstart, hbaseSel, fun a _ => hwin a⟩⟩⟩

/-- Settles O47: both machines are compared with the software's turn on the window they share. -/
theorem decodeDependsOnItsInputsOnly : Obligations.DecodeDependsOnItsInputsOnly := by
  intro s1 s2 t1 t2 hsame he hwf1 hwf2 hr1 hr2 h1 h2
  obtain ⟨hengine, hcur, hlen, hrom, hsize, htbl, hparams, hbase, hout⟩ := id hsame
  have hsoft : softOf s1 = softOf s2 := softOf_eq_iff.2 ⟨hcur, hlen, hout⟩
  have hwindow : streamWindow s1 = streamWindow s2 := by
    rw [streamWindow, streamWindow, romBytes_eq, romBytes_eq, hcur, hrom, hsize]
  have htable : tableOf s1 = tableOf s2 := by unfold tableOf; rw [htbl]
  have hturn1 := turned hwf1 (fun _ => rfl)
  have hturn2 := turned hwf2 (fun _ => rfl)
  rw [htable, hparams, hcur, hsoft, hwindow] at hturn1
  rw [step_stream he hr1] at h1
  rw [step_stream (hengine ▸ he) hr2] at h2
  obtain ⟨hra, hstepa, hreacha⟩ | ⟨hra, hstepa, hreacha⟩ | ⟨hra, hstepa⟩ := hturn1
  · obtain ⟨hrb, hstepb, hreachb⟩ | ⟨hrb, -, -⟩ | ⟨hrb, -⟩ := hturn2
    · cases hstepa.symm.trans h1
      cases hstepb.symm.trans h2
      have hsoft := (Prod.mk.inj (Except.ok.inj (hra.symm.trans hrb))).2
      exact .inl ⟨by rwa [hreacha.only.engine], sameDecode_of_reached hsame hreacha hreachb hsoft⟩
    · cases hra.symm.trans hrb
    · cases hra.symm.trans hrb
  · obtain ⟨hrb, -, -⟩ | ⟨hrb, hstepb, hreachb⟩ | ⟨hrb, -⟩ := hturn2
    · cases hra.symm.trans hrb
    · cases hstepa.symm.trans h1
      cases hstepb.symm.trans h2
      cases hra.symm.trans hrb
      exact .inr ⟨rfl, rfl, rfl, rfl, fun _ => rfl, nofun⟩
    · cases hra.symm.trans hrb
  · obtain ⟨hrb, -, -⟩ | ⟨hrb, -, -⟩ | ⟨-, hstepb⟩ := hturn2
    · cases hra.symm.trans hrb
    · cases hra.symm.trans hrb
    · exact .inr (sameResult_of_endStream hsame he hwf1 hwf2 (hstepa.symm.trans h1) (hstepb.symm.trans h2))

end Sys2Proof.Machine
end

section
/-! PROOFS. DECOMP and COMPOSE deliver what the source's software delivers (42 R130 to R140, 43 R151 to R173, 44 R180 to
R191, 60 R240 to R248). -/

namespace Sys2Proof.Machine

/-! ### The loop (42 R132, R138) -/

/-- The whole ROM. -/
def romOf (s : State) : List Byte := romBytes s 0 s.romSize

theorem romOf_eq (s : State) : romOf s = (List.range' 0 s.romSize).map s.rom.read := by
  rw [romOf, romBytes_eq, Nat.sub_zero, Nat.min_self]

theorem romOf_congr {s t : State} (hrom : t.rom = s.rom) (hsize : t.romSize = s.romSize) : romOf t = romOf s := by
  rw [romOf_eq, romOf_eq, hrom, hsize]

theorem romOf_length (s : State) : (romOf s).length = s.romSize := by simp [romOf_eq]

/-- What a turn can read is the start of what the software has ahead. -/
theorem window_eq_take (s : State) : streamWindow s = ((romOf s).drop s.cur).take maxLength := by
  rw [streamWindow, romBytes_eq, romOf_eq, ← List.map_drop, ← List.map_take, List.drop_range', Nat.zero_add, Nat.mul_one]
  obtain hshort | hlong := Nat.le_total (s.romSize - s.cur) maxLength
  · rw [Nat.min_eq_right hshort, List.take_range'_of_length_le hshort]
  · rw [Nat.min_eq_left hlong, List.take_range'_of_length_ge hlong]

/-- The software's turn on the whole ROM is its turn on the window. -/
theorem turn_softOf {s : State} (hcur : s.cur ≤ s.romSize) (cap : Nat) : (softOf s).turn (romOf s) cap =
    softDecoded BitVec.reverse cap s.romSize (softOf s) (decode .stream (streamWindow s)) := by
  have hahead : Ahead (romOf s) (softOf s) ((romOf s).drop s.cur) := ⟨by rwa [romOf_length], rfl⟩
  rw [turn_eq hahead, window_eq_take, romOf_length]
  exact (softDecoded_take _ _ _ _ _).symm

/-- The machine is inside a decode that steps take further, with the table of 41 R118 (42 R131). -/
structure Running (s : State) : Prop where
  engine : s.engine ≠ .idle
  noReset : resetNext s = false
  out_wf : s.out.wf
  table : s.tbl = Memory.ofBytes 0 Config.tblListing
  cur_le : s.cur ≤ s.romSize

theorem tableOf_running {s : State} (h : Running s) : tableOf s = BitVec.reverse := by
  funext b
  rw [tableOf, h.table, read_tblListing]

theorem running_turn {s : State} (h : Running s) : Turned s ((softOf s).turn (romOf s) s.params.outCap) := by
  rw [turn_softOf h.cur_le, ← tableOf_running h]
  exact turned h.out_wf fun hshort => window_ends h.cur_le hshort

/-- A decode run to its end against the software's loop: both raise the same error, or both have met END. -/
inductive Looped (s : State) (r : Except SoftError Soft) : Prop
  | raised {k : Nat} {e : ErrKind} {info : Int} {v : State} (hr : r = .error (e, info)) (h : Reached s v)
      (hrun : core.run k s = .next (raise e info v))
  | ended {k : Nat} {v : State} (hr : r = .ok (softOf (headE v))) (h : Reached s v)
      (hrun : ∀ u, exec .endStream v = .next u → core.run k s = .next u)

theorem Looped.after {s t : State} {r : Except SoftError Soft} (hst : Reached s t) (hstep : step s = .next t) (h : Looped t r) :
    Looped s r := by
  obtain @⟨k, e, info, v, hr, h, hrun⟩ | @⟨k, v, hr, h, hrun⟩ := h
  · exact .raised hr (hst.trans h) ((run_succ k hstep).trans hrun)
  · exact .ended hr (hst.trans h) fun u hu => (run_succ k hstep).trans (hrun u hu)

theorem running_loop (fuel : Nat) (s : State) (h : Running s) (hfuel : s.romSize < s.cur + fuel) :
    Looped s (Soft.loop (romOf s) s.params.outCap fuel (softOf s)) := by
  induction fuel generalizing s with
  | zero => exact absurd h.cur_le (by omega)
  | succ fuel ih =>
    rw [Soft.loop]
    have hstep_eq := step_stream h.engine h.noReset
    obtain @⟨t, hr, hstep, hst⟩ | @⟨e, info, u, hr, hstep, hsu⟩ | ⟨hr, hstep⟩ := running_turn h
    · rw [← hstep_eq] at hstep
      have honly := hst.only
      have hgoes : t.engine ≠ .idle := by rw [honly.engine]; exact h.engine
      obtain ⟨htwo, hin⟩ := step_goesOn h.engine h.noReset h.cur_le hstep hgoes
      have hrunning : Running t := ⟨hgoes, (resetNext_eq honly.host).trans h.noReset, hst.wf h.out_wf,
        honly.tbl.trans h.table, by rwa [honly.romSize]⟩
      have hloop := ih t hrunning (by rw [honly.romSize]; omega)
      rw [hr]
      rw [honly.params, romOf_congr honly.rom honly.romSize] at hloop
      exact hloop.after hst hstep
    · rw [hr]
      exact .raised rfl hsu (run_succ 0 (hstep_eq.trans hstep))
    · rw [hr]
      exact .ended (k := 1) rfl (Reached.refl s) fun u hu => run_succ 0 (hstep_eq.trans (hstep.trans hu))

/-! ### The start (00_scope R13) -/

/-- With a start position outside the ROM both raise, and the same error. -/
theorem start_outside {i : Instr} (hi : i = .decomp ∨ i = .compose) {s : State} (h : s.romSize ≤ s.pos.toNat) {α : Type}
    (body : Except SoftError α) : ∃ t e info, exec i s = .next t ∧ InError t e info ∧ (i = .compose → t.valid.win = false) ∧
      Soft.checked (romOf s) s.pos.toNat body = .error (e, info) := by
  obtain ⟨t, hexec, -, hwin, -, -, -, -, hempty, hrange⟩ := startPositionIsChecked s i hi h
  rw [Soft.checked, romOf_length]
  by_cases hsize : s.romSize = 0
  · exact ⟨t, _, _, hexec, hempty hsize, hwin, if_pos hsize⟩
  · exact ⟨t, _, _, hexec, hrange (Nat.pos_of_ne_zero hsize), hwin, by rw [if_neg hsize, if_pos h]⟩

theorem checked_inside {s : State} (h : s.pos.toNat < s.romSize) {α : Type} (body : Except SoftError α) :
    Soft.checked (romOf s) s.pos.toNat body = body := by
  rw [Soft.checked, romOf_length, if_neg (by omega), if_neg (by omega)]

theorem inError_raise (e : ErrKind) (info : Int) (s : State) : InError (raise e info s) e info :=
  ⟨rfl, rfl, rfl, rfl, withoutResults_out _ _⟩

/-! ### DECOMP -/

theorem running_decomp {s : State} (hs : Inv s) (hr : resetNext s = false) (h : s.pos.toNat < s.romSize) :
    Running (startAt s.pos.toNat (beginDecode .decomp s)) where
  engine := nofun
  noReset := hr
  out_wf := hs.out_wf
  table := hs.tbl_eq
  cur_le := h.le

theorem inError_engine {t : State} {e : ErrKind} {info : Int} (h : InError t e info) : t.engine = .idle := by
  obtain ⟨-, -, -, hidle, -⟩ := h
  exact hidle

/-- Settles O48. -/
theorem decompRefinesTheSoftwareDecoder : Obligations.DecompRefinesTheSoftwareDecoder := by
  intro s hs hreset
  rw [← romOf]
  obtain hin | hout := Nat.lt_or_ge s.pos.toNat s.romSize
  · have hloop := running_loop (s.romSize + 1) _ (running_decomp hs hreset hin) (by
      simp only [startAt_cur, startAt_romSize, beginDecode_romSize]
      omega)
    have hsoft : Soft.decomp (romOf s) s.params.outCap s.pos.toNat =
        Soft.loop (romOf s) s.params.outCap (s.romSize + 1) (softOf (startAt s.pos.toNat (beginDecode .decomp s))) := by
      rw [Soft.decomp, checked_inside hin, romOf_length]
      rfl
    have hrom : romOf (startAt s.pos.toNat (beginDecode .decomp s)) = romOf s := romOf_congr rfl rfl
    rw [startAt_params, beginDecode_params, hrom, ← hsoft] at hloop
    obtain @⟨k, e, info, v, hr, hv, hrun⟩ | @⟨k, v, hr, hv, hrun⟩ := hloop
    · refine ⟨_, k, _, exec_decomp_ok hin, hrun, rfl, ?_⟩
      rw [hr]
      exact inError_raise e info v
    · refine ⟨_, k, _, exec_decomp_ok hin, hrun _ (exec_endStream_decomp hv.only.engine), rfl, ?_⟩
      rw [hr]
      exact ⟨rfl, rfl, rfl, rfl, (softOf_buf_length _).symm, fun a h => (softOf_buf_getElem (headE v) a h).symm⟩
  · obtain ⟨t, e, info, hexec, herror, -, hsoft⟩ := start_outside (.inl rfl) hout
      (Soft.loop (romOf s) s.params.outCap ((romOf s).length + 1) { cur := s.pos.toNat, buf := [] })
    refine ⟨t, 0, t, hexec, rfl, inError_engine herror, ?_⟩
    rw [Soft.decomp, hsoft]
    exact herror

/-! ### The window as a list (44 R187, R188) -/

/-- Left pad, data and right pad, without the fixed slots. -/
def softFill (pad : Nat) (buf : List Byte) : List Byte :=
  List.replicate pad 0#8 ++ buf ++ List.replicate (Config.winSize - (pad + buf.length)) 0#8

theorem softFill_length {pad : Nat} {buf : List Byte} (hfit : pad + buf.length ≤ 0x1800) : (softFill pad buf).length = 0x1800 := by
  simp only [softFill, List.length_append, List.length_replicate, Config.winSize]
  omega

theorem softFill_getElem {pad : Nat} {buf : List Byte} (a : Nat) (h : a < (softFill pad buf).length) :
    (softFill pad buf)[a] = if a < pad then 0#8 else if h : a - pad < buf.length then buf[a - pad] else 0#8 := by
  simp only [softFill, List.getElem_append, List.getElem_replicate, List.length_append, List.length_replicate]
  by_cases hpad : a < pad
  · rw [dif_pos (by omega), dif_pos hpad, if_pos hpad]
  · by_cases hbuf : a - pad < buf.length
    · rw [dif_pos (by omega), dif_neg hpad, if_neg hpad, dif_pos hbuf]
    · rw [dif_neg (by omega), if_neg hpad, dif_neg hbuf]

theorem softWindow_eq (tileD tileE : List Byte) (pad : Nat) (buf : List Byte) : Soft.window tileD tileE pad buf =
    (softFill pad buf).take 0xFD0 ++ tileD ++ tileE ++ List.replicate 16 0#8 ++ (softFill pad buf).drop 0x1000 := rfl

section
variable {tileD tileE : Vector Byte 16} {buf : List Byte} {pad : Nat} (hfit : pad + buf.length ≤ 0x1800)
include hfit

theorem softWindow_length : (Soft.window tileD.toList tileE.toList pad buf).length = 0x1800 := by
  simp only [softWindow_eq, List.length_append, List.length_take, List.length_drop, List.length_replicate,
    Vector.length_toList, softFill_length hfit]
  omega

theorem softWindow_getElem (a : Nat) (h : a < (Soft.window tileD.toList tileE.toList pad buf).length) :
    (Soft.window tileD.toList tileE.toList pad buf)[a] =
      if h : 0xFD0 ≤ a ∧ a < 0xFE0 then tileD[a - 0xFD0]'(by omega)
      else if h : 0xFE0 ≤ a ∧ a < 0xFF0 then tileE[a - 0xFE0]'(by omega)
      else if 0xFF0 ≤ a ∧ a < 0x1000 then 0#8
      else if a < pad then 0#8
      else if h : a - pad < buf.length then buf[a - pad] else 0#8 := by
  have hlow : min 0xFD0 0x1800 = 0xFD0 := rfl
  simp only [softWindow_eq, List.getElem_append, List.length_append, List.length_take, List.length_replicate,
    Vector.length_toList, softFill_length hfit, List.getElem_take, List.getElem_drop, List.getElem_replicate,
    Vector.getElem_toList, hlow]
  by_cases h4 : a < 0xFD0 + 16 + 16 + 16
  · rw [dif_pos h4]
    by_cases h3 : a < 0xFD0 + 16 + 16
    · rw [dif_pos h3]
      by_cases h2 : a < 0xFD0 + 16
      · rw [dif_pos h2]
        by_cases h1 : a < 0xFD0
        · rw [dif_pos h1, dif_neg (by omega), dif_neg (by omega), if_neg (by omega), softFill_getElem]
        · rw [dif_neg h1, dif_pos (by omega)]
      · rw [dif_neg h2, dif_neg (by omega), dif_pos (by omega)]
    · rw [dif_neg h3, dif_neg (by omega), dif_neg (by omega), if_pos (by omega)]
  · have hback : 0x1000 + (a - (0xFD0 + 16 + 16 + 16)) = a := by omega
    rw [dif_neg h4, dif_neg (by omega), dif_neg (by omega), if_neg (by omega)]
    simp only [hback, softFill_getElem]

end

/-- The window the machine writes is the software's. -/
theorem read_windowOf_soft {s : State} (hwf : s.out.wf) (hfit : padOf s + s.len ≤ 0x1800) (a : Nat)
    (h : a < (Soft.window s.params.fixed7D.toList s.params.fixed7E.toList (padOf s) (softOf s).buf).length) :
    (windowOf s).read a = (Soft.window s.params.fixed7D.toList s.params.fixed7E.toList (padOf s) (softOf s).buf)[a] := by
  have hfill : (if a < padOf s then 0#8 else if a < padOf s + s.len then s.out.read (a - padOf s) else 0#8) =
      if a < padOf s then 0#8 else if h : a - padOf s < (softOf s).buf.length then (softOf s).buf[a - padOf s] else 0#8 := by
    refine ite_congr rfl (fun _ => rfl) fun hlow => ?_
    simp only [softOf_buf_getElem, softOf_buf_length, dite_eq_ite]
    exact ite_congr (propext (by omega)) (fun _ => rfl) fun _ => rfl
  rw [read_windowOf hwf, softWindow_getElem (by rwa [softOf_buf_length]), hfill]

/-! ### COMPOSE -/

@[simp] theorem composeBegin_cur (t : State) : (composeBegin t).cur = t.pos.toNat + 1 := by rw [composeBegin, startAt_cur]
@[simp] theorem composeBegin_len (t : State) : (composeBegin t).len = 0 := by rw [composeBegin, startAt_len]
@[simp] theorem composeBegin_out (t : State) : (composeBegin t).out = t.out := by rw [composeBegin, startAt_out]
@[simp] theorem composeBegin_tbl (t : State) : (composeBegin t).tbl = t.tbl := by rw [composeBegin, startAt_tbl]
@[simp] theorem composeBegin_host (t : State) : (composeBegin t).host = t.host := by rw [composeBegin, startAt_host]
@[simp] theorem composeBegin_vstart (t : State) : (composeBegin t).vstart = vstartOf (romRead t.pos.toNat t) := by
  rw [composeBegin, startAt_vstart]
@[simp] theorem composeBegin_baseSel (t : State) : (composeBegin t).baseSel = baseSelOf (vstartOf (romRead t.pos.toNat t)) := by
  rw [composeBegin, startAt_baseSel]

/-- The state in which the inner decode of a COMPOSE starts. -/
def composeStart (s : State) : State := composeBegin (beginDecode .compose s)

@[simp] theorem composeStart_engine (s : State) : (composeStart s).engine = .compose := by
  rw [composeStart, composeBegin_engine, beginDecode_engine]

@[simp] theorem composeStart_cur (s : State) : (composeStart s).cur = s.pos.toNat + 1 := by
  rw [composeStart, composeBegin_cur, beginDecode_pos]

@[simp] theorem composeStart_rom (s : State) : (composeStart s).rom = s.rom := by
  rw [composeStart, composeBegin_rom, beginDecode_rom]

@[simp] theorem composeStart_romSize (s : State) : (composeStart s).romSize = s.romSize := by
  rw [composeStart, composeBegin_romSize, beginDecode_romSize]

@[simp] theorem composeStart_params (s : State) : (composeStart s).params = s.params := by
  rw [composeStart, composeBegin_params, beginDecode_params]

theorem exec_compose_start {s : State} (h : s.pos.toNat < s.romSize) : exec .compose s = .next (composeStart s) :=
  exec_compose_ok h

theorem running_compose {s : State} (hs : Inv s) (hr : resetNext s = false) (h : s.pos.toNat < s.romSize) :
    Running (composeStart s) where
  engine := by rw [composeStart_engine]; exact nofun
  noReset := (resetNext_eq (composeBegin_host _)).trans hr
  out_wf := by rw [composeStart, composeBegin_out]; exact hs.out_wf
  table := by rw [composeStart, composeBegin_tbl]; exact hs.tbl_eq
  cur_le := by rw [composeStart_cur, composeStart_romSize]; exact h

/-- The end of the software's COMPOSE, with the VSTART and the base of `t`. -/
def softEnd (t : State) (σ : Soft) : Except SoftError SoftWindow :=
  if Config.winSize < padOf t + σ.buf.length then .error (.windowOverflow, ((padOf t + σ.buf.length : Nat) : Int))
  else .ok {
    soft := σ, vstart := t.vstart.toNat, base := baseOf t.baseSel
    win := Soft.window t.params.fixed7D.toList t.params.fixed7E.toList (padOf t) σ.buf }

theorem baseOf_baseSelOf (v : Half) : baseOf (baseSelOf v) = if v.toNat < 0x8800 then 0x8000 else 0x8800 := by
  unfold baseSelOf
  split
  · rfl
  · rfl

theorem soft_ok_bind {α β : Type} (a : α) (f : α → Except SoftError β) : Except.ok a >>= f = f a := rfl

theorem soft_compose_eq {s : State} (h : s.pos.toNat < s.romSize) :
    Soft.compose (romOf s) s.params.fixed7D.toList s.params.fixed7E.toList s.params.outCap s.pos.toNat =
      Soft.loop (romOf s) s.params.outCap (s.romSize + 1) (softOf (composeStart s)) >>= softEnd (composeStart s) := by
  have hcb : (romOf s)[s.pos.toNat]?.getD 0#8 = romRead s.pos.toNat s := by
    simp [romOf_eq, h, romRead]
  have hsoft : softOf (composeStart s) = { cur := s.pos.toNat + 1, buf := [] } := by
    simp [softOf, composeStart]
  have hvstart : 0x9630 - (romRead s.pos.toNat s).toNat * 16 = (composeStart s).vstart.toNat := by
    rw [composeStart, composeBegin_vstart, vstartOf_toNat, Nat.mul_comm]
    rfl
  have hbase : (if (composeStart s).vstart.toNat < 0x8800 then 0x8000 else 0x8800) = baseOf (composeStart s).baseSel := by
    rw [composeStart, composeBegin_vstart, composeBegin_baseSel, baseOf_baseSelOf]
  rw [Soft.compose, checked_inside h, romOf_length, hsoft, ← composeStart_params s]
  simp only [hcb, hvstart, hbase]
  rfl

theorem composed_fields (w : Memory) (s : State) : (composed w s).engine = .idle ∧ (composed w s).st = .done ∧
    (composed w s).err = .none ∧ (composed w s).valid.out = true ∧ (composed w s).valid.win = true ∧
    (composed w s).vstart = s.vstart ∧ (composed w s).baseSel = s.baseSel ∧ softOf (composed w s) = softOf (headE s) :=
  ⟨rfl, rfl, rfl, rfl, rfl, rfl, rfl, rfl⟩

/-- The machine `u` holds what the software's COMPOSE answers. -/
def Delivers (u : State) : Except SoftError SoftWindow → Prop
  | .ok d => u.st = .done ∧ u.err = .none ∧ u.valid.out = true ∧ u.valid.win = true ∧
      u.vstart.toNat = d.vstart ∧ u.baseSel = (if d.base = 0x8000 then 0#1 else 1#1) ∧
      u.cur = d.soft.cur ∧ u.len = d.soft.buf.length ∧
      (∀ (a : Nat) (h : a < d.soft.buf.length), u.out.read a = d.soft.buf[a]) ∧
      d.win.length = 0x1800 ∧ ∀ (a : Nat) (h : a < d.win.length), u.win.read a = d.win[a]
  | .error (e, info) => InError u e info ∧ u.valid.win = false

theorem delivers_error {u : State} {e : ErrKind} {info : Int} (h : InError u e info) (hwin : u.valid.win = false) :
    Delivers u (.error (e, info)) := ⟨h, hwin⟩

theorem delivers_raise {v : State} (hc : v.engine = .compose) (e : ErrKind) (info : Int) :
    Delivers (raise e info v) (.error (e, info)) :=
  delivers_error (inError_raise e info v) (by rw [raise_valid, hc, withoutResults_win_compose])

theorem OnlyStreamFields.vstart {s t : State} (h : OnlyStreamFields s t) : t.vstart = s.vstart := by
  unfold OnlyStreamFields at h
  rw [h]

theorem OnlyStreamFields.baseSel {s t : State} (h : OnlyStreamFields s t) : t.baseSel = s.baseSel := by
  unfold OnlyStreamFields at h
  rw [h]

/-- END of a COMPOSE delivers what the software's does with the same cursor and buffer. -/
theorem delivers_endStream {t v : State} (hc : t.engine = .compose) (h : Reached t v) (hwf : v.out.wf) :
    ∃ u, exec .endStream v = .next u ∧ u.engine = .idle ∧ Delivers u (softEnd t (softOf (headE v))) := by
  have hvc : v.engine = .compose := h.only.engine.trans hc
  have hvstart : v.vstart = t.vstart := OnlyStreamFields.vstart h.only
  have hbaseSel : v.baseSel = t.baseSel := OnlyStreamFields.baseSel h.only
  have hpad : padOf t = padOf v := by rw [padOf, padOf, hvstart, hbaseSel]
  have hbuf : (softOf (headE v)).buf = (softOf v).buf := rfl
  rw [softEnd, ← h.only.params, ← hvstart, ← hbaseSel, hpad, hbuf, softOf_buf_length]
  obtain hover | hfit := Nat.lt_or_ge 0x1800 (padOf v + v.len)
  · rw [if_pos (by exact hover)]
    exact ⟨_, exec_endStream_over hvc hover, rfl, delivers_raise (v := headE v) hvc _ _⟩
  · rw [if_neg (by exact Nat.not_lt.2 hfit)]
    have hlength : (Soft.window v.params.fixed7D.toList v.params.fixed7E.toList (padOf v) (softOf v).buf).length = 0x1800 :=
      softWindow_length (by rwa [softOf_buf_length])
    have hread := read_windowOf_soft hwf hfit
    have hexec := exec_endStream_fits hvc hfit
    generalize windowOf v = w at hread hexec
    have hbase : ∀ b : BitVec 1, b = if baseOf b = 0x8000 then 0#1 else 1#1 := by decide
    obtain ⟨hidle, hst, herr, hout, hwin, hvstart, hbaseSel, hsoft⟩ := composed_fields w v
    refine ⟨_, hexec, hidle, hst, herr, hout, hwin, congrArg BitVec.toNat hvstart, hbaseSel.trans (hbase v.baseSel), rfl,
      (softOf_buf_length v).symm, fun a h => (softOf_buf_getElem v a h).symm, hlength, hread⟩

/-- COMPOSE run to its end delivers what the software's does. -/
theorem compose_delivers {s : State} (hs : Inv s) (hreset : resetNext s = false) :
    ∃ t k u, exec .compose s = .next t ∧ core.run k t = .next u ∧ u.engine = .idle ∧
      Delivers u (Soft.compose (romOf s) s.params.fixed7D.toList s.params.fixed7E.toList s.params.outCap s.pos.toNat) := by
  obtain hin | hout := Nat.lt_or_ge s.pos.toNat s.romSize
  · have hexec := exec_compose_start hin
    have hc := composeStart_engine s
    have hrunning := running_compose hs hreset hin
    have hloop := running_loop (s.romSize + 1) _ hrunning (by
      rw [composeStart_cur, composeStart_romSize]
      omega)
    rw [romOf_congr (composeStart_rom s) (composeStart_romSize s), composeStart_params] at hloop
    rw [soft_compose_eq hin]
    generalize composeStart s = t at *
    obtain @⟨k, e, info, v, hr, hv, hrun⟩ | @⟨k, v, hr, hv, hrun⟩ := hloop
    · rw [hr]
      exact ⟨t, k, _, hexec, hrun, rfl, delivers_raise (hv.only.engine.trans hc) e info⟩
    · rw [hr, soft_ok_bind]
      obtain ⟨u, hu, hidle, hdelivers⟩ := delivers_endStream hc hv (hv.wf hrunning.out_wf)
      exact ⟨t, k, u, hexec, hrun u hu, hidle, hdelivers⟩
  · obtain ⟨t, e, info, hexec, herror, hwin, hsoft⟩ := start_outside (.inr rfl) hout _
    refine ⟨t, 0, t, hexec, rfl, inError_engine herror, ?_⟩
    rw [Soft.compose, hsoft]
    exact delivers_error herror (hwin rfl)

/-- Settles O49. -/
theorem composeRefinesTheSoftwareComposer : Obligations.ComposeRefinesTheSoftwareComposer := by
  intro s hs hreset
  obtain ⟨t, k, u, hexec, hrun, hidle, hdelivers⟩ := compose_delivers hs hreset
  refine ⟨t, k, u, hexec, hrun, hidle, ?_⟩
  rw [← romOf]
  revert hdelivers
  generalize Soft.compose (romOf s) _ _ _ _ = r
  exact id

end Sys2Proof.Machine
end
